-- ==== Sys2Proof/Word.lean ====
section
/-! DEFINITION. The bit-vector types of the 65816: bytes, words, addresses, and the two operand widths
(00_scope.md R5 to R8, 20_memory.md R50). -/

namespace Sys2Proof

/-- A byte: 8 bits (20_memory.md R50). -/
abbrev Byte := BitVec 8

/-- A 16-bit word: A, X, Y, S, D, PC, an offset in a bank (00_scope.md R4). -/
abbrev Word := BitVec 16

/-- A 24-bit address `bb:oooo`, bank above offset (20_memory.md R50). -/
abbrev Address := BitVec 24

/-- The two operand widths an instruction can have (00_scope.md R8). -/
inductive Width
  | w8
  | w16
  deriving DecidableEq, Repr, Inhabited

/-- The number of bits of a width: `wm` and `wx` of 00_scope.md R8. -/
abbrev Width.bits : Width → Nat
  | .w8 => 8
  | .w16 => 16

/-- `Pm` or `Px`: the source's M/X column, which mode bit selects an instruction's width (00_scope.md R8). -/
inductive Selector
  | m
  | x
  deriving DecidableEq, Repr

end Sys2Proof
end

