-- ==== Sys2Proof/Config.lean ====
section
/-! DEFINITION. What an implementation fixes, and the free values: the parameters of 00_scope.md R4 and the
entries of 93_implementation_defined.md that a model takes as configuration. An `opaque` constant has no body,
so a claim about the machine holds whatever its value is. -/

namespace Sys2Proof

/-- The interrupts that `Enter` of 60_exceptions.md R256 serves; RESET has a sequence of its own (R280). -/
inductive InterruptKind
  | abort
  | nmi
  | irq
  | brk
  | cop
  deriving DecidableEq, Repr

/-- The vector addresses in bank 00 by kind and by E at the moment of entry: the VEC_* fields of
60_exceptions.md R255 at their defaults. -/
def Config.vector : InterruptKind → Bool → Word
  | .cop, false => 0xFFE4
  | .brk, false => 0xFFE6
  | .abort, false => 0xFFE8
  | .nmi, false => 0xFFEA
  | .irq, false => 0xFFEE
  | .cop, true => 0xFFF4
  | .abort, true => 0xFFF8
  | .nmi, true => 0xFFFA
  | .irq, true => 0xFFFE
  | .brk, true => 0xFFFE

/-- VEC_RESET (60_exceptions.md R255). -/
def Config.vecReset : Word := 0xFFFC

/-- What a platform has in a region of the address space (20_memory.md R59). -/
inductive RegionKind
  /-- Reads and writes. -/
  | ram
  /-- Reads; a write is ignored. -/
  | rom
  /-- No memory: a read gives `Config.unpopulatedByte`, a write is ignored. -/
  | unpopulated
  /-- The region shows the `size` bytes from `base` again and again. -/
  | mirror (base size : Nat)
  deriving DecidableEq, Repr

/-- `size` addresses from `base`, and what the platform has there (20_memory.md R59). -/
structure Region where
  /-- The first address. -/
  base : Nat
  /-- The number of addresses. -/
  size : Nat
  /-- What answers there. -/
  kind : RegionKind
  deriving DecidableEq, Repr

/-- A memory map (20_memory.md R59). The first region that covers an address decides for it, an address that a
mirror shows is decided by the regions after the mirror, and an address that none covers is RAM. -/
abbrev MemoryMap := List Region

/-- The platform's memory map, at the default that 20_memory.md R59 and 93_implementation_defined.md U12 give
this parameter: all 2^24 bytes are RAM (log 22). -/
def Config.memoryMap : MemoryMap := []

/-- What a read of an address without memory returns. FREE VALUE (log 22): 20_memory.md R59 leaves it to the
platform. -/
opaque Config.unpopulatedByte : Address → Byte

/-- What a byte of memory that nothing has written reads as. DESIGN CHOICE (unsafe, log 1): 20_memory.md R59
leaves the contents at power-on to the platform; the vectors of 95_test_vectors.md take $00. -/
def Config.unlistedByte : Byte := 0x00

/-- The treatments of opcode $42 that 30_encoding.md R82 names (WDM_POLICY). -/
inductive WdmPolicy
  | refuse
  | nop2
  deriving DecidableEq, Repr

/-- WDM_POLICY. DESIGN CHOICE (unsafe, log 7): R82 allows an effect, so the model takes it; R82's default is
to refuse. -/
def Config.wdmPolicy : WdmPolicy := .nop2

/-- When the lock of SH to $01 acts during one instruction in emulation mode: after each byte
(00_scope.md R11) or only when the instruction ends (93_implementation_defined.md U6). -/
inductive StackLock
  | perByte
  | atEnd
  deriving DecidableEq, Repr, Inhabited

/-- The instructions the 6502 lacks, whose stack accesses 93_implementation_defined.md U6 leaves open. -/
inductive NewStackOp
  | pea
  | pei
  | per
  | phd
  | plb
  | pld
  | jsl
  | rtl
  | jsrXInd
  deriving DecidableEq, Repr

/-- EMU_NEW_STACK (43_table6_push_pull.md, opening; U6): which lock an instruction shows in the states where
the two differ. FREE VALUE, DESIGN CHOICE (safe, log 8): the spec's default is to refuse those states. -/
opaque Config.emuNewStack : NewStackOp → StackLock

/-- Where the high byte of a `(d,x)` pointer comes from in the corner of 40_addressing_modes.md R98: the next
byte, or the start of the same page. -/
inductive PointerWrap
  | nextByte
  | samePage
  deriving DecidableEq, Repr, Inhabited

/-- EMU_DL_NONZERO_PTR (R98, U7). FREE VALUE, DESIGN CHOICE (safe, log 9): the spec's default is to refuse
that corner. -/
opaque Config.emuDlNonzeroPtr : PointerWrap

/-- The V output of `AddDec` (41_table5_arithmetic_logical.md R147, U3). FREE VALUE (safe, log 11). -/
opaque Config.addDecV : (w : Width) → BitVec w.bits → BitVec w.bits → Bool → Bool

/-- Result and carry of `AddDec` on operands that are not valid BCD (R147, U3). FREE VALUE (safe, log 11). -/
opaque Config.addDecInvalid : (w : Width) → BitVec w.bits → BitVec w.bits → Bool → BitVec w.bits × Bool

/-- The V output of `SubDec` (41_table5_arithmetic_logical.md R148, U3). FREE VALUE (safe, log 11). -/
opaque Config.subDecV : (w : Width) → BitVec w.bits → BitVec w.bits → Bool → Bool

/-- Result and carry of `SubDec` on operands that are not valid BCD (R148, U3). FREE VALUE (safe, log 11). -/
opaque Config.subDecInvalid : (w : Width) → BitVec w.bits → BitVec w.bits → Bool → BitVec w.bits × Bool

/-- A as the n-th Reset() leaves it (70_reset_and_hazards.md R280, U4). FREE VALUE (safe, log 4). -/
opaque Config.resetA : Nat → Word

/-- XL as the n-th Reset() leaves it (R280, U4). FREE VALUE (safe, log 4). -/
opaque Config.resetXL : Nat → Byte

/-- YL as the n-th Reset() leaves it (R280, U4). FREE VALUE (safe, log 4). -/
opaque Config.resetYL : Nat → Byte

/-- SL as the n-th Reset() leaves it (R280, U4). FREE VALUE (safe, log 4). -/
opaque Config.resetSL : Nat → Byte

/-- P as the n-th Reset() leaves it; only N, V, Z and C are taken from it (R280, U4). FREE VALUE (safe,
log 4). -/
opaque Config.resetP : Nat → Byte

end Sys2Proof
end

