-- ==== Sys2Proof/Syntax.lean ====
section
/-! DEFINITION. The instructions of the 65816: one constructor for each of the 256 rows of opcode_table.json
(30_encoding.md R78, R80 to R83). A constructor's name is the row's mnemonic followed by its operand form;
its arguments are the operand fields of 30_encoding.md R71. -/

namespace Sys2Proof

/-- The instruction set, one constructor per opcode value. An immediate of a Pm or Px row is held in 16 bits
whatever its width; in the 8-bit form a well-formed immediate is below $100 (30_encoding.md R74). Branch offsets
are held as they stand in the instruction (30_encoding.md R75). The rows with an operand come first, then the
rows without one, each in the order of the rules of their meanings: Lean compiles no constructor with an
argument past the 244th of a type. -/
inductive Instr
  /-- ADC (d,x), opcode $61; R120. -/
  | adcDirXInd (d : Byte)
  /-- ADC d,s, opcode $63; R120. -/
  | adcSr (d : Byte)
  /-- ADC d, opcode $65; R120. -/
  | adcDir (d : Byte)
  /-- ADC [d], opcode $67; R120. -/
  | adcDirIndl (d : Byte)
  /-- ADC #, opcode $69; R120. -/
  | adcImm (imm : Word)
  /-- ADC a, opcode $6D; R120. -/
  | adcAbs (a : Word)
  /-- ADC al, opcode $6F; R120. -/
  | adcAbsl (al : Address)
  /-- ADC (d),y, opcode $71; R120. -/
  | adcDirIndY (d : Byte)
  /-- ADC (d), opcode $72; R120. -/
  | adcDirInd (d : Byte)
  /-- ADC (d,s),y, opcode $73; R120. -/
  | adcSrIndY (d : Byte)
  /-- ADC d,x, opcode $75; R120. -/
  | adcDirX (d : Byte)
  /-- ADC [d],y, opcode $77; R120. -/
  | adcDirIndlY (d : Byte)
  /-- ADC a,y, opcode $79; R120. -/
  | adcAbsY (a : Word)
  /-- ADC a,x, opcode $7D; R120. -/
  | adcAbsX (a : Word)
  /-- ADC al,x, opcode $7F; R120. -/
  | adcAbslX (al : Address)
  /-- AND (d,x), opcode $21; R121. -/
  | andDirXInd (d : Byte)
  /-- AND d,s, opcode $23; R121. -/
  | andSr (d : Byte)
  /-- AND d, opcode $25; R121. -/
  | andDir (d : Byte)
  /-- AND [d], opcode $27; R121. -/
  | andDirIndl (d : Byte)
  /-- AND #, opcode $29; R121. -/
  | andImm (imm : Word)
  /-- AND a, opcode $2D; R121. -/
  | andAbs (a : Word)
  /-- AND al, opcode $2F; R121. -/
  | andAbsl (al : Address)
  /-- AND (d),y, opcode $31; R121. -/
  | andDirIndY (d : Byte)
  /-- AND (d), opcode $32; R121. -/
  | andDirInd (d : Byte)
  /-- AND (d,s),y, opcode $33; R121. -/
  | andSrIndY (d : Byte)
  /-- AND d,x, opcode $35; R121. -/
  | andDirX (d : Byte)
  /-- AND [d],y, opcode $37; R121. -/
  | andDirIndlY (d : Byte)
  /-- AND a,y, opcode $39; R121. -/
  | andAbsY (a : Word)
  /-- AND a,x, opcode $3D; R121. -/
  | andAbsX (a : Word)
  /-- AND al,x, opcode $3F; R121. -/
  | andAbslX (al : Address)
  /-- ASL d, opcode $06; R122. -/
  | aslDir (d : Byte)
  /-- ASL a, opcode $0E; R122. -/
  | aslAbs (a : Word)
  /-- ASL d,x, opcode $16; R122. -/
  | aslDirX (d : Byte)
  /-- ASL a,x, opcode $1E; R122. -/
  | aslAbsX (a : Word)
  /-- BIT d, opcode $24; R123. -/
  | bitDir (d : Byte)
  /-- BIT a, opcode $2C; R123. -/
  | bitAbs (a : Word)
  /-- BIT d,x, opcode $34; R123. -/
  | bitDirX (d : Byte)
  /-- BIT a,x, opcode $3C; R123. -/
  | bitAbsX (a : Word)
  /-- BIT #, opcode $89; R123. -/
  | bitImm (imm : Word)
  /-- CMP (d,x), opcode $C1; R124. -/
  | cmpDirXInd (d : Byte)
  /-- CMP d,s, opcode $C3; R124. -/
  | cmpSr (d : Byte)
  /-- CMP d, opcode $C5; R124. -/
  | cmpDir (d : Byte)
  /-- CMP [d], opcode $C7; R124. -/
  | cmpDirIndl (d : Byte)
  /-- CMP #, opcode $C9; R124. -/
  | cmpImm (imm : Word)
  /-- CMP a, opcode $CD; R124. -/
  | cmpAbs (a : Word)
  /-- CMP al, opcode $CF; R124. -/
  | cmpAbsl (al : Address)
  /-- CMP (d),y, opcode $D1; R124. -/
  | cmpDirIndY (d : Byte)
  /-- CMP (d), opcode $D2; R124. -/
  | cmpDirInd (d : Byte)
  /-- CMP (d,s),y, opcode $D3; R124. -/
  | cmpSrIndY (d : Byte)
  /-- CMP d,x, opcode $D5; R124. -/
  | cmpDirX (d : Byte)
  /-- CMP [d],y, opcode $D7; R124. -/
  | cmpDirIndlY (d : Byte)
  /-- CMP a,y, opcode $D9; R124. -/
  | cmpAbsY (a : Word)
  /-- CMP a,x, opcode $DD; R124. -/
  | cmpAbsX (a : Word)
  /-- CMP al,x, opcode $DF; R124. -/
  | cmpAbslX (al : Address)
  /-- CPX #, opcode $E0; R125. -/
  | cpxImm (imm : Word)
  /-- CPX d, opcode $E4; R125. -/
  | cpxDir (d : Byte)
  /-- CPX a, opcode $EC; R125. -/
  | cpxAbs (a : Word)
  /-- CPY #, opcode $C0; R126. -/
  | cpyImm (imm : Word)
  /-- CPY d, opcode $C4; R126. -/
  | cpyDir (d : Byte)
  /-- CPY a, opcode $CC; R126. -/
  | cpyAbs (a : Word)
  /-- DEC d, opcode $C6; R127. -/
  | decDir (d : Byte)
  /-- DEC a, opcode $CE; R127. -/
  | decAbs (a : Word)
  /-- DEC d,x, opcode $D6; R127. -/
  | decDirX (d : Byte)
  /-- DEC a,x, opcode $DE; R127. -/
  | decAbsX (a : Word)
  /-- EOR (d,x), opcode $41; R128. -/
  | eorDirXInd (d : Byte)
  /-- EOR d,s, opcode $43; R128. -/
  | eorSr (d : Byte)
  /-- EOR d, opcode $45; R128. -/
  | eorDir (d : Byte)
  /-- EOR [d], opcode $47; R128. -/
  | eorDirIndl (d : Byte)
  /-- EOR #, opcode $49; R128. -/
  | eorImm (imm : Word)
  /-- EOR a, opcode $4D; R128. -/
  | eorAbs (a : Word)
  /-- EOR al, opcode $4F; R128. -/
  | eorAbsl (al : Address)
  /-- EOR (d),y, opcode $51; R128. -/
  | eorDirIndY (d : Byte)
  /-- EOR (d), opcode $52; R128. -/
  | eorDirInd (d : Byte)
  /-- EOR (d,s),y, opcode $53; R128. -/
  | eorSrIndY (d : Byte)
  /-- EOR d,x, opcode $55; R128. -/
  | eorDirX (d : Byte)
  /-- EOR [d],y, opcode $57; R128. -/
  | eorDirIndlY (d : Byte)
  /-- EOR a,y, opcode $59; R128. -/
  | eorAbsY (a : Word)
  /-- EOR a,x, opcode $5D; R128. -/
  | eorAbsX (a : Word)
  /-- EOR al,x, opcode $5F; R128. -/
  | eorAbslX (al : Address)
  /-- INC d, opcode $E6; R129. -/
  | incDir (d : Byte)
  /-- INC a, opcode $EE; R129. -/
  | incAbs (a : Word)
  /-- INC d,x, opcode $F6; R129. -/
  | incDirX (d : Byte)
  /-- INC a,x, opcode $FE; R129. -/
  | incAbsX (a : Word)
  /-- LDA (d,x), opcode $A1; R130. -/
  | ldaDirXInd (d : Byte)
  /-- LDA d,s, opcode $A3; R130. -/
  | ldaSr (d : Byte)
  /-- LDA d, opcode $A5; R130. -/
  | ldaDir (d : Byte)
  /-- LDA [d], opcode $A7; R130. -/
  | ldaDirIndl (d : Byte)
  /-- LDA #, opcode $A9; R130. -/
  | ldaImm (imm : Word)
  /-- LDA a, opcode $AD; R130. -/
  | ldaAbs (a : Word)
  /-- LDA al, opcode $AF; R130. -/
  | ldaAbsl (al : Address)
  /-- LDA (d),y, opcode $B1; R130. -/
  | ldaDirIndY (d : Byte)
  /-- LDA (d), opcode $B2; R130. -/
  | ldaDirInd (d : Byte)
  /-- LDA (d,s),y, opcode $B3; R130. -/
  | ldaSrIndY (d : Byte)
  /-- LDA d,x, opcode $B5; R130. -/
  | ldaDirX (d : Byte)
  /-- LDA [d],y, opcode $B7; R130. -/
  | ldaDirIndlY (d : Byte)
  /-- LDA a,y, opcode $B9; R130. -/
  | ldaAbsY (a : Word)
  /-- LDA a,x, opcode $BD; R130. -/
  | ldaAbsX (a : Word)
  /-- LDA al,x, opcode $BF; R130. -/
  | ldaAbslX (al : Address)
  /-- LDX #, opcode $A2; R131. -/
  | ldxImm (imm : Word)
  /-- LDX d, opcode $A6; R131. -/
  | ldxDir (d : Byte)
  /-- LDX a, opcode $AE; R131. -/
  | ldxAbs (a : Word)
  /-- LDX d,y, opcode $B6; R131. -/
  | ldxDirY (d : Byte)
  /-- LDX a,y, opcode $BE; R131. -/
  | ldxAbsY (a : Word)
  /-- LDY #, opcode $A0; R132. -/
  | ldyImm (imm : Word)
  /-- LDY d, opcode $A4; R132. -/
  | ldyDir (d : Byte)
  /-- LDY a, opcode $AC; R132. -/
  | ldyAbs (a : Word)
  /-- LDY d,x, opcode $B4; R132. -/
  | ldyDirX (d : Byte)
  /-- LDY a,x, opcode $BC; R132. -/
  | ldyAbsX (a : Word)
  /-- LSR d, opcode $46; R133. -/
  | lsrDir (d : Byte)
  /-- LSR a, opcode $4E; R133. -/
  | lsrAbs (a : Word)
  /-- LSR d,x, opcode $56; R133. -/
  | lsrDirX (d : Byte)
  /-- LSR a,x, opcode $5E; R133. -/
  | lsrAbsX (a : Word)
  /-- ORA (d,x), opcode $01; R134. -/
  | oraDirXInd (d : Byte)
  /-- ORA d,s, opcode $03; R134. -/
  | oraSr (d : Byte)
  /-- ORA d, opcode $05; R134. -/
  | oraDir (d : Byte)
  /-- ORA [d], opcode $07; R134. -/
  | oraDirIndl (d : Byte)
  /-- ORA #, opcode $09; R134. -/
  | oraImm (imm : Word)
  /-- ORA a, opcode $0D; R134. -/
  | oraAbs (a : Word)
  /-- ORA al, opcode $0F; R134. -/
  | oraAbsl (al : Address)
  /-- ORA (d),y, opcode $11; R134. -/
  | oraDirIndY (d : Byte)
  /-- ORA (d), opcode $12; R134. -/
  | oraDirInd (d : Byte)
  /-- ORA (d,s),y, opcode $13; R134. -/
  | oraSrIndY (d : Byte)
  /-- ORA d,x, opcode $15; R134. -/
  | oraDirX (d : Byte)
  /-- ORA [d],y, opcode $17; R134. -/
  | oraDirIndlY (d : Byte)
  /-- ORA a,y, opcode $19; R134. -/
  | oraAbsY (a : Word)
  /-- ORA a,x, opcode $1D; R134. -/
  | oraAbsX (a : Word)
  /-- ORA al,x, opcode $1F; R134. -/
  | oraAbslX (al : Address)
  /-- ROL d, opcode $26; R135. -/
  | rolDir (d : Byte)
  /-- ROL a, opcode $2E; R135. -/
  | rolAbs (a : Word)
  /-- ROL d,x, opcode $36; R135. -/
  | rolDirX (d : Byte)
  /-- ROL a,x, opcode $3E; R135. -/
  | rolAbsX (a : Word)
  /-- ROR d, opcode $66; R136. -/
  | rorDir (d : Byte)
  /-- ROR a, opcode $6E; R136. -/
  | rorAbs (a : Word)
  /-- ROR d,x, opcode $76; R136. -/
  | rorDirX (d : Byte)
  /-- ROR a,x, opcode $7E; R136. -/
  | rorAbsX (a : Word)
  /-- SBC (d,x), opcode $E1; R137. -/
  | sbcDirXInd (d : Byte)
  /-- SBC d,s, opcode $E3; R137. -/
  | sbcSr (d : Byte)
  /-- SBC d, opcode $E5; R137. -/
  | sbcDir (d : Byte)
  /-- SBC [d], opcode $E7; R137. -/
  | sbcDirIndl (d : Byte)
  /-- SBC #, opcode $E9; R137. -/
  | sbcImm (imm : Word)
  /-- SBC a, opcode $ED; R137. -/
  | sbcAbs (a : Word)
  /-- SBC al, opcode $EF; R137. -/
  | sbcAbsl (al : Address)
  /-- SBC (d),y, opcode $F1; R137. -/
  | sbcDirIndY (d : Byte)
  /-- SBC (d), opcode $F2; R137. -/
  | sbcDirInd (d : Byte)
  /-- SBC (d,s),y, opcode $F3; R137. -/
  | sbcSrIndY (d : Byte)
  /-- SBC d,x, opcode $F5; R137. -/
  | sbcDirX (d : Byte)
  /-- SBC [d],y, opcode $F7; R137. -/
  | sbcDirIndlY (d : Byte)
  /-- SBC a,y, opcode $F9; R137. -/
  | sbcAbsY (a : Word)
  /-- SBC a,x, opcode $FD; R137. -/
  | sbcAbsX (a : Word)
  /-- SBC al,x, opcode $FF; R137. -/
  | sbcAbslX (al : Address)
  /-- STA (d,x), opcode $81; R138. -/
  | staDirXInd (d : Byte)
  /-- STA d,s, opcode $83; R138. -/
  | staSr (d : Byte)
  /-- STA d, opcode $85; R138. -/
  | staDir (d : Byte)
  /-- STA [d], opcode $87; R138. -/
  | staDirIndl (d : Byte)
  /-- STA a, opcode $8D; R138. -/
  | staAbs (a : Word)
  /-- STA al, opcode $8F; R138. -/
  | staAbsl (al : Address)
  /-- STA (d),y, opcode $91; R138. -/
  | staDirIndY (d : Byte)
  /-- STA (d), opcode $92; R138. -/
  | staDirInd (d : Byte)
  /-- STA (d,s),y, opcode $93; R138. -/
  | staSrIndY (d : Byte)
  /-- STA d,x, opcode $95; R138. -/
  | staDirX (d : Byte)
  /-- STA [d],y, opcode $97; R138. -/
  | staDirIndlY (d : Byte)
  /-- STA a,y, opcode $99; R138. -/
  | staAbsY (a : Word)
  /-- STA a,x, opcode $9D; R138. -/
  | staAbsX (a : Word)
  /-- STA al,x, opcode $9F; R138. -/
  | staAbslX (al : Address)
  /-- STX d, opcode $86; R139. -/
  | stxDir (d : Byte)
  /-- STX a, opcode $8E; R139. -/
  | stxAbs (a : Word)
  /-- STX d,y, opcode $96; R139. -/
  | stxDirY (d : Byte)
  /-- STY d, opcode $84; R140. -/
  | styDir (d : Byte)
  /-- STY a, opcode $8C; R140. -/
  | styAbs (a : Word)
  /-- STY d,x, opcode $94; R140. -/
  | styDirX (d : Byte)
  /-- STZ d, opcode $64; R141. -/
  | stzDir (d : Byte)
  /-- STZ d,x, opcode $74; R141. -/
  | stzDirX (d : Byte)
  /-- STZ a, opcode $9C; R141. -/
  | stzAbs (a : Word)
  /-- STZ a,x, opcode $9E; R141. -/
  | stzAbsX (a : Word)
  /-- TRB d, opcode $14; R142. -/
  | trbDir (d : Byte)
  /-- TRB a, opcode $1C; R142. -/
  | trbAbs (a : Word)
  /-- TSB d, opcode $04; R143. -/
  | tsbDir (d : Byte)
  /-- TSB a, opcode $0C; R143. -/
  | tsbAbs (a : Word)
  /-- BCC r, opcode $90; R151. -/
  | bcc (r : Byte)
  /-- BCS r, opcode $B0; R152. -/
  | bcs (r : Byte)
  /-- BEQ r, opcode $F0; R153. -/
  | beq (r : Byte)
  /-- BMI r, opcode $30; R154. -/
  | bmi (r : Byte)
  /-- BNE r, opcode $D0; R155. -/
  | bne (r : Byte)
  /-- BPL r, opcode $10; R156. -/
  | bpl (r : Byte)
  /-- BRA r, opcode $80; R157. -/
  | bra (r : Byte)
  /-- BVC r, opcode $50; R158. -/
  | bvc (r : Byte)
  /-- BVS r, opcode $70; R159. -/
  | bvs (r : Byte)
  /-- PEA #, opcode $F4; R180. -/
  | pea (imm : Word)
  /-- PEI (d), opcode $D4; R181. -/
  | pei (d : Byte)
  /-- PER r, opcode $62; R182. -/
  | per (r : Word)
  /-- BRK sig, opcode $00; R220. -/
  | brk (sig : Byte)
  /-- BRL r, opcode $82; R221. -/
  | brl (r : Word)
  /-- COP sig, opcode $02; R222. -/
  | cop (sig : Byte)
  /-- JML [a], opcode $DC; R223. -/
  | jml (a : Word)
  /-- JMP a, opcode $4C; R224. -/
  | jmpAbs (a : Word)
  /-- JMP (a), opcode $6C; R225. -/
  | jmpAbsInd (a : Word)
  /-- JMP (a,x), opcode $7C; R226. -/
  | jmpAbsXInd (a : Word)
  /-- JMP al, opcode $5C; R227. -/
  | jmpAbsl (al : Address)
  /-- JSL al, opcode $22; R228. -/
  | jsl (al : Address)
  /-- JSR a, opcode $20; R229. -/
  | jsrAbs (a : Word)
  /-- JSR (a,x), opcode $FC; R230. -/
  | jsrAbsXInd (a : Word)
  /-- MVN src,dst, opcode $54; R231. -/
  | mvn (dst src : Byte)
  /-- MVP src,dst, opcode $44; R232. -/
  | mvp (dst src : Byte)
  /-- REP #, opcode $C2; R233. -/
  | rep (imm : Byte)
  /-- SEP #, opcode $E2; R237. -/
  | sep (imm : Byte)
  /-- WDM sig, opcode $42; R82. -/
  | wdm (sig : Byte)
  /-- ASL A, opcode $0A; R122. -/
  | aslAcc
  /-- DEC A, opcode $3A; R127. -/
  | decAcc
  /-- INC A, opcode $1A; R129. -/
  | incAcc
  /-- LSR A, opcode $4A; R133. -/
  | lsrAcc
  /-- ROL A, opcode $2A; R135. -/
  | rolAcc
  /-- ROR A, opcode $6A; R136. -/
  | rorAcc
  /-- CLC, opcode $18; R160. -/
  | clc
  /-- CLD, opcode $D8; R161. -/
  | cld
  /-- CLI, opcode $58; R162. -/
  | cli
  /-- CLV, opcode $B8; R163. -/
  | clv
  /-- DEX, opcode $CA; R164. -/
  | dex
  /-- DEY, opcode $88; R165. -/
  | dey
  /-- INX, opcode $E8; R166. -/
  | inx
  /-- INY, opcode $C8; R167. -/
  | iny
  /-- NOP, opcode $EA; R168. -/
  | nop
  /-- SEC, opcode $38; R169. -/
  | sec
  /-- SED, opcode $F8; R170. -/
  | sed
  /-- SEI, opcode $78; R171. -/
  | sei
  /-- PHA, opcode $48; R183. -/
  | pha
  /-- PHB, opcode $8B; R184. -/
  | phb
  /-- PHD, opcode $0B; R185. -/
  | phd
  /-- PHK, opcode $4B; R186. -/
  | phk
  /-- PHP, opcode $08; R187. -/
  | php
  /-- PHX, opcode $DA; R188. -/
  | phx
  /-- PHY, opcode $5A; R189. -/
  | phy
  /-- PLA, opcode $68; R190. -/
  | pla
  /-- PLB, opcode $AB; R191. -/
  | plb
  /-- PLD, opcode $2B; R192. -/
  | pld
  /-- PLP, opcode $28; R193. -/
  | plp
  /-- PLX, opcode $FA; R194. -/
  | plx
  /-- PLY, opcode $7A; R195. -/
  | ply
  /-- TAX, opcode $AA; R200. -/
  | tax
  /-- TAY, opcode $A8; R201. -/
  | tay
  /-- TCD, opcode $5B; R202. -/
  | tcd
  /-- TCS, opcode $1B; R203. -/
  | tcs
  /-- TDC, opcode $7B; R204. -/
  | tdc
  /-- TSC, opcode $3B; R205. -/
  | tsc
  /-- TSX, opcode $BA; R206. -/
  | tsx
  /-- TXA, opcode $8A; R207. -/
  | txa
  /-- TXS, opcode $9A; R208. -/
  | txs
  /-- TXY, opcode $9B; R209. -/
  | txy
  /-- TYA, opcode $98; R210. -/
  | tya
  /-- TYX, opcode $BB; R211. -/
  | tyx
  /-- XCE, opcode $FB; R212. -/
  | xce
  /-- RTI, opcode $40; R234. -/
  | rti
  /-- RTL, opcode $6B; R235. -/
  | rtl
  /-- RTS, opcode $60; R236. -/
  | rts
  /-- STP, opcode $DB; R238. -/
  | stp
  /-- WAI, opcode $CB; R239. -/
  | wai
  /-- XBA, opcode $EB; R240. -/
  | xba
  deriving DecidableEq, Repr

end Sys2Proof
end

