-- ==== Sys2Proof/WellFormed.lean ====
section
/-! DEFINITION. Well-formed instructions: the operand of an immediate instruction fits the width in force
(30_encoding.md R74). No other operand value is reserved (R83). -/

namespace Sys2Proof

/-- The selector and the operand of an immediate instruction whose width follows M or X
(30_encoding.md R74); `none` for every other instruction. -/
def Instr.immediate : Instr → Option (Selector × Word)
  | .oraImm imm => some (.m, imm)
  | .andImm imm => some (.m, imm)
  | .eorImm imm => some (.m, imm)
  | .adcImm imm => some (.m, imm)
  | .bitImm imm => some (.m, imm)
  | .ldyImm imm => some (.x, imm)
  | .ldxImm imm => some (.x, imm)
  | .ldaImm imm => some (.m, imm)
  | .cpyImm imm => some (.x, imm)
  | .cmpImm imm => some (.m, imm)
  | .cpxImm imm => some (.x, imm)
  | .sbcImm imm => some (.m, imm)
  | _ => none

/-- Well-formed under `m8` and `x8`: an immediate read at 8 bits is below $100 (30_encoding.md R74). -/
def Instr.wellFormed (m8 x8 : Bool) (i : Instr) : Bool :=
  match i.immediate with
  | some (.m, imm) => !m8 || decide (imm.toNat < 256)
  | some (.x, imm) => !x8 || decide (imm.toNat < 256)
  | none => true

end Sys2Proof
end

