-- ==== Sys2Proof/Decode.lean ====
section
/-! DEFINITION. The decoder and the encoder: 30_encoding.md R70 to R83, opcode_table.json. The opcode byte
alone selects the instruction; only the length of an immediate follows m8 and x8 (R74, R83). -/

namespace Sys2Proof

/-- The low byte of a word. -/
def loByte (v : Word) : Byte := v.extractLsb' 0 8

/-- The high byte of a word. -/
def hiByte (v : Word) : Byte := v.extractLsb' 8 8

/-- A word from its bytes, low byte first as in memory (20_memory.md R53, 30_encoding.md R73). -/
def word16 (lo hi : Byte) : Word := hi ++ lo

/-- A 24-bit value from its bytes, lowest address first (20_memory.md R53, 30_encoding.md R73). -/
def long24 (lo hi bank : Byte) : Address := bank ++ word16 lo hi

/-- The bank byte of an address. -/
def bankOf (a : Address) : Byte := a.extractLsb' 16 8

/-- The offset of an address in its bank. -/
def offsetOf (a : Address) : Word := a.extractLsb' 0 16

/-- The operand fields of an instruction as its encoding lays them out (30_encoding.md R71). -/
inductive Operand
  /-- No operand byte: formats impl, acc, stack. -/
  | none
  /-- One byte: direct, stack-relative, rel8, imm8, signature. -/
  | byte (b : Byte)
  /-- Two bytes: absolute, rel16, imm16. -/
  | word (v : Word)
  /-- Three bytes: absolute long. -/
  | long (al : Address)
  /-- imm_m or imm_x: one or two bytes by the selector (R74). -/
  | imm (sel : Selector) (v : Word)
  /-- Block move: the destination bank is the first byte, the source bank the second (R76). -/
  | banks (dst src : Byte)
  deriving DecidableEq, Repr

/-- Whether a selector chooses 8 bits, given `m8` and `x8` (00_scope.md R8). -/
def Selector.is8 (m8 x8 : Bool) : Selector → Bool
  | .m => m8
  | .x => x8

/-- The operand bytes in the order they follow the opcode (30_encoding.md R71, R73, R74, R76). -/
def Operand.bytes (m8 x8 : Bool) : Operand → List Byte
  | .none => []
  | .byte b => [b]
  | .word v => [loByte v, hiByte v]
  | .long al => [loByte (offsetOf al), hiByte (offsetOf al), bankOf al]
  | .imm sel v => if sel.is8 m8 x8 then [loByte v] else [loByte v, hiByte v]
  | .banks dst src => [dst, src]

/-- A row of the opcode map: how the operand bytes make the instruction (30_encoding.md R71, R78). -/
inductive Row
  | none (i : Instr)
  | byte (make : Byte → Instr)
  | word (make : Word → Instr)
  | long (make : Address → Instr)
  | immM (make : Word → Instr)
  | immX (make : Word → Instr)
  | banks (make : Byte → Byte → Instr)

/-- The number of operand bytes of a row: its length in 30_encoding.md R71, R72 less the opcode byte. -/
def Row.size (m8 x8 : Bool) : Row → Nat
  | .none _ => 0
  | .byte _ => 1
  | .word _ => 2
  | .long _ => 3
  | .immM _ => if m8 then 1 else 2
  | .immX _ => if x8 then 1 else 2
  | .banks _ => 2

/-- The instruction a row makes of the three bytes after its opcode; bytes past its length are not used. -/
def Row.build (m8 x8 : Bool) (b1 b2 b3 : Byte) : Row → Instr
  | .none i => i
  | .byte make => make b1
  | .word make => make (word16 b1 b2)
  | .long make => make (long24 b1 b2 b3)
  | .immM make => make (if m8 then b1.setWidth 16 else word16 b1 b2)
  | .immX make => make (if x8 then b1.setWidth 16 else word16 b1 b2)
  | .banks make => make b1 b2

/-- Opcodes $00 to $0F (30_encoding.md R78). -/
def opcodeRow0 : List Row := [
  .byte .brk, .byte .oraDirXInd, .byte .cop, .byte .oraSr,
  .byte .tsbDir, .byte .oraDir, .byte .aslDir, .byte .oraDirIndl,
  .none .php, .immM .oraImm, .none .aslAcc, .none .phd,
  .word .tsbAbs, .word .oraAbs, .word .aslAbs, .long .oraAbsl]

/-- Opcodes $10 to $1F (30_encoding.md R78). -/
def opcodeRow1 : List Row := [
  .byte .bpl, .byte .oraDirIndY, .byte .oraDirInd, .byte .oraSrIndY,
  .byte .trbDir, .byte .oraDirX, .byte .aslDirX, .byte .oraDirIndlY,
  .none .clc, .word .oraAbsY, .none .incAcc, .none .tcs,
  .word .trbAbs, .word .oraAbsX, .word .aslAbsX, .long .oraAbslX]

/-- Opcodes $20 to $2F (30_encoding.md R78). -/
def opcodeRow2 : List Row := [
  .word .jsrAbs, .byte .andDirXInd, .long .jsl, .byte .andSr,
  .byte .bitDir, .byte .andDir, .byte .rolDir, .byte .andDirIndl,
  .none .plp, .immM .andImm, .none .rolAcc, .none .pld,
  .word .bitAbs, .word .andAbs, .word .rolAbs, .long .andAbsl]

/-- Opcodes $30 to $3F (30_encoding.md R78). -/
def opcodeRow3 : List Row := [
  .byte .bmi, .byte .andDirIndY, .byte .andDirInd, .byte .andSrIndY,
  .byte .bitDirX, .byte .andDirX, .byte .rolDirX, .byte .andDirIndlY,
  .none .sec, .word .andAbsY, .none .decAcc, .none .tsc,
  .word .bitAbsX, .word .andAbsX, .word .rolAbsX, .long .andAbslX]

/-- Opcodes $40 to $4F (30_encoding.md R78). -/
def opcodeRow4 : List Row := [
  .none .rti, .byte .eorDirXInd, .byte .wdm, .byte .eorSr,
  .banks .mvp, .byte .eorDir, .byte .lsrDir, .byte .eorDirIndl,
  .none .pha, .immM .eorImm, .none .lsrAcc, .none .phk,
  .word .jmpAbs, .word .eorAbs, .word .lsrAbs, .long .eorAbsl]

/-- Opcodes $50 to $5F (30_encoding.md R78). -/
def opcodeRow5 : List Row := [
  .byte .bvc, .byte .eorDirIndY, .byte .eorDirInd, .byte .eorSrIndY,
  .banks .mvn, .byte .eorDirX, .byte .lsrDirX, .byte .eorDirIndlY,
  .none .cli, .word .eorAbsY, .none .phy, .none .tcd,
  .long .jmpAbsl, .word .eorAbsX, .word .lsrAbsX, .long .eorAbslX]

/-- Opcodes $60 to $6F (30_encoding.md R78). -/
def opcodeRow6 : List Row := [
  .none .rts, .byte .adcDirXInd, .word .per, .byte .adcSr,
  .byte .stzDir, .byte .adcDir, .byte .rorDir, .byte .adcDirIndl,
  .none .pla, .immM .adcImm, .none .rorAcc, .none .rtl,
  .word .jmpAbsInd, .word .adcAbs, .word .rorAbs, .long .adcAbsl]

/-- Opcodes $70 to $7F (30_encoding.md R78). -/
def opcodeRow7 : List Row := [
  .byte .bvs, .byte .adcDirIndY, .byte .adcDirInd, .byte .adcSrIndY,
  .byte .stzDirX, .byte .adcDirX, .byte .rorDirX, .byte .adcDirIndlY,
  .none .sei, .word .adcAbsY, .none .ply, .none .tdc,
  .word .jmpAbsXInd, .word .adcAbsX, .word .rorAbsX, .long .adcAbslX]

/-- Opcodes $80 to $8F (30_encoding.md R78). -/
def opcodeRow8 : List Row := [
  .byte .bra, .byte .staDirXInd, .word .brl, .byte .staSr,
  .byte .styDir, .byte .staDir, .byte .stxDir, .byte .staDirIndl,
  .none .dey, .immM .bitImm, .none .txa, .none .phb,
  .word .styAbs, .word .staAbs, .word .stxAbs, .long .staAbsl]

/-- Opcodes $90 to $9F (30_encoding.md R78). -/
def opcodeRow9 : List Row := [
  .byte .bcc, .byte .staDirIndY, .byte .staDirInd, .byte .staSrIndY,
  .byte .styDirX, .byte .staDirX, .byte .stxDirY, .byte .staDirIndlY,
  .none .tya, .word .staAbsY, .none .txs, .none .txy,
  .word .stzAbs, .word .staAbsX, .word .stzAbsX, .long .staAbslX]

/-- Opcodes $A0 to $AF (30_encoding.md R78). -/
def opcodeRowA : List Row := [
  .immX .ldyImm, .byte .ldaDirXInd, .immX .ldxImm, .byte .ldaSr,
  .byte .ldyDir, .byte .ldaDir, .byte .ldxDir, .byte .ldaDirIndl,
  .none .tay, .immM .ldaImm, .none .tax, .none .plb,
  .word .ldyAbs, .word .ldaAbs, .word .ldxAbs, .long .ldaAbsl]

/-- Opcodes $B0 to $BF (30_encoding.md R78). -/
def opcodeRowB : List Row := [
  .byte .bcs, .byte .ldaDirIndY, .byte .ldaDirInd, .byte .ldaSrIndY,
  .byte .ldyDirX, .byte .ldaDirX, .byte .ldxDirY, .byte .ldaDirIndlY,
  .none .clv, .word .ldaAbsY, .none .tsx, .none .tyx,
  .word .ldyAbsX, .word .ldaAbsX, .word .ldxAbsY, .long .ldaAbslX]

/-- Opcodes $C0 to $CF (30_encoding.md R78). -/
def opcodeRowC : List Row := [
  .immX .cpyImm, .byte .cmpDirXInd, .byte .rep, .byte .cmpSr,
  .byte .cpyDir, .byte .cmpDir, .byte .decDir, .byte .cmpDirIndl,
  .none .iny, .immM .cmpImm, .none .dex, .none .wai,
  .word .cpyAbs, .word .cmpAbs, .word .decAbs, .long .cmpAbsl]

/-- Opcodes $D0 to $DF (30_encoding.md R78). -/
def opcodeRowD : List Row := [
  .byte .bne, .byte .cmpDirIndY, .byte .cmpDirInd, .byte .cmpSrIndY,
  .byte .pei, .byte .cmpDirX, .byte .decDirX, .byte .cmpDirIndlY,
  .none .cld, .word .cmpAbsY, .none .phx, .none .stp,
  .word .jml, .word .cmpAbsX, .word .decAbsX, .long .cmpAbslX]

/-- Opcodes $E0 to $EF (30_encoding.md R78). -/
def opcodeRowE : List Row := [
  .immX .cpxImm, .byte .sbcDirXInd, .byte .sep, .byte .sbcSr,
  .byte .cpxDir, .byte .sbcDir, .byte .incDir, .byte .sbcDirIndl,
  .none .inx, .immM .sbcImm, .none .nop, .none .xba,
  .word .cpxAbs, .word .sbcAbs, .word .incAbs, .long .sbcAbsl]

/-- Opcodes $F0 to $FF (30_encoding.md R78). -/
def opcodeRowF : List Row := [
  .byte .beq, .byte .sbcDirIndY, .byte .sbcDirInd, .byte .sbcSrIndY,
  .word .pea, .byte .sbcDirX, .byte .incDirX, .byte .sbcDirIndlY,
  .none .sed, .word .sbcAbsY, .none .plx, .none .xce,
  .word .jsrAbsXInd, .word .sbcAbsX, .word .incAbsX, .long .sbcAbslX]

/-- The complete opcode map, in opcode order (30_encoding.md R78, R81, R82). -/
def opcodeMap : List Row :=
  opcodeRow0 ++ opcodeRow1 ++ opcodeRow2 ++ opcodeRow3 ++ opcodeRow4 ++ opcodeRow5 ++ opcodeRow6 ++ opcodeRow7 ++
  opcodeRow8 ++ opcodeRow9 ++ opcodeRowA ++ opcodeRowB ++ opcodeRowC ++ opcodeRowD ++ opcodeRowE ++ opcodeRowF

/-- The row of an opcode byte. The map has 256 rows, so the default is never taken (30_encoding.md R83). -/
def opcodeRow (op : Byte) : Row := opcodeMap.getD op.toNat (.none .nop)

/-- The instruction that starts with four given bytes: total, since every opcode value has a row and no
operand value is reserved (30_encoding.md R83). -/
def decodeBytes (m8 x8 : Bool) (b0 b1 b2 b3 : Byte) : Instr := (opcodeRow b0).build m8 x8 b1 b2 b3

/-- Why a list of bytes is no instruction. -/
inductive DecodeError
  /-- No byte at all. -/
  | noOpcode
  /-- The bytes end before the operand does. -/
  | truncated
  deriving DecidableEq, Repr

/-- Decode the instruction at the head of a list of bytes and give the bytes after it
(30_encoding.md R70 to R74). -/
def decode (m8 x8 : Bool) : List Byte → Except DecodeError (Instr × List Byte)
  | [] => .error .noOpcode
  | op :: rest =>
    if rest.length < (opcodeRow op).size m8 x8 then .error .truncated
    else .ok ((opcodeRow op).build m8 x8 (rest.getD 0 0) (rest.getD 1 0) (rest.getD 2 0),
      rest.drop ((opcodeRow op).size m8 x8))

/-- The opcode byte and the operand fields of every instruction (30_encoding.md R71, R78, R81, R82). -/
def Instr.assemble : Instr → Byte × Operand
  | .brk sig => (0x00, .byte sig)
  | .oraDirXInd d => (0x01, .byte d)
  | .cop sig => (0x02, .byte sig)
  | .oraSr d => (0x03, .byte d)
  | .tsbDir d => (0x04, .byte d)
  | .oraDir d => (0x05, .byte d)
  | .aslDir d => (0x06, .byte d)
  | .oraDirIndl d => (0x07, .byte d)
  | .php => (0x08, .none)
  | .oraImm imm => (0x09, .imm .m imm)
  | .aslAcc => (0x0A, .none)
  | .phd => (0x0B, .none)
  | .tsbAbs a => (0x0C, .word a)
  | .oraAbs a => (0x0D, .word a)
  | .aslAbs a => (0x0E, .word a)
  | .oraAbsl al => (0x0F, .long al)
  | .bpl r => (0x10, .byte r)
  | .oraDirIndY d => (0x11, .byte d)
  | .oraDirInd d => (0x12, .byte d)
  | .oraSrIndY d => (0x13, .byte d)
  | .trbDir d => (0x14, .byte d)
  | .oraDirX d => (0x15, .byte d)
  | .aslDirX d => (0x16, .byte d)
  | .oraDirIndlY d => (0x17, .byte d)
  | .clc => (0x18, .none)
  | .oraAbsY a => (0x19, .word a)
  | .incAcc => (0x1A, .none)
  | .tcs => (0x1B, .none)
  | .trbAbs a => (0x1C, .word a)
  | .oraAbsX a => (0x1D, .word a)
  | .aslAbsX a => (0x1E, .word a)
  | .oraAbslX al => (0x1F, .long al)
  | .jsrAbs a => (0x20, .word a)
  | .andDirXInd d => (0x21, .byte d)
  | .jsl al => (0x22, .long al)
  | .andSr d => (0x23, .byte d)
  | .bitDir d => (0x24, .byte d)
  | .andDir d => (0x25, .byte d)
  | .rolDir d => (0x26, .byte d)
  | .andDirIndl d => (0x27, .byte d)
  | .plp => (0x28, .none)
  | .andImm imm => (0x29, .imm .m imm)
  | .rolAcc => (0x2A, .none)
  | .pld => (0x2B, .none)
  | .bitAbs a => (0x2C, .word a)
  | .andAbs a => (0x2D, .word a)
  | .rolAbs a => (0x2E, .word a)
  | .andAbsl al => (0x2F, .long al)
  | .bmi r => (0x30, .byte r)
  | .andDirIndY d => (0x31, .byte d)
  | .andDirInd d => (0x32, .byte d)
  | .andSrIndY d => (0x33, .byte d)
  | .bitDirX d => (0x34, .byte d)
  | .andDirX d => (0x35, .byte d)
  | .rolDirX d => (0x36, .byte d)
  | .andDirIndlY d => (0x37, .byte d)
  | .sec => (0x38, .none)
  | .andAbsY a => (0x39, .word a)
  | .decAcc => (0x3A, .none)
  | .tsc => (0x3B, .none)
  | .bitAbsX a => (0x3C, .word a)
  | .andAbsX a => (0x3D, .word a)
  | .rolAbsX a => (0x3E, .word a)
  | .andAbslX al => (0x3F, .long al)
  | .rti => (0x40, .none)
  | .eorDirXInd d => (0x41, .byte d)
  | .wdm sig => (0x42, .byte sig)
  | .eorSr d => (0x43, .byte d)
  | .mvp dst src => (0x44, .banks dst src)
  | .eorDir d => (0x45, .byte d)
  | .lsrDir d => (0x46, .byte d)
  | .eorDirIndl d => (0x47, .byte d)
  | .pha => (0x48, .none)
  | .eorImm imm => (0x49, .imm .m imm)
  | .lsrAcc => (0x4A, .none)
  | .phk => (0x4B, .none)
  | .jmpAbs a => (0x4C, .word a)
  | .eorAbs a => (0x4D, .word a)
  | .lsrAbs a => (0x4E, .word a)
  | .eorAbsl al => (0x4F, .long al)
  | .bvc r => (0x50, .byte r)
  | .eorDirIndY d => (0x51, .byte d)
  | .eorDirInd d => (0x52, .byte d)
  | .eorSrIndY d => (0x53, .byte d)
  | .mvn dst src => (0x54, .banks dst src)
  | .eorDirX d => (0x55, .byte d)
  | .lsrDirX d => (0x56, .byte d)
  | .eorDirIndlY d => (0x57, .byte d)
  | .cli => (0x58, .none)
  | .eorAbsY a => (0x59, .word a)
  | .phy => (0x5A, .none)
  | .tcd => (0x5B, .none)
  | .jmpAbsl al => (0x5C, .long al)
  | .eorAbsX a => (0x5D, .word a)
  | .lsrAbsX a => (0x5E, .word a)
  | .eorAbslX al => (0x5F, .long al)
  | .rts => (0x60, .none)
  | .adcDirXInd d => (0x61, .byte d)
  | .per r => (0x62, .word r)
  | .adcSr d => (0x63, .byte d)
  | .stzDir d => (0x64, .byte d)
  | .adcDir d => (0x65, .byte d)
  | .rorDir d => (0x66, .byte d)
  | .adcDirIndl d => (0x67, .byte d)
  | .pla => (0x68, .none)
  | .adcImm imm => (0x69, .imm .m imm)
  | .rorAcc => (0x6A, .none)
  | .rtl => (0x6B, .none)
  | .jmpAbsInd a => (0x6C, .word a)
  | .adcAbs a => (0x6D, .word a)
  | .rorAbs a => (0x6E, .word a)
  | .adcAbsl al => (0x6F, .long al)
  | .bvs r => (0x70, .byte r)
  | .adcDirIndY d => (0x71, .byte d)
  | .adcDirInd d => (0x72, .byte d)
  | .adcSrIndY d => (0x73, .byte d)
  | .stzDirX d => (0x74, .byte d)
  | .adcDirX d => (0x75, .byte d)
  | .rorDirX d => (0x76, .byte d)
  | .adcDirIndlY d => (0x77, .byte d)
  | .sei => (0x78, .none)
  | .adcAbsY a => (0x79, .word a)
  | .ply => (0x7A, .none)
  | .tdc => (0x7B, .none)
  | .jmpAbsXInd a => (0x7C, .word a)
  | .adcAbsX a => (0x7D, .word a)
  | .rorAbsX a => (0x7E, .word a)
  | .adcAbslX al => (0x7F, .long al)
  | .bra r => (0x80, .byte r)
  | .staDirXInd d => (0x81, .byte d)
  | .brl r => (0x82, .word r)
  | .staSr d => (0x83, .byte d)
  | .styDir d => (0x84, .byte d)
  | .staDir d => (0x85, .byte d)
  | .stxDir d => (0x86, .byte d)
  | .staDirIndl d => (0x87, .byte d)
  | .dey => (0x88, .none)
  | .bitImm imm => (0x89, .imm .m imm)
  | .txa => (0x8A, .none)
  | .phb => (0x8B, .none)
  | .styAbs a => (0x8C, .word a)
  | .staAbs a => (0x8D, .word a)
  | .stxAbs a => (0x8E, .word a)
  | .staAbsl al => (0x8F, .long al)
  | .bcc r => (0x90, .byte r)
  | .staDirIndY d => (0x91, .byte d)
  | .staDirInd d => (0x92, .byte d)
  | .staSrIndY d => (0x93, .byte d)
  | .styDirX d => (0x94, .byte d)
  | .staDirX d => (0x95, .byte d)
  | .stxDirY d => (0x96, .byte d)
  | .staDirIndlY d => (0x97, .byte d)
  | .tya => (0x98, .none)
  | .staAbsY a => (0x99, .word a)
  | .txs => (0x9A, .none)
  | .txy => (0x9B, .none)
  | .stzAbs a => (0x9C, .word a)
  | .staAbsX a => (0x9D, .word a)
  | .stzAbsX a => (0x9E, .word a)
  | .staAbslX al => (0x9F, .long al)
  | .ldyImm imm => (0xA0, .imm .x imm)
  | .ldaDirXInd d => (0xA1, .byte d)
  | .ldxImm imm => (0xA2, .imm .x imm)
  | .ldaSr d => (0xA3, .byte d)
  | .ldyDir d => (0xA4, .byte d)
  | .ldaDir d => (0xA5, .byte d)
  | .ldxDir d => (0xA6, .byte d)
  | .ldaDirIndl d => (0xA7, .byte d)
  | .tay => (0xA8, .none)
  | .ldaImm imm => (0xA9, .imm .m imm)
  | .tax => (0xAA, .none)
  | .plb => (0xAB, .none)
  | .ldyAbs a => (0xAC, .word a)
  | .ldaAbs a => (0xAD, .word a)
  | .ldxAbs a => (0xAE, .word a)
  | .ldaAbsl al => (0xAF, .long al)
  | .bcs r => (0xB0, .byte r)
  | .ldaDirIndY d => (0xB1, .byte d)
  | .ldaDirInd d => (0xB2, .byte d)
  | .ldaSrIndY d => (0xB3, .byte d)
  | .ldyDirX d => (0xB4, .byte d)
  | .ldaDirX d => (0xB5, .byte d)
  | .ldxDirY d => (0xB6, .byte d)
  | .ldaDirIndlY d => (0xB7, .byte d)
  | .clv => (0xB8, .none)
  | .ldaAbsY a => (0xB9, .word a)
  | .tsx => (0xBA, .none)
  | .tyx => (0xBB, .none)
  | .ldyAbsX a => (0xBC, .word a)
  | .ldaAbsX a => (0xBD, .word a)
  | .ldxAbsY a => (0xBE, .word a)
  | .ldaAbslX al => (0xBF, .long al)
  | .cpyImm imm => (0xC0, .imm .x imm)
  | .cmpDirXInd d => (0xC1, .byte d)
  | .rep imm => (0xC2, .byte imm)
  | .cmpSr d => (0xC3, .byte d)
  | .cpyDir d => (0xC4, .byte d)
  | .cmpDir d => (0xC5, .byte d)
  | .decDir d => (0xC6, .byte d)
  | .cmpDirIndl d => (0xC7, .byte d)
  | .iny => (0xC8, .none)
  | .cmpImm imm => (0xC9, .imm .m imm)
  | .dex => (0xCA, .none)
  | .wai => (0xCB, .none)
  | .cpyAbs a => (0xCC, .word a)
  | .cmpAbs a => (0xCD, .word a)
  | .decAbs a => (0xCE, .word a)
  | .cmpAbsl al => (0xCF, .long al)
  | .bne r => (0xD0, .byte r)
  | .cmpDirIndY d => (0xD1, .byte d)
  | .cmpDirInd d => (0xD2, .byte d)
  | .cmpSrIndY d => (0xD3, .byte d)
  | .pei d => (0xD4, .byte d)
  | .cmpDirX d => (0xD5, .byte d)
  | .decDirX d => (0xD6, .byte d)
  | .cmpDirIndlY d => (0xD7, .byte d)
  | .cld => (0xD8, .none)
  | .cmpAbsY a => (0xD9, .word a)
  | .phx => (0xDA, .none)
  | .stp => (0xDB, .none)
  | .jml a => (0xDC, .word a)
  | .cmpAbsX a => (0xDD, .word a)
  | .decAbsX a => (0xDE, .word a)
  | .cmpAbslX al => (0xDF, .long al)
  | .cpxImm imm => (0xE0, .imm .x imm)
  | .sbcDirXInd d => (0xE1, .byte d)
  | .sep imm => (0xE2, .byte imm)
  | .sbcSr d => (0xE3, .byte d)
  | .cpxDir d => (0xE4, .byte d)
  | .sbcDir d => (0xE5, .byte d)
  | .incDir d => (0xE6, .byte d)
  | .sbcDirIndl d => (0xE7, .byte d)
  | .inx => (0xE8, .none)
  | .sbcImm imm => (0xE9, .imm .m imm)
  | .nop => (0xEA, .none)
  | .xba => (0xEB, .none)
  | .cpxAbs a => (0xEC, .word a)
  | .sbcAbs a => (0xED, .word a)
  | .incAbs a => (0xEE, .word a)
  | .sbcAbsl al => (0xEF, .long al)
  | .beq r => (0xF0, .byte r)
  | .sbcDirIndY d => (0xF1, .byte d)
  | .sbcDirInd d => (0xF2, .byte d)
  | .sbcSrIndY d => (0xF3, .byte d)
  | .pea imm => (0xF4, .word imm)
  | .sbcDirX d => (0xF5, .byte d)
  | .incDirX d => (0xF6, .byte d)
  | .sbcDirIndlY d => (0xF7, .byte d)
  | .sed => (0xF8, .none)
  | .sbcAbsY a => (0xF9, .word a)
  | .plx => (0xFA, .none)
  | .xce => (0xFB, .none)
  | .jsrAbsXInd a => (0xFC, .word a)
  | .sbcAbsX a => (0xFD, .word a)
  | .incAbsX a => (0xFE, .word a)
  | .sbcAbslX al => (0xFF, .long al)

/-- The bytes of an instruction under `m8` and `x8` (30_encoding.md R70 to R74). -/
def encode (m8 x8 : Bool) (i : Instr) : List Byte := i.assemble.1 :: i.assemble.2.bytes m8 x8

/-- The instruction the decoder reads from `nbits` bits numbered as opcode_table.json numbers them: byte `k`
is bits `8k+7` to `8k`, and every bit from `nbits` up is 0. Bytes are laid out first byte lowest, and m8 and x8
hold, as right after reset (10_state.md R42; log 19). -/
def decodeTableWord (nbits w : Nat) : Option Instr :=
  let v := w % 2 ^ nbits
  let byteAt (k : Nat) : Byte := BitVec.ofNat 8 (v / 2 ^ (8 * k))
  match decode true true [byteAt 0, byteAt 1, byteAt 2, byteAt 3] with
  | .ok (i, _) => some i
  | .error _ => none

end Sys2Proof
end

