-- ==== Sys2Proof/Machine/State.lean ====
section
/-! DEFINITION. The state of the machine: every register, flag, latch and byte the spec gives it
(10_state.md, 20_memory.md R50), the environment's inputs (60_exceptions.md R270) and the reasons a step can
stop. -/

namespace Sys2Proof.Machine

/-- The bits of P (10_state.md R30). -/
inductive Flag
  | n
  | v
  | m
  | x
  | d
  | i
  | z
  | c
  deriving DecidableEq, Repr

/-- The run state (10_state.md R39). -/
inductive RunState
  | running
  | waiting
  | stopped
  deriving DecidableEq, Repr

/-- One sample of the four inputs, taken at one step (10_state.md R40, 60_exceptions.md R270). -/
structure Inputs where
  /-- `reset` is asserted. -/
  reset : Bool
  /-- `irq` is asserted, a level. -/
  irq : Bool
  /-- An edge on `nmi`. -/
  nmi : Bool
  /-- `abort` is asserted (60_exceptions.md R252). -/
  abort : Bool
  deriving DecidableEq, Repr

/-- No input asserted: the default environment (60_exceptions.md R270). -/
def Inputs.quiet : Inputs := { reset := false, irq := false, nmi := false, abort := false }

/-- Memory: the bytes that differ from what an unlisted address reads as, by rising address. -/
abbrev Memory := List Host.Cell

/-- The one form a memory has: addresses strictly rising and below 2^24, no entry equal to what an unlisted
address reads as (20_memory.md R50; log 1). -/
abbrev Memory.wf (m : Memory) : Prop :=
  m.Pairwise (fun c c' => c.1 < c'.1) ∧ ∀ c ∈ m, c.1 < 2 ^ 24 ∧ c.2 ≠ Config.unlistedByte

/-- The state of the machine. -/
structure State where
  /-- A (10_state.md R20). -/
  a : Word
  /-- X (R21). -/
  x : Word
  /-- Y (R22). -/
  y : Word
  /-- S (R23). -/
  sp : Word
  /-- D (R24). -/
  d : Word
  /-- DB (R25). -/
  db : Byte
  /-- PB (R26). -/
  pb : Byte
  /-- PC (R28). -/
  pc : Word
  /-- P: N V M X D I Z C from bit 7 to bit 0 (R30). -/
  p : Byte
  /-- E (R32). -/
  e : Bool
  /-- The run state (R39). -/
  run : RunState
  /-- The NMI latch `nmi_pending` (R40). -/
  nmiPending : Bool
  /-- The samples of the environment's inputs still to come, one for each step; when none is left no input is
  asserted (60_exceptions.md R270; log 5). -/
  inputs : List Inputs
  /-- The model's own count of free draws made by Reset() (70_reset_and_hazards.md R280; log 4). -/
  draws : Nat
  /-- The 2^24 bytes (20_memory.md R50). -/
  mem : Memory
  deriving DecidableEq, Repr

/-- The processor has no fault of its own: no instruction traps on its operands, no access is checked, no
opcode is illegal (00_scope.md R13, 60_exceptions.md R265, R271). So nobody raises one, and there is none. -/
inductive Fault
  deriving DecidableEq, Repr

/-- Why a step has no next state. -/
inductive Refusal
  /-- `exec` raises it for an instruction that has no meaning in this model; safe. No arm of `exec` does. -/
  | notModelled (mnemonic : String)
  /-- `step` raises it where the `abort` input is asserted while the machine runs or waits: the spec takes
  ABORT as never asserted and gives it no transition (60_exceptions.md R252, log 6); safe. -/
  | abortInput
  /-- JSR, JSR `(a,x)` and JSL raise it where a byte they push lands on a byte of the call itself or, for JSR
  `(a,x)`, on a byte of its pointer: the spec refuses these states (93_implementation_defined.md U9, log 10);
  safe. -/
  | ownBytesOverwritten
  /-- WDM raises it under WDM_POLICY = refuse, which this model does not take (30_encoding.md R82, log 7);
  safe. -/
  | unassignedOpcode
  deriving DecidableEq, Repr

/-- The state right after Reset() (10_state.md R42, 70_reset_and_hazards.md R280): E = 1, M = X = I = 1, D = 0,
XH = YH = $00, SH = $01, D = $0000, DB = PB = $00, running, no NMI pending. The spec states no value for A, XL,
YL, SL, N, V, Z and C: DESIGN CHOICE (unsafe, log 3), zero, and $FF for SL as 95_test_vectors.md starts S at
$01FF. PC is the word at 00:FFFC of a memory with nothing listed (log 21). -/
def State.reset : State where
  a := 0x0000
  x := 0x0000
  y := 0x0000
  sp := 0x01FF
  d := 0x0000
  db := 0x00
  pb := 0x00
  pc := word16 Config.unlistedByte Config.unlistedByte
  p := 0x34
  e := true
  run := .running
  nmiPending := false
  inputs := []
  draws := 0
  mem := []

end Sys2Proof.Machine
end

