-- ==== Sys2Proof/Machine/Flags.lean ====
section
/-! DEFINITION. The status register by flag, the width predicates, and every flag computation of the spec:
10_state.md R30, 00_scope.md R8 and R12, 41_table5_arithmetic_logical.md R144 to R148. -/

namespace Sys2Proof.Machine

/-- The position of a flag in P (10_state.md R30). -/
def Flag.bit : Flag → Nat
  | .n => 7
  | .v => 6
  | .m => 5
  | .x => 4
  | .d => 3
  | .i => 2
  | .z => 1
  | .c => 0

/-- A byte with bit `k` set or cleared. -/
def putBit (p : Byte) (k : Nat) (b : Bool) : Byte :=
  if b then p ||| (1#8 <<< k) else p &&& ~~~(1#8 <<< k)

/-- The value of a flag. -/
def State.flag (s : State) (f : Flag) : Bool := s.p.getLsbD f.bit

/-- Write one flag of P and nothing else (10_state.md R37, last paragraph). -/
def State.setFlag (f : Flag) (b : Bool) (s : State) : State := { s with p := putBit s.p f.bit b }

/-- `m8` (00_scope.md R8): the accumulator and memory are 8 bits wide. -/
def State.m8 (s : State) : Bool := s.e || s.flag .m

/-- `x8` (00_scope.md R8): the index registers are 8 bits wide. -/
def State.x8 (s : State) : Bool := s.e || s.flag .x

/-- The width a selector chooses: `wm` and `wx` of 00_scope.md R8. -/
def State.width (s : State) (sel : Selector) : Width :=
  if sel.is8 s.m8 s.x8 then .w8 else .w16

/-- `SetNZ`: N is the top bit of a result and Z says it is zero, at its own width (00_scope.md R12). -/
def State.setNZ {n : Nat} (r : BitVec n) (s : State) : State :=
  (s.setFlag .n r.msb).setFlag .z (r == 0#n)

/-- What an addition or a subtraction gives: the result, the carry and the overflow. -/
structure AluOut (n : Nat) where
  /-- The result. -/
  r : BitVec n
  /-- Carry out; after a subtraction, no borrow. -/
  c : Bool
  /-- Signed overflow. -/
  v : Bool
  deriving DecidableEq, Repr

/-- `AddBin` (41_table5_arithmetic_logical.md R144). -/
def addBin {n : Nat} (a b : BitVec n) (cin : Bool) : AluOut n :=
  let s := a.toNat + b.toNat + cin.toNat
  let r := BitVec.ofNat n s
  { r := r, c := decide (2 ^ n ≤ s), v := a.msb == b.msb && r.msb != a.msb }

/-- `SubBin` (41_table5_arithmetic_logical.md R146): the addition of the complement. -/
def subBin {n : Nat} (a b : BitVec n) (cin : Bool) : AluOut n := addBin a (~~~b) cin

/-- `Compare` (41_table5_arithmetic_logical.md R145): the difference, and no borrow. -/
def compare {n : Nat} (a b : BitVec n) : BitVec n × Bool := (a - b, decide (b.toNat ≤ a.toNat))

/-- The number of decimal digits of a width: `k` of 41_table5_arithmetic_logical.md R147. -/
def Width.digits : Width → Nat
  | .w8 => 2
  | .w16 => 4

/-- Every one of the low `k` nibbles is 0 to 9: "valid" in 41_table5_arithmetic_logical.md R147. -/
def bcdValid : Nat → Nat → Bool
  | 0, _ => true
  | k + 1, v => decide (v % 16 ≤ 9) && bcdValid k (v / 16)

/-- The number that the low `k` nibbles spell: `dec` of R147. -/
def bcdValue : Nat → Nat → Nat
  | 0, _ => 0
  | k + 1, v => v % 16 + 10 * bcdValue k (v / 16)

/-- The `k`-digit spelling of a number: `bcd_k` of R147. -/
def bcdSpell : Nat → Nat → Nat
  | 0, _ => 0
  | k + 1, n => n % 10 + 16 * bcdSpell k (n / 10)

/-- Both operands are valid BCD at a width (41_table5_arithmetic_logical.md R147). -/
def bothBcd (w : Width) (a b : BitVec w.bits) : Bool :=
  bcdValid (Width.digits w) a.toNat && bcdValid (Width.digits w) b.toNat

/-- `AddDec` (41_table5_arithmetic_logical.md R147): result and carry as the rule says on valid BCD; V, and
everything on other operands, free (U3, log 11). -/
def addDec (w : Width) (a b : BitVec w.bits) (cin : Bool) : AluOut w.bits :=
  let k := Width.digits w
  let n := bcdValue k a.toNat + bcdValue k b.toNat + cin.toNat
  let out :=
    if bothBcd w a b then (BitVec.ofNat w.bits (bcdSpell k (n % 10 ^ k)), decide (10 ^ k ≤ n))
    else Config.addDecInvalid w a b cin
  { r := out.1, c := out.2, v := Config.addDecV w a b cin }

/-- `SubDec` (41_table5_arithmetic_logical.md R148): result and no-borrow as the rule says on valid BCD; V, and
everything on other operands, free (U3, log 11). -/
def subDec (w : Width) (a b : BitVec w.bits) (cin : Bool) : AluOut w.bits :=
  let k := Width.digits w
  let n : Int := (bcdValue k a.toNat : Int) - bcdValue k b.toNat - (1 - cin.toNat)
  let out :=
    if bothBcd w a b then (BitVec.ofNat w.bits (bcdSpell k (n % 10 ^ k).toNat), decide (0 ≤ n))
    else Config.subDecInvalid w a b cin
  { r := out.1, c := out.2, v := Config.subDecV w a b cin }

end Sys2Proof.Machine
end

