-- ==== Sys2Proof/Machine/Ops.lean ====
section
/-! DEFINITION. The named operations over memory and registers: bytes of memory and the three ways an address
is incremented (20_memory.md R52), half registers, `WriteP` (10_state.md R37), the stack (00_scope.md R11),
taking an interrupt and returning from one (60_exceptions.md R256, R261), Reset() (70_reset_and_hazards.md
R280), and the sampling of the inputs (60_exceptions.md R259, R263, R264). -/

namespace Sys2Proof.Machine

/-! ## Memory -/

/-- The byte listed at a key, or what an unlisted address reads as. -/
def Memory.lookup : Memory → Nat → Byte
  | [], _ => Config.unlistedByte
  | (k', b) :: m, k => if k' = k then b else Memory.lookup m k

/-- A memory without the entries of a key. -/
def Memory.erase (m : Memory) (k : Nat) : Memory := m.filter (fun c => decide (c.1 ≠ k))

/-- A memory with one more entry, before the first entry of a greater key. -/
def Memory.insert : Memory → Nat → Byte → Memory
  | [], k, b => [(k, b)]
  | (k', b') :: m, k, b => if k < k' then (k, b) :: (k', b') :: m else (k', b') :: Memory.insert m k b

/-- A memory with a byte at a key, in canonical form: a byte equal to what an unlisted address reads as has no
entry. -/
def Memory.store (m : Memory) (k : Nat) (v : Byte) : Memory :=
  if v = Config.unlistedByte then Memory.erase m k else Memory.insert (Memory.erase m k) k v

/-- What answers an access (20_memory.md R59): a byte of memory by its key, or nothing. -/
inductive Backing
  | ram (k : Nat)
  | rom (k : Nat)
  | nothing
  deriving DecidableEq, Repr

/-- The address lies in the region. -/
def covers (r : Region) (k : Nat) : Bool := decide (r.base ≤ k ∧ k < r.base + r.size)

/-- What a memory map has at an address (20_memory.md R59). -/
def backing : MemoryMap → Nat → Backing
  | [], k => .ram k
  | r :: map, k =>
    if covers r k then
      match r.kind with
      | .ram => .ram k
      | .rom => .rom k
      | .unpopulated => .nothing
      | .mirror base size => backing map ((base + (k - r.base) % size) % 2 ^ 24)
    else backing map k

/-- A read through a memory map. -/
def Memory.readIn (map : MemoryMap) (m : Memory) (a : Address) : Byte :=
  match backing map a.toNat with
  | .ram k => m.lookup k
  | .rom k => m.lookup k
  | .nothing => Config.unpopulatedByte a

/-- A write through a memory map: only RAM takes it. -/
def Memory.writeIn (map : MemoryMap) (m : Memory) (a : Address) (v : Byte) : Memory :=
  match backing map a.toNat with
  | .ram k => m.store k v
  | .rom _ => m
  | .nothing => m

/-- A write at `a` is seen by a read at `b`. -/
def writeSeen (map : MemoryMap) (a b : Address) : Bool :=
  match backing map a.toNat, backing map b.toNat with
  | .ram k, .ram j => k == j
  | .ram k, .rom j => k == j
  | .ram _, .nothing => false
  | .rom _, _ => false
  | .nothing, _ => false

/-- `Mem[a]` (00_scope.md R9) on the platform's memory map (20_memory.md R59). -/
def Memory.read (m : Memory) (a : Address) : Byte := m.readIn Config.memoryMap a

/-- `Mem[a] <- v` (00_scope.md R9) on the platform's memory map (20_memory.md R59). -/
def Memory.write (m : Memory) (a : Address) (v : Byte) : Memory := m.writeIn Config.memoryMap a v

/-- A byte of the platform's memory image placed from outside the machine, in RAM or ROM (20_memory.md R59,
70_reset_and_hazards.md R282; log 19). -/
def Memory.place (m : Memory) (a : Address) (v : Byte) : Memory :=
  match backing Config.memoryMap a.toNat with
  | .ram k => m.store k v
  | .rom k => m.store k v
  | .nothing => m

/-- The address `bank:offset` (20_memory.md R50). -/
def addressOf (bank : Byte) (offset : Word) : Address := bank ++ offset

/-- The next address with bank wrap (20_memory.md R52). -/
def nextInBank (a : Address) : Address := addressOf (bankOf a) (offsetOf a + 1)

/-- `MemReadB(b, o, 2)` (00_scope.md R9). -/
def Memory.readWordB (m : Memory) (bank : Byte) (o : Word) : Word :=
  word16 (m.read (addressOf bank o)) (m.read (addressOf bank (o + 1)))

/-- `MemReadB(b, o, 3)` (00_scope.md R9). -/
def Memory.readLongB (m : Memory) (bank : Byte) (o : Word) : Address :=
  long24 (m.read (addressOf bank o)) (m.read (addressOf bank (o + 1))) (m.read (addressOf bank (o + 2)))

/-- `MemReadP(h, l, 2)` (00_scope.md R9): the high byte comes from the same page of bank 00. -/
def Memory.readWordP (m : Memory) (page l : Byte) : Word :=
  word16 (m.read (addressOf 0 (word16 l page))) (m.read (addressOf 0 (word16 (l + 1) page)))

/-! ## Registers -/

/-- `reg_w(R)`: the low `w` bits of a register (41_table5_arithmetic_logical.md, conventions). -/
def lowPart (w : Width) (r : Word) : BitVec w.bits := r.setWidth w.bits

/-- `reg_w(R) <- v`: at 8 bits the high half is kept (00_scope.md R7). -/
def putLow : (w : Width) → Word → BitVec w.bits → Word
  | .w8, r, v => word16 v (hiByte r)
  | .w16, _, v => v

/-- A value of either width in 16 bits, its high bits zero. -/
def widen (w : Width) (v : BitVec w.bits) : Word := v.setWidth 16

/-- The implicit `PC <- next` at the end of an instruction of `len` bytes (00_scope.md R10, 10_state.md R29):
PC wraps inside its bank. -/
def State.advance (len : Word) (s : State) : State := { s with pc := s.pc + len }

/-- XH and YH are $00 while P.X is 1 (10_state.md R33, R34). -/
def State.clearIndexHigh (s : State) : State :=
  { s with x := word16 (loByte s.x) 0, y := word16 (loByte s.y) 0 }

/-- `WriteP(v)` (10_state.md R37). -/
def State.writeP (v : Byte) (s : State) : State :=
  let t := { s with p := if s.e then v ||| 0x30 else v }
  if t.flag .x then t.clearIndexHigh else t

/-- SH forced to $01 while E = 1 (10_state.md R33). -/
def lockPage (e : Bool) (sp : Word) : Word := if e then word16 (loByte sp) 0x01 else sp

/-! ## The stack (00_scope.md R11) -/

/-- S after one byte, stepped to `sp`: with E = 1 the lock of SH acts here when `lock` says per byte. -/
def stackStep (lock : StackLock) (e : Bool) (sp : Word) : Word :=
  match lock with
  | .perByte => lockPage e sp
  | .atEnd => sp

/-- `Push8`: store at 00:S, then decrement S. -/
def State.push (lock : StackLock) (v : Byte) (s : State) : State :=
  { s with mem := s.mem.write (addressOf 0 s.sp) v, sp := stackStep lock s.e (s.sp - 1) }

/-- Push bytes in order, the first at the highest address. -/
def State.pushAll (lock : StackLock) : List Byte → State → State
  | [], s => s
  | v :: vs, s => State.pushAll lock vs (s.push lock v)

/-- Where `State.pushAll` stores from a stack pointer, in order: the addresses and their bytes. -/
def pushedCells (lock : StackLock) (e : Bool) : List Byte → Word → List (Address × Byte)
  | [], _ => []
  | v :: vs, sp => (addressOf 0 sp, v) :: pushedCells lock e vs (stackStep lock e (sp - 1))

/-- The bytes of `Push16(v)`, in order: high byte first. -/
def wordBytes (v : Word) : List Byte := [hiByte v, loByte v]

/-- S from which the next `Pull8` reads. -/
def State.pulledSp (lock : StackLock) (s : State) : Word := stackStep lock s.e (s.sp + 1)

/-- `Pull8`: increment S, then load from 00:S. -/
def State.pull8 (lock : StackLock) (s : State) : Byte × State :=
  (s.mem.read (addressOf 0 (s.pulledSp lock)), { s with sp := s.pulledSp lock })

/-- `Pull16`: the low byte, then the high byte. -/
def State.pull16 (lock : StackLock) (s : State) : Word × State :=
  let lo := s.pull8 lock
  let hi := lo.2.pull8 lock
  (word16 lo.1 hi.1, hi.2)

/-- SH forced to $01 when an instruction ends with E = 1 (10_state.md R33; U6). -/
def State.lockStack (s : State) : State := { s with sp := lockPage s.e s.sp }

/-- The lock that a push of `n` bytes by an instruction the 6502 lacks shows: per byte, but for the states
`SL < n - 1` with E = 1, which U6 leaves open (log 8). -/
def newPushLock (op : NewStackOp) (n : Nat) (s : State) : StackLock :=
  if s.e && decide ((loByte s.sp).toNat + 1 < n) then Config.emuNewStack op else .perByte

/-- The lock that a pull of `n` bytes by an instruction the 6502 lacks shows: per byte, but for the states
`SL + n > $FF` with E = 1, which U6 leaves open (log 8). -/
def newPullLock (op : NewStackOp) (n : Nat) (s : State) : StackLock :=
  if s.e && decide (255 < (loByte s.sp).toNat + n) then Config.emuNewStack op else .perByte

/-! ## Interrupts -/

/-- The kinds an instruction raises: BRK and COP (60_exceptions.md R251). -/
def software : InterruptKind → Bool
  | .brk => true
  | .cop => true
  | .abort => false
  | .nmi => false
  | .irq => false

/-- The P byte that entry pushes: with E = 1 bit 5 is 1 and bit 4 tells BRK and COP from the inputs
(60_exceptions.md R256, R268). -/
def pushedStatus (kind : InterruptKind) (s : State) : Byte :=
  if s.e then putBit (putBit s.p 5 true) 4 (software kind) else s.p

/-- The bytes that entry pushes, in order: PB when E = 0, the return offset, P (60_exceptions.md R256). -/
def entryFrame (kind : InterruptKind) (ret : Word) (s : State) : List Byte :=
  (if s.e then [] else [s.pb]) ++ wordBytes ret ++ [pushedStatus kind s]

/-- `Enter(kind, ret)` (60_exceptions.md R256): taking an interrupt. -/
def enter (kind : InterruptKind) (ret : Word) (s : State) : State :=
  let t := s.pushAll .perByte (entryFrame kind ret s)
  { (t.setFlag .i true).setFlag .d false with
    pb := 0x00
    pc := t.mem.readWordB 0 (Config.vector kind s.e)
    nmiPending := if kind = .nmi then false else s.nmiPending
    run := .running }

/-- Return from an interrupt (60_exceptions.md R261, 45_table7_other.md R234): P, PC, and with E = 0 PB. -/
def returnFromInterrupt (s : State) : State :=
  let status := s.pull8 .perByte
  let target := (status.2.writeP status.1).pull16 .perByte
  let t := { target.2 with pc := target.1 }
  if t.e then t
  else
    let bank := t.pull8 .perByte
    { bank.2 with pb := bank.1 }

/-- `Reset()` (70_reset_and_hazards.md R280). The values it leaves unspecified are free draws (U4, log 4). -/
def resetSequence (s : State) : State :=
  { s with
    e := true
    p := (Config.resetP s.draws &&& 0xC3) ||| 0x34
    a := Config.resetA s.draws
    x := word16 (Config.resetXL s.draws) 0x00
    y := word16 (Config.resetYL s.draws) 0x00
    sp := word16 (Config.resetSL s.draws) 0x01
    d := 0x0000
    db := 0x00
    pb := 0x00
    nmiPending := false
    pc := s.mem.readWordB 0 Config.vecReset
    run := .running
    draws := s.draws + 1 }

/-! ## The inputs at an instruction boundary -/

/-- The sample of this step: none asserted when the stream has run out (60_exceptions.md R270). -/
def State.sample (s : State) : Inputs := s.inputs.headD Inputs.quiet

/-- Take this step's sample off the stream and latch an edge on `nmi` (60_exceptions.md R254). A stopped
processor ignores the edge (R264). -/
def State.latch (s : State) : State :=
  { s with
    inputs := s.inputs.tail
    nmiPending := s.nmiPending || (s.sample.nmi && decide (s.run ≠ .stopped)) }

/-- What happens at a boundary. -/
inductive Boundary
  /-- Reset(). -/
  | reset
  /-- ABORT is asserted (60_exceptions.md R252). -/
  | abort
  /-- `Enter(kind, PC)`. -/
  | enter (kind : InterruptKind)
  /-- WAI ends and no interrupt is taken (60_exceptions.md R263). -/
  | resume
  /-- Nothing: stopped, or waiting with no input. -/
  | idle
  /-- The instruction at PB:PC is executed. -/
  | execute
  deriving DecidableEq, Repr

/-- What a boundary does, from the sample and the state that has latched it: the tests of 60_exceptions.md
R259, R263, R264 in their order of priority (R260). -/
def boundary (inp : Inputs) (s : State) : Boundary :=
  if inp.reset then .reset
  else
    match s.run with
    | .stopped => .idle
    | .running =>
      if inp.abort then .abort
      else if s.nmiPending then .enter .nmi
      else if inp.irq && !s.flag .i then .enter .irq
      else .execute
    | .waiting =>
      if inp.abort then .abort
      else if s.nmiPending then .enter .nmi
      else if inp.irq && !s.flag .i then .enter .irq
      else if inp.irq then .resume
      else .idle

/-! ## The instruction stream (00_scope.md R10, 30_encoding.md R70) -/

/-- The address of byte `k` of the instruction at PB:PC, with bank wrap. -/
def State.fetchAddress (k : Word) (s : State) : Address := addressOf s.pb (s.pc + k)

/-- `Fetch(k)`. -/
def State.fetch (k : Word) (s : State) : Byte := s.mem.read (s.fetchAddress k)

/-- The instruction at PB:PC under the widths in force (30_encoding.md R70, R74). The longest instruction has
four bytes; bytes past an instruction's length have no effect on it. -/
def State.fetchInstr (s : State) : Instr :=
  decodeBytes s.m8 s.x8 (s.fetch 0) (s.fetch 1) (s.fetch 2) (s.fetch 3)

end Sys2Proof.Machine
end

