-- ==== Sys2Proof/Machine/Operands.lean ====
section
/-! DEFINITION. Every operand form of the spec: the fifteen memory-operand modes and their locators
(40_addressing_modes.md R90, R94 to R108), the immediate and accumulator operands (R91, R92), and the frames of
the instructions that use them: read, store, read-modify-write. -/

namespace Sys2Proof.Machine

/-- How the address of the byte after an operand's low byte is obtained (40_addressing_modes.md R90). -/
inductive LocStep
  | linear
  | bank
  deriving DecidableEq, Repr

/-- `Loc = (a0, step)` of 40_addressing_modes.md R90. -/
structure Loc where
  /-- The address of the low byte. -/
  a0 : Address
  /-- The way to the high byte. -/
  step : LocStep
  deriving DecidableEq, Repr

/-- The address of the high byte of a 16-bit operand (40_addressing_modes.md R90). -/
def Loc.high (l : Loc) : Address :=
  match l.step with
  | .linear => l.a0 + 1
  | .bank => nextInBank l.a0

/-- The memory-operand modes of Table 5 with their operand fields (40_addressing_modes.md R117). -/
inductive Addr
  /-- `d`, R94. -/
  | dir (d : Byte)
  /-- `d,x`, R95. -/
  | dirX (d : Byte)
  /-- `d,y`, R96. -/
  | dirY (d : Byte)
  /-- `(d)`, R97. -/
  | dirInd (d : Byte)
  /-- `(d,x)`, R98. -/
  | dirXInd (d : Byte)
  /-- `(d),y`, R99. -/
  | dirIndY (d : Byte)
  /-- `[d]`, R100. -/
  | dirIndl (d : Byte)
  /-- `[d],y`, R101. -/
  | dirIndlY (d : Byte)
  /-- `a`, R102. -/
  | abs (a : Word)
  /-- `a,x`, R103. -/
  | absX (a : Word)
  /-- `a,y`, R104. -/
  | absY (a : Word)
  /-- `al`, R105. -/
  | absl (al : Address)
  /-- `al,x`, R106. -/
  | abslX (al : Address)
  /-- `d,s`, R107. -/
  | sr (d : Byte)
  /-- `(d,s),y`, R108. -/
  | srIndY (d : Byte)
  deriving DecidableEq, Repr

/-- The length in bytes of an instruction with this operand (30_encoding.md R71). -/
def Addr.length : Addr → Word
  | .dir _ => 2
  | .dirX _ => 2
  | .dirY _ => 2
  | .dirInd _ => 2
  | .dirXInd _ => 2
  | .dirIndY _ => 2
  | .dirIndl _ => 2
  | .dirIndlY _ => 2
  | .abs _ => 3
  | .absX _ => 3
  | .absY _ => 3
  | .absl _ => 4
  | .abslX _ => 4
  | .sr _ => 2
  | .srIndY _ => 2

/-- E = 1 and DL = $00: the direct page wraps as on the 6502 (40_addressing_modes.md R95 to R99, R116). -/
def State.pageWraps (s : State) : Bool := s.e && (loByte s.d == 0x00)

/-- `(D + zext_16(d)) mod 2^16` (40_addressing_modes.md R94). -/
def State.direct (d : Byte) (s : State) : Word := s.d + d.setWidth 16

/-- The offset in bank 00 of `d,x` and `d,y` (40_addressing_modes.md R95, R96). -/
def State.directIndexed (d : Byte) (index : Word) (s : State) : Word :=
  if s.pageWraps then word16 (d + loByte index) (hiByte s.d) else s.direct d + index

/-- The pointer of `(d)` and `(d),y` (40_addressing_modes.md R97, R99). -/
def State.directPointer (d : Byte) (s : State) : Word :=
  if s.pageWraps then s.mem.readWordP (hiByte s.d) d else s.mem.readWordB 0 (s.direct d)

/-- The state of the corner of 40_addressing_modes.md R98: E = 1, DL not $00, and the pointer of `(d,x)` at the
last byte of a page (U7). -/
def State.pointerCorner (d : Byte) (s : State) : Bool :=
  s.e && (loByte s.d != 0x00) && (loByte (s.direct d + s.x) == 0xFF)

/-- The pointer of `(d,x)` (40_addressing_modes.md R98). In the corner of U7 the high byte comes from the next
byte or from the start of the page, whichever the free `Config.emuDlNonzeroPtr` says (log 9). -/
def State.indexedPointer (d : Byte) (s : State) : Word :=
  if s.pageWraps then s.mem.readWordP (hiByte s.d) (d + loByte s.x)
  else
    let o := s.direct d + s.x
    if s.pointerCorner d && (Config.emuDlNonzeroPtr == .samePage) then s.mem.readWordP (hiByte o) (loByte o)
    else s.mem.readWordB 0 o

/-- The pointer of `[d]` and `[d],y`: three bytes, bank wrap in every mode (40_addressing_modes.md R100). -/
def State.longPointer (d : Byte) (s : State) : Address := s.mem.readLongB 0 (s.direct d)

/-- `(S + zext_16(d)) mod 2^16`, not confined to page $01 (40_addressing_modes.md R107). -/
def State.stackOffset (d : Byte) (s : State) : Word := s.sp + d.setWidth 16

/-- The locator of a memory operand (40_addressing_modes.md R94 to R108). -/
def Addr.loc (s : State) : Addr → Loc
  | .dir d => { a0 := addressOf 0 (s.direct d), step := .bank }
  | .dirX d => { a0 := addressOf 0 (s.directIndexed d s.x), step := .bank }
  | .dirY d => { a0 := addressOf 0 (s.directIndexed d s.y), step := .bank }
  | .dirInd d => { a0 := addressOf s.db (s.directPointer d), step := .linear }
  | .dirXInd d => { a0 := addressOf s.db (s.indexedPointer d), step := .linear }
  | .dirIndY d => { a0 := addressOf s.db (s.directPointer d) + s.y.setWidth 24, step := .linear }
  | .dirIndl d => { a0 := s.longPointer d, step := .linear }
  | .dirIndlY d => { a0 := s.longPointer d + s.y.setWidth 24, step := .linear }
  | .abs a => { a0 := addressOf s.db a, step := .linear }
  | .absX a => { a0 := addressOf s.db a + s.x.setWidth 24, step := .linear }
  | .absY a => { a0 := addressOf s.db a + s.y.setWidth 24, step := .linear }
  | .absl al => { a0 := al, step := .linear }
  | .abslX al => { a0 := al + s.x.setWidth 24, step := .linear }
  | .sr d => { a0 := addressOf 0 (s.stackOffset d), step := .bank }
  | .srIndY d =>
    { a0 := addressOf s.db (s.mem.readWordB 0 (s.stackOffset d)) + s.y.setWidth 24, step := .linear }

/-- `ReadOp(Loc, w)` (40_addressing_modes.md R90). -/
def Memory.readOp (m : Memory) (l : Loc) : (w : Width) → BitVec w.bits
  | .w8 => m.read l.a0
  | .w16 => word16 (m.read l.a0) (m.read l.high)

/-- `WriteOp(Loc, w, v)` of a store: low byte first (40_addressing_modes.md R90, 20_memory.md R56). -/
def Memory.writeOp (m : Memory) (l : Loc) : (w : Width) → BitVec w.bits → Memory
  | .w8, v => m.write l.a0 v
  | .w16, v => (m.write l.a0 (loByte v)).write l.high (hiByte v)

/-- `WriteOp(Loc, w, v)` of a read-modify-write instruction: high byte first (20_memory.md R56). -/
def Memory.writeBack (m : Memory) (l : Loc) : (w : Width) → BitVec w.bits → Memory
  | .w8, v => m.write l.a0 v
  | .w16, v => (m.write l.high (hiByte v)).write l.a0 (loByte v)

/-- The memory operand of an instruction at a width. -/
def State.operand (addr : Addr) (w : Width) (s : State) : BitVec w.bits := s.mem.readOp (addr.loc s) w

/-- The operand of an immediate instruction: as many of its bits as the width has (30_encoding.md R74,
40_addressing_modes.md R91). -/
def immOperand (imm : Word) (w : Width) : BitVec w.bits := imm.setWidth w.bits

/-- The length of an immediate instruction at a width: 2 or 3 bytes (30_encoding.md R74). -/
def immLength : Width → Word
  | .w8 => 2
  | .w16 => 3

/-- The outcomes of an instruction. -/
abbrev Result := Host.Outcome State Fault Refusal

/-- An instruction that reads a memory operand and gives its value to `f`. -/
def readInstr (sel : Selector) (f : (w : Width) → BitVec w.bits → State → State) (addr : Addr) (s : State) :
    Result :=
  .next ((f (s.width sel) (s.operand addr (s.width sel)) s).advance addr.length)

/-- An instruction with an immediate operand, which it gives to `f`. -/
def immInstr (sel : Selector) (f : (w : Width) → BitVec w.bits → State → State) (imm : Word) (s : State) :
    Result :=
  .next ((f (s.width sel) (immOperand imm (s.width sel)) s).advance (immLength (s.width sel)))

/-- An instruction that stores the low part of a value. -/
def storeInstr (sel : Selector) (v : Word) (addr : Addr) (s : State) : Result :=
  .next ({ s with mem := s.mem.writeOp (addr.loc s) (s.width sel) (lowPart (s.width sel) v) }.advance
    addr.length)

/-- A read-modify-write instruction on memory: `f` gives the value to write back and the flags. -/
def modifyInstr (f : (w : Width) → BitVec w.bits → State → BitVec w.bits × State) (addr : Addr) (s : State) :
    Result :=
  let w := s.width .m
  let out := f w (s.operand addr w) s
  .next ({ out.2 with mem := s.mem.writeBack (addr.loc s) w out.1 }.advance addr.length)

/-- A read-modify-write instruction on the accumulator (40_addressing_modes.md R92). -/
def modifyAcc (f : (w : Width) → BitVec w.bits → State → BitVec w.bits × State) (s : State) : Result :=
  let w := s.width .m
  let out := f w (lowPart w s.a) s
  .next ({ out.2 with a := putLow w s.a out.1 }.advance 1)

end Sys2Proof.Machine
end

