-- ==== Sys2Proof/Machine/Arith.lean ====
section
/-! DEFINITION. ADC SBC CMP CPX CPY INC DEC: 41_table5_arithmetic_logical.md R120, R124 to R127, R129, R137.
-/

namespace Sys2Proof.Machine

/-- ADC's effect on A and the flags (R120): binary or decimal by P.D. -/
def adcWith (w : Width) (m : BitVec w.bits) (s : State) : State :=
  let a := lowPart w s.a
  let out := if s.flag .d then addDec w a m (s.flag .c) else addBin a m (s.flag .c)
  (({ s with a := putLow w s.a out.r }.setFlag .c out.c).setFlag .v out.v).setNZ out.r

/-- SBC's effect on A and the flags (R137): binary or decimal by P.D. -/
def sbcWith (w : Width) (m : BitVec w.bits) (s : State) : State :=
  let a := lowPart w s.a
  let out := if s.flag .d then subDec w a m (s.flag .c) else subBin a m (s.flag .c)
  (({ s with a := putLow w s.a out.r }.setFlag .c out.c).setFlag .v out.v).setNZ out.r

/-- The flags of a comparison of a register with the operand (R124 to R126, R145). -/
def compareWith (reg : State → Word) (w : Width) (m : BitVec w.bits) (s : State) : State :=
  let out := compare (lowPart w (reg s)) m
  (s.setFlag .c out.2).setNZ out.1

/-- INC's result and flags (R129). -/
def incValue (w : Width) (b : BitVec w.bits) (s : State) : BitVec w.bits × State :=
  (b + 1#w.bits, s.setNZ (b + 1#w.bits))

/-- DEC's result and flags (R127). -/
def decValue (w : Width) (b : BitVec w.bits) (s : State) : BitVec w.bits × State :=
  (b - 1#w.bits, s.setNZ (b - 1#w.bits))

/-- ADC #, $69 (R120). -/
def execAdcImm (imm : Word) (s : State) : Result := immInstr .m adcWith imm s

/-- ADC d, $65 (R120). -/
def execAdcDir (d : Byte) (s : State) : Result := readInstr .m adcWith (.dir d) s

/-- ADC d,x, $75 (R120). -/
def execAdcDirX (d : Byte) (s : State) : Result := readInstr .m adcWith (.dirX d) s

/-- ADC (d), $72 (R120). -/
def execAdcDirInd (d : Byte) (s : State) : Result := readInstr .m adcWith (.dirInd d) s

/-- ADC (d,x), $61 (R120). -/
def execAdcDirXInd (d : Byte) (s : State) : Result := readInstr .m adcWith (.dirXInd d) s

/-- ADC (d),y, $71 (R120). -/
def execAdcDirIndY (d : Byte) (s : State) : Result := readInstr .m adcWith (.dirIndY d) s

/-- ADC [d], $67 (R120). -/
def execAdcDirIndl (d : Byte) (s : State) : Result := readInstr .m adcWith (.dirIndl d) s

/-- ADC [d],y, $77 (R120). -/
def execAdcDirIndlY (d : Byte) (s : State) : Result := readInstr .m adcWith (.dirIndlY d) s

/-- ADC a, $6D (R120). -/
def execAdcAbs (a : Word) (s : State) : Result := readInstr .m adcWith (.abs a) s

/-- ADC a,x, $7D (R120). -/
def execAdcAbsX (a : Word) (s : State) : Result := readInstr .m adcWith (.absX a) s

/-- ADC a,y, $79 (R120). -/
def execAdcAbsY (a : Word) (s : State) : Result := readInstr .m adcWith (.absY a) s

/-- ADC al, $6F (R120). -/
def execAdcAbsl (al : Address) (s : State) : Result := readInstr .m adcWith (.absl al) s

/-- ADC al,x, $7F (R120). -/
def execAdcAbslX (al : Address) (s : State) : Result := readInstr .m adcWith (.abslX al) s

/-- ADC d,s, $63 (R120). -/
def execAdcSr (d : Byte) (s : State) : Result := readInstr .m adcWith (.sr d) s

/-- ADC (d,s),y, $73 (R120). -/
def execAdcSrIndY (d : Byte) (s : State) : Result := readInstr .m adcWith (.srIndY d) s

/-- SBC #, $E9 (R137). -/
def execSbcImm (imm : Word) (s : State) : Result := immInstr .m sbcWith imm s

/-- SBC d, $E5 (R137). -/
def execSbcDir (d : Byte) (s : State) : Result := readInstr .m sbcWith (.dir d) s

/-- SBC d,x, $F5 (R137). -/
def execSbcDirX (d : Byte) (s : State) : Result := readInstr .m sbcWith (.dirX d) s

/-- SBC (d), $F2 (R137). -/
def execSbcDirInd (d : Byte) (s : State) : Result := readInstr .m sbcWith (.dirInd d) s

/-- SBC (d,x), $E1 (R137). -/
def execSbcDirXInd (d : Byte) (s : State) : Result := readInstr .m sbcWith (.dirXInd d) s

/-- SBC (d),y, $F1 (R137). -/
def execSbcDirIndY (d : Byte) (s : State) : Result := readInstr .m sbcWith (.dirIndY d) s

/-- SBC [d], $E7 (R137). -/
def execSbcDirIndl (d : Byte) (s : State) : Result := readInstr .m sbcWith (.dirIndl d) s

/-- SBC [d],y, $F7 (R137). -/
def execSbcDirIndlY (d : Byte) (s : State) : Result := readInstr .m sbcWith (.dirIndlY d) s

/-- SBC a, $ED (R137). -/
def execSbcAbs (a : Word) (s : State) : Result := readInstr .m sbcWith (.abs a) s

/-- SBC a,x, $FD (R137). -/
def execSbcAbsX (a : Word) (s : State) : Result := readInstr .m sbcWith (.absX a) s

/-- SBC a,y, $F9 (R137). -/
def execSbcAbsY (a : Word) (s : State) : Result := readInstr .m sbcWith (.absY a) s

/-- SBC al, $EF (R137). -/
def execSbcAbsl (al : Address) (s : State) : Result := readInstr .m sbcWith (.absl al) s

/-- SBC al,x, $FF (R137). -/
def execSbcAbslX (al : Address) (s : State) : Result := readInstr .m sbcWith (.abslX al) s

/-- SBC d,s, $E3 (R137). -/
def execSbcSr (d : Byte) (s : State) : Result := readInstr .m sbcWith (.sr d) s

/-- SBC (d,s),y, $F3 (R137). -/
def execSbcSrIndY (d : Byte) (s : State) : Result := readInstr .m sbcWith (.srIndY d) s

/-- CMP #, $C9 (R124). -/
def execCmpImm (imm : Word) (s : State) : Result := immInstr .m (compareWith State.a) imm s

/-- CMP d, $C5 (R124). -/
def execCmpDir (d : Byte) (s : State) : Result := readInstr .m (compareWith State.a) (.dir d) s

/-- CMP d,x, $D5 (R124). -/
def execCmpDirX (d : Byte) (s : State) : Result := readInstr .m (compareWith State.a) (.dirX d) s

/-- CMP (d), $D2 (R124). -/
def execCmpDirInd (d : Byte) (s : State) : Result := readInstr .m (compareWith State.a) (.dirInd d) s

/-- CMP (d,x), $C1 (R124). -/
def execCmpDirXInd (d : Byte) (s : State) : Result := readInstr .m (compareWith State.a) (.dirXInd d) s

/-- CMP (d),y, $D1 (R124). -/
def execCmpDirIndY (d : Byte) (s : State) : Result := readInstr .m (compareWith State.a) (.dirIndY d) s

/-- CMP [d], $C7 (R124). -/
def execCmpDirIndl (d : Byte) (s : State) : Result := readInstr .m (compareWith State.a) (.dirIndl d) s

/-- CMP [d],y, $D7 (R124). -/
def execCmpDirIndlY (d : Byte) (s : State) : Result := readInstr .m (compareWith State.a) (.dirIndlY d) s

/-- CMP a, $CD (R124). -/
def execCmpAbs (a : Word) (s : State) : Result := readInstr .m (compareWith State.a) (.abs a) s

/-- CMP a,x, $DD (R124). -/
def execCmpAbsX (a : Word) (s : State) : Result := readInstr .m (compareWith State.a) (.absX a) s

/-- CMP a,y, $D9 (R124). -/
def execCmpAbsY (a : Word) (s : State) : Result := readInstr .m (compareWith State.a) (.absY a) s

/-- CMP al, $CF (R124). -/
def execCmpAbsl (al : Address) (s : State) : Result := readInstr .m (compareWith State.a) (.absl al) s

/-- CMP al,x, $DF (R124). -/
def execCmpAbslX (al : Address) (s : State) : Result := readInstr .m (compareWith State.a) (.abslX al) s

/-- CMP d,s, $C3 (R124). -/
def execCmpSr (d : Byte) (s : State) : Result := readInstr .m (compareWith State.a) (.sr d) s

/-- CMP (d,s),y, $D3 (R124). -/
def execCmpSrIndY (d : Byte) (s : State) : Result := readInstr .m (compareWith State.a) (.srIndY d) s

/-- CPX #, $E0 (R125). -/
def execCpxImm (imm : Word) (s : State) : Result := immInstr .x (compareWith State.x) imm s

/-- CPX d, $E4 (R125). -/
def execCpxDir (d : Byte) (s : State) : Result := readInstr .x (compareWith State.x) (.dir d) s

/-- CPX a, $EC (R125). -/
def execCpxAbs (a : Word) (s : State) : Result := readInstr .x (compareWith State.x) (.abs a) s

/-- CPY #, $C0 (R126). -/
def execCpyImm (imm : Word) (s : State) : Result := immInstr .x (compareWith State.y) imm s

/-- CPY d, $C4 (R126). -/
def execCpyDir (d : Byte) (s : State) : Result := readInstr .x (compareWith State.y) (.dir d) s

/-- CPY a, $CC (R126). -/
def execCpyAbs (a : Word) (s : State) : Result := readInstr .x (compareWith State.y) (.abs a) s

/-- INC A, $1A (R129). -/
def execIncAcc (s : State) : Result := modifyAcc incValue s

/-- INC d, $E6 (R129). -/
def execIncDir (d : Byte) (s : State) : Result := modifyInstr incValue (.dir d) s

/-- INC d,x, $F6 (R129). -/
def execIncDirX (d : Byte) (s : State) : Result := modifyInstr incValue (.dirX d) s

/-- INC a, $EE (R129). -/
def execIncAbs (a : Word) (s : State) : Result := modifyInstr incValue (.abs a) s

/-- INC a,x, $FE (R129). -/
def execIncAbsX (a : Word) (s : State) : Result := modifyInstr incValue (.absX a) s

/-- DEC A, $3A (R127). -/
def execDecAcc (s : State) : Result := modifyAcc decValue s

/-- DEC d, $C6 (R127). -/
def execDecDir (d : Byte) (s : State) : Result := modifyInstr decValue (.dir d) s

/-- DEC d,x, $D6 (R127). -/
def execDecDirX (d : Byte) (s : State) : Result := modifyInstr decValue (.dirX d) s

/-- DEC a, $CE (R127). -/
def execDecAbs (a : Word) (s : State) : Result := modifyInstr decValue (.abs a) s

/-- DEC a,x, $DE (R127). -/
def execDecAbsX (a : Word) (s : State) : Result := modifyInstr decValue (.absX a) s

end Sys2Proof.Machine
end

