-- ==== Sys2Proof/Machine/Branch.lean ====
section
/-! DEFINITION. BCC BCS BEQ BMI BNE BPL BRA BVC BVS BRL: 42_table6_branch_flag_index.md R150 to R159,
45_table7_other.md R221. -/

namespace Sys2Proof.Machine

/-- The common rule of the short branches (R150): a taken branch adds the sign-extended offset to the offset of
the next instruction, modulo 2^16; PB is unchanged. -/
def branchIf (cond : Bool) (r : Byte) (s : State) : Result :=
  .next (if cond then { s with pc := s.pc + 2 + r.signExtend 16 } else s.advance 2)

/-- BCC r, $90 (R151). -/
def execBcc (r : Byte) (s : State) : Result := branchIf (!s.flag .c) r s

/-- BCS r, $B0 (R152). -/
def execBcs (r : Byte) (s : State) : Result := branchIf (s.flag .c) r s

/-- BEQ r, $F0 (R153). -/
def execBeq (r : Byte) (s : State) : Result := branchIf (s.flag .z) r s

/-- BMI r, $30 (R154). -/
def execBmi (r : Byte) (s : State) : Result := branchIf (s.flag .n) r s

/-- BNE r, $D0 (R155). -/
def execBne (r : Byte) (s : State) : Result := branchIf (!s.flag .z) r s

/-- BPL r, $10 (R156). -/
def execBpl (r : Byte) (s : State) : Result := branchIf (!s.flag .n) r s

/-- BRA r, $80 (R157). -/
def execBra (r : Byte) (s : State) : Result := branchIf true r s

/-- BVC r, $50 (R158). -/
def execBvc (r : Byte) (s : State) : Result := branchIf (!s.flag .v) r s

/-- BVS r, $70 (R159). -/
def execBvs (r : Byte) (s : State) : Result := branchIf (s.flag .v) r s

/-- BRL r, $82 (R221). The offset is 16 bits, so its sign does not matter (R113). -/
def execBrl (r : Word) (s : State) : Result := .next { s with pc := s.pc + 3 + r }

end Sys2Proof.Machine
end

