-- ==== Sys2Proof/Machine/Control.lean ====
section
/-! DEFINITION. JMP JML JSR JSL RTS RTL RTI BRK COP MVN MVP STP WAI: 45_table7_other.md R220, R222 to R232,
R234 to R236, R238, R239, R241. -/

namespace Sys2Proof.Machine

/-- The addresses of some bytes of the instruction at PB:PC, by their places in it. -/
def State.instrBytes (places : List Word) (s : State) : List Address := places.map (fun k => s.fetchAddress k)

/-- A byte pushed lands on one of the bytes at `bytes`. -/
def landsOn (cells : List (Address × Byte)) (bytes : List Address) : Bool :=
  cells.any (fun c => bytes.any (fun b => writeSeen Config.memoryMap c.1 b))

/-- The end of a call: the state `t`, but refused where a push lands on a byte that the call obtains
(93_implementation_defined.md U9, 70_reset_and_hazards.md R287; log 10). -/
def callTo (cells : List (Address × Byte)) (bytes : List Address) (t : State) : Result :=
  if landsOn cells bytes then .refused .ownBytesOverwritten else .next t

/-- The bytes JSL pushes, in order (R228, R241). -/
def jslFrame (s : State) : List Byte := s.pb :: wordBytes (s.pc + 3)

/-- JMP a, $4C (R224). -/
def execJmpAbs (a : Word) (s : State) : Result := .next { s with pc := a }

/-- JMP (a), $6C (R225). The pointer is in bank 00. -/
def execJmpAbsInd (a : Word) (s : State) : Result := .next { s with pc := s.mem.readWordB 0 a }

/-- JMP (a,x), $7C (R226). The pointer is in bank PB. -/
def execJmpAbsXInd (a : Word) (s : State) : Result := .next { s with pc := s.mem.readWordB s.pb (a + s.x) }

/-- JMP al, $5C (R227). -/
def execJmpAbsl (al : Address) (s : State) : Result := .next { s with pc := offsetOf al, pb := bankOf al }

/-- JML [a], $DC (R223). -/
def execJml (a : Word) (s : State) : Result :=
  .next { s with pc := offsetOf (s.mem.readLongB 0 a), pb := bankOf (s.mem.readLongB 0 a) }

/-- JSR a, $20 (R229). The word pushed is the offset of the last byte of the JSR (R241). -/
def execJsrAbs (a : Word) (s : State) : Result :=
  let frame := wordBytes (s.pc + 2)
  callTo (pushedCells .perByte s.e frame s.sp) (s.instrBytes [0, 1, 2])
    { s.pushAll .perByte frame with pc := a }

/-- JSR (a,x), $FC (R230). The pointer is in bank PB, read after the pushes. -/
def execJsrAbsXInd (a : Word) (s : State) : Result :=
  let frame := wordBytes (s.pc + 2)
  let lock := newPushLock .jsrXInd 2 s
  let o := a + s.x
  let t := (s.pushAll lock frame).lockStack
  callTo (pushedCells lock s.e frame s.sp)
    (s.instrBytes [0, 1, 2] ++ [addressOf s.pb o, addressOf s.pb (o + 1)])
    { t with pc := t.mem.readWordB s.pb o }

/-- JSL al, $22 (R228). -/
def execJsl (al : Address) (s : State) : Result :=
  let lock := newPushLock .jsl 3 s
  callTo (pushedCells lock s.e (jslFrame s) s.sp) (s.instrBytes [0, 1, 2, 3])
    { (s.pushAll lock (jslFrame s)).lockStack with pc := offsetOf al, pb := bankOf al }

/-- RTS, $60 (R236). -/
def execRts (s : State) : Result :=
  let out := s.pull16 .perByte
  .next { out.2 with pc := out.1 + 1 }

/-- RTL, $6B (R235). -/
def execRtl (s : State) : Result :=
  let lock := newPullLock .rtl 3 s
  let target := s.pull16 lock
  let bank := target.2.pull8 lock
  .next { bank.2.lockStack with pc := target.1 + 1, pb := bank.1 }

/-- RTI, $40 (R234). -/
def execRti (s : State) : Result := .next (returnFromInterrupt s)

/-- BRK sig, $00 (R220). The signature byte is skipped (R257). -/
def execBrk (_sig : Byte) (s : State) : Result := .next (enter .brk (s.pc + 2) s)

/-- COP sig, $02 (R222). The signature byte is skipped (R257). -/
def execCop (_sig : Byte) (s : State) : Result := .next (enter .cop (s.pc + 2) s)

/-- STP, $DB (R238). -/
def execStp (s : State) : Result := .next { s.advance 1 with run := .stopped }

/-- WAI, $CB (R239). -/
def execWai (s : State) : Result := .next { s.advance 1 with run := .waiting }

/-- One byte of a block move (45_table7_other.md R231, R232): copy, DB becomes the destination bank, X and Y step
modulo 2^wx, A counts down over 16 bits, and PC stays until A wraps to $FFFF. -/
def moveByte (dst src : Byte) (delta : Word) (s : State) : Result :=
  let w := s.width .x
  .next
    { s with
      mem := s.mem.write (addressOf dst s.y) (s.mem.read (addressOf src s.x))
      db := dst
      x := widen w (lowPart w (s.x + delta))
      y := widen w (lowPart w (s.y + delta))
      a := s.a - 1
      pc := if s.a - 1 = 0xFFFF then s.pc + 3 else s.pc }

/-- MVN src,dst, $54 (R231). -/
def execMvn (dst src : Byte) (s : State) : Result := moveByte dst src 0x0001 s

/-- MVP src,dst, $44 (R232). -/
def execMvp (dst src : Byte) (s : State) : Result := moveByte dst src 0xFFFF s

end Sys2Proof.Machine
end

