-- ==== Sys2Proof/Machine/Implied.lean ====
section
/-! DEFINITION. CLC CLD CLI CLV SEC SED SEI, DEX DEY INX INY, NOP, WDM, REP, SEP, XBA:
42_table6_branch_flag_index.md R160 to R171, 30_encoding.md R82, 45_table7_other.md R233, R237, R240. -/

namespace Sys2Proof.Machine

/-- A flag instruction: one flag, one byte (42_table6_branch_flag_index.md, flag clear and set). -/
def flagInstr (f : Flag) (b : Bool) (s : State) : Result := .next ((s.setFlag f b).advance 1)

/-- A step of X by a difference, at the index width (R164, R166). -/
def stepX (delta : Word) (s : State) : Result :=
  let w := s.width .x
  let r := lowPart w (s.x + delta)
  .next (({ s with x := putLow w s.x r }.setNZ r).advance 1)

/-- A step of Y by a difference, at the index width (R165, R167). -/
def stepY (delta : Word) (s : State) : Result :=
  let w := s.width .x
  let r := lowPart w (s.y + delta)
  .next (({ s with y := putLow w s.y r }.setNZ r).advance 1)

/-- CLC, $18 (R160). -/
def execClc (s : State) : Result := flagInstr .c false s

/-- CLD, $D8 (R161). -/
def execCld (s : State) : Result := flagInstr .d false s

/-- CLI, $58 (R162). -/
def execCli (s : State) : Result := flagInstr .i false s

/-- CLV, $B8 (R163). -/
def execClv (s : State) : Result := flagInstr .v false s

/-- SEC, $38 (R169). -/
def execSec (s : State) : Result := flagInstr .c true s

/-- SED, $F8 (R170). -/
def execSed (s : State) : Result := flagInstr .d true s

/-- SEI, $78 (R171). -/
def execSei (s : State) : Result := flagInstr .i true s

/-- DEX, $CA (R164). -/
def execDex (s : State) : Result := stepX 0xFFFF s

/-- DEY, $88 (R165). -/
def execDey (s : State) : Result := stepY 0xFFFF s

/-- INX, $E8 (R166). -/
def execInx (s : State) : Result := stepX 0x0001 s

/-- INY, $C8 (R167). -/
def execIny (s : State) : Result := stepY 0x0001 s

/-- NOP, $EA (R168). -/
def execNop (s : State) : Result := .next (s.advance 1)

/-- Opcode $42 is WDM, the reserved two-byte instruction. R82 offers to refuse it or to let it do nothing; the
model takes what `Config.wdmPolicy` says (log 7). -/
def execWdm (_sig : Byte) (s : State) : Result :=
  match Config.wdmPolicy with
  | .nop2 => .next (s.advance 2)
  | .refuse => .refused .unassignedOpcode

/-- REP #, $C2 (R233). The new widths apply from the next instruction. -/
def execRep (imm : Byte) (s : State) : Result := .next ((s.writeP (s.p &&& ~~~imm)).advance 2)

/-- SEP #, $E2 (R237). -/
def execSep (imm : Byte) (s : State) : Result := .next ((s.writeP (s.p ||| imm)).advance 2)

/-- XBA, $EB (R240). N and Z follow the new AL at any width. -/
def execXba (s : State) : Result :=
  .next (({ s with a := word16 (hiByte s.a) (loByte s.a) }.setNZ (hiByte s.a)).advance 1)

end Sys2Proof.Machine
end

