-- ==== Sys2Proof/Machine/LoadStore.lean ====
section
/-! DEFINITION. LDA LDX LDY STA STX STY STZ: 41_table5_arithmetic_logical.md R130 to R132, R138 to R141. -/

namespace Sys2Proof.Machine

/-- LDA: the operand goes to A, N and Z follow it (R130). -/
def ldaWith (w : Width) (m : BitVec w.bits) (s : State) : State := { s with a := putLow w s.a m }.setNZ m

/-- LDX (R131). -/
def ldxWith (w : Width) (m : BitVec w.bits) (s : State) : State := { s with x := putLow w s.x m }.setNZ m

/-- LDY (R132). -/
def ldyWith (w : Width) (m : BitVec w.bits) (s : State) : State := { s with y := putLow w s.y m }.setNZ m

/-- LDA #, $A9 (R130). -/
def execLdaImm (imm : Word) (s : State) : Result := immInstr .m ldaWith imm s

/-- LDA d, $A5 (R130). -/
def execLdaDir (d : Byte) (s : State) : Result := readInstr .m ldaWith (.dir d) s

/-- LDA d,x, $B5 (R130). -/
def execLdaDirX (d : Byte) (s : State) : Result := readInstr .m ldaWith (.dirX d) s

/-- LDA (d), $B2 (R130). -/
def execLdaDirInd (d : Byte) (s : State) : Result := readInstr .m ldaWith (.dirInd d) s

/-- LDA (d,x), $A1 (R130). -/
def execLdaDirXInd (d : Byte) (s : State) : Result := readInstr .m ldaWith (.dirXInd d) s

/-- LDA (d),y, $B1 (R130). -/
def execLdaDirIndY (d : Byte) (s : State) : Result := readInstr .m ldaWith (.dirIndY d) s

/-- LDA [d], $A7 (R130). -/
def execLdaDirIndl (d : Byte) (s : State) : Result := readInstr .m ldaWith (.dirIndl d) s

/-- LDA [d],y, $B7 (R130). -/
def execLdaDirIndlY (d : Byte) (s : State) : Result := readInstr .m ldaWith (.dirIndlY d) s

/-- LDA a, $AD (R130). -/
def execLdaAbs (a : Word) (s : State) : Result := readInstr .m ldaWith (.abs a) s

/-- LDA a,x, $BD (R130). -/
def execLdaAbsX (a : Word) (s : State) : Result := readInstr .m ldaWith (.absX a) s

/-- LDA a,y, $B9 (R130). -/
def execLdaAbsY (a : Word) (s : State) : Result := readInstr .m ldaWith (.absY a) s

/-- LDA al, $AF (R130). -/
def execLdaAbsl (al : Address) (s : State) : Result := readInstr .m ldaWith (.absl al) s

/-- LDA al,x, $BF (R130). -/
def execLdaAbslX (al : Address) (s : State) : Result := readInstr .m ldaWith (.abslX al) s

/-- LDA d,s, $A3 (R130). -/
def execLdaSr (d : Byte) (s : State) : Result := readInstr .m ldaWith (.sr d) s

/-- LDA (d,s),y, $B3 (R130). -/
def execLdaSrIndY (d : Byte) (s : State) : Result := readInstr .m ldaWith (.srIndY d) s

/-- LDX #, $A2 (R131). -/
def execLdxImm (imm : Word) (s : State) : Result := immInstr .x ldxWith imm s

/-- LDX d, $A6 (R131). -/
def execLdxDir (d : Byte) (s : State) : Result := readInstr .x ldxWith (.dir d) s

/-- LDX d,y, $B6 (R131). -/
def execLdxDirY (d : Byte) (s : State) : Result := readInstr .x ldxWith (.dirY d) s

/-- LDX a, $AE (R131). -/
def execLdxAbs (a : Word) (s : State) : Result := readInstr .x ldxWith (.abs a) s

/-- LDX a,y, $BE (R131). -/
def execLdxAbsY (a : Word) (s : State) : Result := readInstr .x ldxWith (.absY a) s

/-- LDY #, $A0 (R132). -/
def execLdyImm (imm : Word) (s : State) : Result := immInstr .x ldyWith imm s

/-- LDY d, $A4 (R132). -/
def execLdyDir (d : Byte) (s : State) : Result := readInstr .x ldyWith (.dir d) s

/-- LDY d,x, $B4 (R132). -/
def execLdyDirX (d : Byte) (s : State) : Result := readInstr .x ldyWith (.dirX d) s

/-- LDY a, $AC (R132). -/
def execLdyAbs (a : Word) (s : State) : Result := readInstr .x ldyWith (.abs a) s

/-- LDY a,x, $BC (R132). -/
def execLdyAbsX (a : Word) (s : State) : Result := readInstr .x ldyWith (.absX a) s

/-- STA d, $85 (R138). -/
def execStaDir (d : Byte) (s : State) : Result := storeInstr .m s.a (.dir d) s

/-- STA d,x, $95 (R138). -/
def execStaDirX (d : Byte) (s : State) : Result := storeInstr .m s.a (.dirX d) s

/-- STA (d), $92 (R138). -/
def execStaDirInd (d : Byte) (s : State) : Result := storeInstr .m s.a (.dirInd d) s

/-- STA (d,x), $81 (R138). -/
def execStaDirXInd (d : Byte) (s : State) : Result := storeInstr .m s.a (.dirXInd d) s

/-- STA (d),y, $91 (R138). -/
def execStaDirIndY (d : Byte) (s : State) : Result := storeInstr .m s.a (.dirIndY d) s

/-- STA [d], $87 (R138). -/
def execStaDirIndl (d : Byte) (s : State) : Result := storeInstr .m s.a (.dirIndl d) s

/-- STA [d],y, $97 (R138). -/
def execStaDirIndlY (d : Byte) (s : State) : Result := storeInstr .m s.a (.dirIndlY d) s

/-- STA a, $8D (R138). -/
def execStaAbs (a : Word) (s : State) : Result := storeInstr .m s.a (.abs a) s

/-- STA a,x, $9D (R138). -/
def execStaAbsX (a : Word) (s : State) : Result := storeInstr .m s.a (.absX a) s

/-- STA a,y, $99 (R138). -/
def execStaAbsY (a : Word) (s : State) : Result := storeInstr .m s.a (.absY a) s

/-- STA al, $8F (R138). -/
def execStaAbsl (al : Address) (s : State) : Result := storeInstr .m s.a (.absl al) s

/-- STA al,x, $9F (R138). -/
def execStaAbslX (al : Address) (s : State) : Result := storeInstr .m s.a (.abslX al) s

/-- STA d,s, $83 (R138). -/
def execStaSr (d : Byte) (s : State) : Result := storeInstr .m s.a (.sr d) s

/-- STA (d,s),y, $93 (R138). -/
def execStaSrIndY (d : Byte) (s : State) : Result := storeInstr .m s.a (.srIndY d) s

/-- STX d, $86 (R139). -/
def execStxDir (d : Byte) (s : State) : Result := storeInstr .x s.x (.dir d) s

/-- STX d,y, $96 (R139). -/
def execStxDirY (d : Byte) (s : State) : Result := storeInstr .x s.x (.dirY d) s

/-- STX a, $8E (R139). -/
def execStxAbs (a : Word) (s : State) : Result := storeInstr .x s.x (.abs a) s

/-- STY d, $84 (R140). -/
def execStyDir (d : Byte) (s : State) : Result := storeInstr .x s.y (.dir d) s

/-- STY d,x, $94 (R140). -/
def execStyDirX (d : Byte) (s : State) : Result := storeInstr .x s.y (.dirX d) s

/-- STY a, $8C (R140). -/
def execStyAbs (a : Word) (s : State) : Result := storeInstr .x s.y (.abs a) s

/-- STZ d, $64 (R141). -/
def execStzDir (d : Byte) (s : State) : Result := storeInstr .m 0x0000 (.dir d) s

/-- STZ d,x, $74 (R141). -/
def execStzDirX (d : Byte) (s : State) : Result := storeInstr .m 0x0000 (.dirX d) s

/-- STZ a, $9C (R141). -/
def execStzAbs (a : Word) (s : State) : Result := storeInstr .m 0x0000 (.abs a) s

/-- STZ a,x, $9E (R141). -/
def execStzAbsX (a : Word) (s : State) : Result := storeInstr .m 0x0000 (.absX a) s

end Sys2Proof.Machine
end

