-- ==== Sys2Proof/Machine/Logic.lean ====
section
/-! DEFINITION. AND ORA EOR BIT TRB TSB: 41_table5_arithmetic_logical.md R121, R123, R128, R134, R142, R143.
-/

namespace Sys2Proof.Machine

/-- AND, ORA and EOR: the result goes to A, N and Z follow it (R121, R128, R134). -/
def logicWith (op : (w : Width) → BitVec w.bits → BitVec w.bits → BitVec w.bits) (w : Width) (m : BitVec w.bits)
    (s : State) : State :=
  let r := op w (lowPart w s.a) m
  { s with a := putLow w s.a r }.setNZ r

/-- The operation of AND (R121). -/
def andOp (w : Width) (a m : BitVec w.bits) : BitVec w.bits := a &&& m

/-- The operation of ORA (R134). -/
def oraOp (w : Width) (a m : BitVec w.bits) : BitVec w.bits := a ||| m

/-- The operation of EOR (R128). -/
def eorOp (w : Width) (a m : BitVec w.bits) : BitVec w.bits := a ^^^ m

/-- BIT immediate: Z only (R123, note 1). -/
def bitZero (w : Width) (m : BitVec w.bits) (s : State) : State :=
  s.setFlag .z (lowPart w s.a &&& m == 0#w.bits)

/-- BIT of memory: Z from A AND memory, N and V from the two top bits of memory (R123, note 1). -/
def bitMemory (w : Width) (m : BitVec w.bits) (s : State) : State :=
  ((bitZero w m s).setFlag .n m.msb).setFlag .v (m.getLsbD (w.bits - 2))

/-- TRB: clears in memory the bits that are set in A; Z from A AND memory (R142, note 8). -/
def trbValue (w : Width) (m : BitVec w.bits) (s : State) : BitVec w.bits × State :=
  (~~~lowPart w s.a &&& m, bitZero w m s)

/-- TSB: sets in memory the bits that are set in A; Z from A AND memory (R143, note 8). -/
def tsbValue (w : Width) (m : BitVec w.bits) (s : State) : BitVec w.bits × State :=
  (lowPart w s.a ||| m, bitZero w m s)

/-- AND #, $29 (R121). -/
def execAndImm (imm : Word) (s : State) : Result := immInstr .m (logicWith andOp) imm s

/-- AND d, $25 (R121). -/
def execAndDir (d : Byte) (s : State) : Result := readInstr .m (logicWith andOp) (.dir d) s

/-- AND d,x, $35 (R121). -/
def execAndDirX (d : Byte) (s : State) : Result := readInstr .m (logicWith andOp) (.dirX d) s

/-- AND (d), $32 (R121). -/
def execAndDirInd (d : Byte) (s : State) : Result := readInstr .m (logicWith andOp) (.dirInd d) s

/-- AND (d,x), $21 (R121). -/
def execAndDirXInd (d : Byte) (s : State) : Result := readInstr .m (logicWith andOp) (.dirXInd d) s

/-- AND (d),y, $31 (R121). -/
def execAndDirIndY (d : Byte) (s : State) : Result := readInstr .m (logicWith andOp) (.dirIndY d) s

/-- AND [d], $27 (R121). -/
def execAndDirIndl (d : Byte) (s : State) : Result := readInstr .m (logicWith andOp) (.dirIndl d) s

/-- AND [d],y, $37 (R121). -/
def execAndDirIndlY (d : Byte) (s : State) : Result := readInstr .m (logicWith andOp) (.dirIndlY d) s

/-- AND a, $2D (R121). -/
def execAndAbs (a : Word) (s : State) : Result := readInstr .m (logicWith andOp) (.abs a) s

/-- AND a,x, $3D (R121). -/
def execAndAbsX (a : Word) (s : State) : Result := readInstr .m (logicWith andOp) (.absX a) s

/-- AND a,y, $39 (R121). -/
def execAndAbsY (a : Word) (s : State) : Result := readInstr .m (logicWith andOp) (.absY a) s

/-- AND al, $2F (R121). -/
def execAndAbsl (al : Address) (s : State) : Result := readInstr .m (logicWith andOp) (.absl al) s

/-- AND al,x, $3F (R121). -/
def execAndAbslX (al : Address) (s : State) : Result := readInstr .m (logicWith andOp) (.abslX al) s

/-- AND d,s, $23 (R121). -/
def execAndSr (d : Byte) (s : State) : Result := readInstr .m (logicWith andOp) (.sr d) s

/-- AND (d,s),y, $33 (R121). -/
def execAndSrIndY (d : Byte) (s : State) : Result := readInstr .m (logicWith andOp) (.srIndY d) s

/-- ORA #, $09 (R134). -/
def execOraImm (imm : Word) (s : State) : Result := immInstr .m (logicWith oraOp) imm s

/-- ORA d, $05 (R134). -/
def execOraDir (d : Byte) (s : State) : Result := readInstr .m (logicWith oraOp) (.dir d) s

/-- ORA d,x, $15 (R134). -/
def execOraDirX (d : Byte) (s : State) : Result := readInstr .m (logicWith oraOp) (.dirX d) s

/-- ORA (d), $12 (R134). -/
def execOraDirInd (d : Byte) (s : State) : Result := readInstr .m (logicWith oraOp) (.dirInd d) s

/-- ORA (d,x), $01 (R134). -/
def execOraDirXInd (d : Byte) (s : State) : Result := readInstr .m (logicWith oraOp) (.dirXInd d) s

/-- ORA (d),y, $11 (R134). -/
def execOraDirIndY (d : Byte) (s : State) : Result := readInstr .m (logicWith oraOp) (.dirIndY d) s

/-- ORA [d], $07 (R134). -/
def execOraDirIndl (d : Byte) (s : State) : Result := readInstr .m (logicWith oraOp) (.dirIndl d) s

/-- ORA [d],y, $17 (R134). -/
def execOraDirIndlY (d : Byte) (s : State) : Result := readInstr .m (logicWith oraOp) (.dirIndlY d) s

/-- ORA a, $0D (R134). -/
def execOraAbs (a : Word) (s : State) : Result := readInstr .m (logicWith oraOp) (.abs a) s

/-- ORA a,x, $1D (R134). -/
def execOraAbsX (a : Word) (s : State) : Result := readInstr .m (logicWith oraOp) (.absX a) s

/-- ORA a,y, $19 (R134). -/
def execOraAbsY (a : Word) (s : State) : Result := readInstr .m (logicWith oraOp) (.absY a) s

/-- ORA al, $0F (R134). -/
def execOraAbsl (al : Address) (s : State) : Result := readInstr .m (logicWith oraOp) (.absl al) s

/-- ORA al,x, $1F (R134). -/
def execOraAbslX (al : Address) (s : State) : Result := readInstr .m (logicWith oraOp) (.abslX al) s

/-- ORA d,s, $03 (R134). -/
def execOraSr (d : Byte) (s : State) : Result := readInstr .m (logicWith oraOp) (.sr d) s

/-- ORA (d,s),y, $13 (R134). -/
def execOraSrIndY (d : Byte) (s : State) : Result := readInstr .m (logicWith oraOp) (.srIndY d) s

/-- EOR #, $49 (R128). -/
def execEorImm (imm : Word) (s : State) : Result := immInstr .m (logicWith eorOp) imm s

/-- EOR d, $45 (R128). -/
def execEorDir (d : Byte) (s : State) : Result := readInstr .m (logicWith eorOp) (.dir d) s

/-- EOR d,x, $55 (R128). -/
def execEorDirX (d : Byte) (s : State) : Result := readInstr .m (logicWith eorOp) (.dirX d) s

/-- EOR (d), $52 (R128). -/
def execEorDirInd (d : Byte) (s : State) : Result := readInstr .m (logicWith eorOp) (.dirInd d) s

/-- EOR (d,x), $41 (R128). -/
def execEorDirXInd (d : Byte) (s : State) : Result := readInstr .m (logicWith eorOp) (.dirXInd d) s

/-- EOR (d),y, $51 (R128). -/
def execEorDirIndY (d : Byte) (s : State) : Result := readInstr .m (logicWith eorOp) (.dirIndY d) s

/-- EOR [d], $47 (R128). -/
def execEorDirIndl (d : Byte) (s : State) : Result := readInstr .m (logicWith eorOp) (.dirIndl d) s

/-- EOR [d],y, $57 (R128). -/
def execEorDirIndlY (d : Byte) (s : State) : Result := readInstr .m (logicWith eorOp) (.dirIndlY d) s

/-- EOR a, $4D (R128). -/
def execEorAbs (a : Word) (s : State) : Result := readInstr .m (logicWith eorOp) (.abs a) s

/-- EOR a,x, $5D (R128). -/
def execEorAbsX (a : Word) (s : State) : Result := readInstr .m (logicWith eorOp) (.absX a) s

/-- EOR a,y, $59 (R128). -/
def execEorAbsY (a : Word) (s : State) : Result := readInstr .m (logicWith eorOp) (.absY a) s

/-- EOR al, $4F (R128). -/
def execEorAbsl (al : Address) (s : State) : Result := readInstr .m (logicWith eorOp) (.absl al) s

/-- EOR al,x, $5F (R128). -/
def execEorAbslX (al : Address) (s : State) : Result := readInstr .m (logicWith eorOp) (.abslX al) s

/-- EOR d,s, $43 (R128). -/
def execEorSr (d : Byte) (s : State) : Result := readInstr .m (logicWith eorOp) (.sr d) s

/-- EOR (d,s),y, $53 (R128). -/
def execEorSrIndY (d : Byte) (s : State) : Result := readInstr .m (logicWith eorOp) (.srIndY d) s

/-- BIT #, $89 (R123). -/
def execBitImm (imm : Word) (s : State) : Result := immInstr .m bitZero imm s

/-- BIT d, $24 (R123). -/
def execBitDir (d : Byte) (s : State) : Result := readInstr .m bitMemory (.dir d) s

/-- BIT d,x, $34 (R123). -/
def execBitDirX (d : Byte) (s : State) : Result := readInstr .m bitMemory (.dirX d) s

/-- BIT a, $2C (R123). -/
def execBitAbs (a : Word) (s : State) : Result := readInstr .m bitMemory (.abs a) s

/-- BIT a,x, $3C (R123). -/
def execBitAbsX (a : Word) (s : State) : Result := readInstr .m bitMemory (.absX a) s

/-- TRB d, $14 (R142). -/
def execTrbDir (d : Byte) (s : State) : Result := modifyInstr trbValue (.dir d) s

/-- TRB a, $1C (R142). -/
def execTrbAbs (a : Word) (s : State) : Result := modifyInstr trbValue (.abs a) s

/-- TSB d, $04 (R143). -/
def execTsbDir (d : Byte) (s : State) : Result := modifyInstr tsbValue (.dir d) s

/-- TSB a, $0C (R143). -/
def execTsbAbs (a : Word) (s : State) : Result := modifyInstr tsbValue (.abs a) s

end Sys2Proof.Machine
end

