-- ==== Sys2Proof/Machine/Shift.lean ====
section
/-! DEFINITION. ASL LSR ROL ROR: 41_table5_arithmetic_logical.md R122, R133, R135, R136. -/

namespace Sys2Proof.Machine

/-- A shift or rotation: the value to write back, C from the bit shifted out, N and Z from the result. -/
def shiftResult {n : Nat} (r : BitVec n) (out : Bool) (s : State) : BitVec n × State :=
  (r, (s.setFlag .c out).setNZ r)

/-- ASL (R122). -/
def aslValue (w : Width) (b : BitVec w.bits) (s : State) : BitVec w.bits × State :=
  shiftResult (b <<< 1) b.msb s

/-- LSR: N becomes 0, the top bit of the result (R133). -/
def lsrValue (w : Width) (b : BitVec w.bits) (s : State) : BitVec w.bits × State :=
  shiftResult (b >>> 1) (b.getLsbD 0) s

/-- ROL: the old C enters bit 0 (R135). -/
def rolValue (w : Width) (b : BitVec w.bits) (s : State) : BitVec w.bits × State :=
  shiftResult (b <<< 1 ||| (BitVec.ofBool (s.flag .c)).setWidth w.bits) b.msb s

/-- ROR: the old C enters the top bit (R136). -/
def rorValue (w : Width) (b : BitVec w.bits) (s : State) : BitVec w.bits × State :=
  shiftResult (b >>> 1 ||| (BitVec.ofBool (s.flag .c)).setWidth w.bits <<< (w.bits - 1)) (b.getLsbD 0) s

/-- ASL A, $0A (R122). -/
def execAslAcc (s : State) : Result := modifyAcc aslValue s

/-- ASL d, $06 (R122). -/
def execAslDir (d : Byte) (s : State) : Result := modifyInstr aslValue (.dir d) s

/-- ASL d,x, $16 (R122). -/
def execAslDirX (d : Byte) (s : State) : Result := modifyInstr aslValue (.dirX d) s

/-- ASL a, $0E (R122). -/
def execAslAbs (a : Word) (s : State) : Result := modifyInstr aslValue (.abs a) s

/-- ASL a,x, $1E (R122). -/
def execAslAbsX (a : Word) (s : State) : Result := modifyInstr aslValue (.absX a) s

/-- LSR A, $4A (R133). -/
def execLsrAcc (s : State) : Result := modifyAcc lsrValue s

/-- LSR d, $46 (R133). -/
def execLsrDir (d : Byte) (s : State) : Result := modifyInstr lsrValue (.dir d) s

/-- LSR d,x, $56 (R133). -/
def execLsrDirX (d : Byte) (s : State) : Result := modifyInstr lsrValue (.dirX d) s

/-- LSR a, $4E (R133). -/
def execLsrAbs (a : Word) (s : State) : Result := modifyInstr lsrValue (.abs a) s

/-- LSR a,x, $5E (R133). -/
def execLsrAbsX (a : Word) (s : State) : Result := modifyInstr lsrValue (.absX a) s

/-- ROL A, $2A (R135). -/
def execRolAcc (s : State) : Result := modifyAcc rolValue s

/-- ROL d, $26 (R135). -/
def execRolDir (d : Byte) (s : State) : Result := modifyInstr rolValue (.dir d) s

/-- ROL d,x, $36 (R135). -/
def execRolDirX (d : Byte) (s : State) : Result := modifyInstr rolValue (.dirX d) s

/-- ROL a, $2E (R135). -/
def execRolAbs (a : Word) (s : State) : Result := modifyInstr rolValue (.abs a) s

/-- ROL a,x, $3E (R135). -/
def execRolAbsX (a : Word) (s : State) : Result := modifyInstr rolValue (.absX a) s

/-- ROR A, $6A (R136). -/
def execRorAcc (s : State) : Result := modifyAcc rorValue s

/-- ROR d, $66 (R136). -/
def execRorDir (d : Byte) (s : State) : Result := modifyInstr rorValue (.dir d) s

/-- ROR d,x, $76 (R136). -/
def execRorDirX (d : Byte) (s : State) : Result := modifyInstr rorValue (.dirX d) s

/-- ROR a, $6E (R136). -/
def execRorAbs (a : Word) (s : State) : Result := modifyInstr rorValue (.abs a) s

/-- ROR a,x, $7E (R136). -/
def execRorAbsX (a : Word) (s : State) : Result := modifyInstr rorValue (.absX a) s

end Sys2Proof.Machine
end

