-- ==== Sys2Proof/Machine/Stack.lean ====
section
/-! DEFINITION. PEA PEI PER PHA PHB PHD PHK PHP PHX PHY PLA PLB PLD PLP PLX PLY: 43_table6_push_pull.md R180
to R195. -/

namespace Sys2Proof.Machine

/-- A push of the low part of a register at a width (R183, R188, R189). -/
def pushReg (w : Width) (r : Word) (s : State) : Result :=
  match w with
  | .w8 => .next ((s.push .perByte (loByte r)).advance 1)
  | .w16 => .next ((s.pushAll .perByte (wordBytes r)).advance 1)

/-- A push of one byte by a one-byte instruction (R184, R186, R187). -/
def pushByte (v : Byte) (s : State) : Result := .next ((s.push .perByte v).advance 1)

/-- A push of one word by an instruction the 6502 lacks (R180, R181, R182, R185; U6). -/
def pushNewWord (op : NewStackOp) (v : Word) (len : Word) (s : State) : Result :=
  .next (((s.pushAll (newPushLock op 2 s) (wordBytes v)).lockStack).advance len)

/-- A pull at a width, which goes to a register through `f` and sets N and Z (R190, R194, R195). -/
def pullReg (sel : Selector) (f : (w : Width) → BitVec w.bits → State → State) (s : State) : Result :=
  match s.width sel with
  | .w8 =>
    let out := s.pull8 .perByte
    .next ((f .w8 out.1 out.2).advance 1)
  | .w16 =>
    let out := s.pull16 .perByte
    .next ((f .w16 out.1 out.2).advance 1)

/-- A value pulled into A (R190). -/
def pulledA (w : Width) (v : BitVec w.bits) (s : State) : State := { s with a := putLow w s.a v }.setNZ v

/-- A value pulled into X (R194). -/
def pulledX (w : Width) (v : BitVec w.bits) (s : State) : State := { s with x := putLow w s.x v }.setNZ v

/-- A value pulled into Y (R195). -/
def pulledY (w : Width) (v : BitVec w.bits) (s : State) : State := { s with y := putLow w s.y v }.setNZ v

/-- PEA #, $F4 (R180). -/
def execPea (imm : Word) (s : State) : Result := pushNewWord .pea imm 3 s

/-- PEI (d), $D4 (R181). No page wrap in any mode (R114). -/
def execPei (d : Byte) (s : State) : Result := pushNewWord .pei (s.mem.readWordB 0 (s.direct d)) 2 s

/-- PER r, $62 (R182). -/
def execPer (r : Word) (s : State) : Result := pushNewWord .per (s.pc + 3 + r) 3 s

/-- PHA, $48 (R183). -/
def execPha (s : State) : Result := pushReg (s.width .m) s.a s

/-- PHB, $8B (R184). -/
def execPhb (s : State) : Result := pushByte s.db s

/-- PHD, $0B (R185). -/
def execPhd (s : State) : Result := pushNewWord .phd s.d 1 s

/-- PHK, $4B (R186). -/
def execPhk (s : State) : Result := pushByte s.pb s

/-- PHP, $08 (R187). -/
def execPhp (s : State) : Result := pushByte s.p s

/-- PHX, $DA (R188). -/
def execPhx (s : State) : Result := pushReg (s.width .x) s.x s

/-- PHY, $5A (R189). -/
def execPhy (s : State) : Result := pushReg (s.width .x) s.y s

/-- PLA, $68 (R190). -/
def execPla (s : State) : Result := pullReg .m pulledA s

/-- PLB, $AB (R191). -/
def execPlb (s : State) : Result :=
  let out := s.pull8 (newPullLock .plb 1 s)
  .next (({ out.2.lockStack with db := out.1 }.setNZ out.1).advance 1)

/-- PLD, $2B (R192). -/
def execPld (s : State) : Result :=
  let out := s.pull16 (newPullLock .pld 2 s)
  .next (({ out.2.lockStack with d := out.1 }.setNZ out.1).advance 1)

/-- PLP, $28 (R193). -/
def execPlp (s : State) : Result :=
  let out := s.pull8 .perByte
  .next ((out.2.writeP out.1).advance 1)

/-- PLX, $FA (R194). -/
def execPlx (s : State) : Result := pullReg .x pulledX s

/-- PLY, $7A (R195). -/
def execPly (s : State) : Result := pullReg .x pulledY s

end Sys2Proof.Machine
end

