-- ==== Sys2Proof/Machine/Transfer.lean ====
section
/-! DEFINITION. TAX TAY TCD TCS TDC TSC TSX TXA TXS TXY TYA TYX XCE: 44_table6_transfer.md R200 to R212. -/

namespace Sys2Proof.Machine

/-- A transfer into A at the accumulator width (R207, R210). -/
def toA (v : Word) (s : State) : Result :=
  let w := s.width .m
  .next (({ s with a := putLow w s.a (lowPart w v) }.setNZ (lowPart w v)).advance 1)

/-- A transfer into X at the index width (R200, R206, R211). -/
def toX (v : Word) (s : State) : Result :=
  let w := s.width .x
  .next (({ s with x := putLow w s.x (lowPart w v) }.setNZ (lowPart w v)).advance 1)

/-- A transfer into Y at the index width (R201, R209). -/
def toY (v : Word) (s : State) : Result :=
  let w := s.width .x
  .next (({ s with y := putLow w s.y (lowPart w v) }.setNZ (lowPart w v)).advance 1)

/-- The locks that XCE establishes when the new E is 1 (10_state.md R33, 44_table6_transfer.md R212). -/
def enterEmulation (s : State) : State :=
  ((s.setFlag .m true).setFlag .x true).clearIndexHigh.lockStack

/-- TAX, $AA (R200). -/
def execTax (s : State) : Result := toX s.a s

/-- TAY, $A8 (R201). -/
def execTay (s : State) : Result := toY s.a s

/-- TCD, $5B (R202). -/
def execTcd (s : State) : Result := .next (({ s with d := s.a }.setNZ s.a).advance 1)

/-- TCS, $1B (R203). No flag changes. -/
def execTcs (s : State) : Result := .next ({ s with sp := lockPage s.e s.a }.advance 1)

/-- TDC, $7B (R204). -/
def execTdc (s : State) : Result := .next (({ s with a := s.d }.setNZ s.d).advance 1)

/-- TSC, $3B (R205). -/
def execTsc (s : State) : Result := .next (({ s with a := s.sp }.setNZ s.sp).advance 1)

/-- TSX, $BA (R206). -/
def execTsx (s : State) : Result := toX s.sp s

/-- TXA, $8A (R207). -/
def execTxa (s : State) : Result := toA s.x s

/-- TXS, $9A (R208). No flag changes; with E = 0 all of X (note 4). -/
def execTxs (s : State) : Result := .next ({ s with sp := lockPage s.e s.x }.advance 1)

/-- TXY, $9B (R209). -/
def execTxy (s : State) : Result := toY s.x s

/-- TYA, $98 (R210). -/
def execTya (s : State) : Result := toA s.y s

/-- TYX, $BB (R211). -/
def execTyx (s : State) : Result := toX s.y s

/-- XCE, $FB (R212). -/
def execXce (s : State) : Result :=
  let t := { s with e := s.flag .c }.setFlag .c s.e
  .next ((if t.e then enterEmulation t else t).advance 1)

end Sys2Proof.Machine
end

