-- ==== Sys2Proof/Machine/Dispatch.lean ====
section
/-! DEFINITION. `exec`: one arm per constructor of Instr, each one call of its meaning. -/

namespace Sys2Proof.Machine

def exec (i : Instr) (s : State) : Host.Outcome State Fault Refusal :=
  match i with
  | .adcDirXInd d => Sys2Proof.Machine.execAdcDirXInd d s
  | .adcSr d => Sys2Proof.Machine.execAdcSr d s
  | .adcDir d => Sys2Proof.Machine.execAdcDir d s
  | .adcDirIndl d => Sys2Proof.Machine.execAdcDirIndl d s
  | .adcImm imm => Sys2Proof.Machine.execAdcImm imm s
  | .adcAbs a => Sys2Proof.Machine.execAdcAbs a s
  | .adcAbsl al => Sys2Proof.Machine.execAdcAbsl al s
  | .adcDirIndY d => Sys2Proof.Machine.execAdcDirIndY d s
  | .adcDirInd d => Sys2Proof.Machine.execAdcDirInd d s
  | .adcSrIndY d => Sys2Proof.Machine.execAdcSrIndY d s
  | .adcDirX d => Sys2Proof.Machine.execAdcDirX d s
  | .adcDirIndlY d => Sys2Proof.Machine.execAdcDirIndlY d s
  | .adcAbsY a => Sys2Proof.Machine.execAdcAbsY a s
  | .adcAbsX a => Sys2Proof.Machine.execAdcAbsX a s
  | .adcAbslX al => Sys2Proof.Machine.execAdcAbslX al s
  | .andDirXInd d => Sys2Proof.Machine.execAndDirXInd d s
  | .andSr d => Sys2Proof.Machine.execAndSr d s
  | .andDir d => Sys2Proof.Machine.execAndDir d s
  | .andDirIndl d => Sys2Proof.Machine.execAndDirIndl d s
  | .andImm imm => Sys2Proof.Machine.execAndImm imm s
  | .andAbs a => Sys2Proof.Machine.execAndAbs a s
  | .andAbsl al => Sys2Proof.Machine.execAndAbsl al s
  | .andDirIndY d => Sys2Proof.Machine.execAndDirIndY d s
  | .andDirInd d => Sys2Proof.Machine.execAndDirInd d s
  | .andSrIndY d => Sys2Proof.Machine.execAndSrIndY d s
  | .andDirX d => Sys2Proof.Machine.execAndDirX d s
  | .andDirIndlY d => Sys2Proof.Machine.execAndDirIndlY d s
  | .andAbsY a => Sys2Proof.Machine.execAndAbsY a s
  | .andAbsX a => Sys2Proof.Machine.execAndAbsX a s
  | .andAbslX al => Sys2Proof.Machine.execAndAbslX al s
  | .aslDir d => Sys2Proof.Machine.execAslDir d s
  | .aslAcc => Sys2Proof.Machine.execAslAcc s
  | .aslAbs a => Sys2Proof.Machine.execAslAbs a s
  | .aslDirX d => Sys2Proof.Machine.execAslDirX d s
  | .aslAbsX a => Sys2Proof.Machine.execAslAbsX a s
  | .bitDir d => Sys2Proof.Machine.execBitDir d s
  | .bitAbs a => Sys2Proof.Machine.execBitAbs a s
  | .bitDirX d => Sys2Proof.Machine.execBitDirX d s
  | .bitAbsX a => Sys2Proof.Machine.execBitAbsX a s
  | .bitImm imm => Sys2Proof.Machine.execBitImm imm s
  | .cmpDirXInd d => Sys2Proof.Machine.execCmpDirXInd d s
  | .cmpSr d => Sys2Proof.Machine.execCmpSr d s
  | .cmpDir d => Sys2Proof.Machine.execCmpDir d s
  | .cmpDirIndl d => Sys2Proof.Machine.execCmpDirIndl d s
  | .cmpImm imm => Sys2Proof.Machine.execCmpImm imm s
  | .cmpAbs a => Sys2Proof.Machine.execCmpAbs a s
  | .cmpAbsl al => Sys2Proof.Machine.execCmpAbsl al s
  | .cmpDirIndY d => Sys2Proof.Machine.execCmpDirIndY d s
  | .cmpDirInd d => Sys2Proof.Machine.execCmpDirInd d s
  | .cmpSrIndY d => Sys2Proof.Machine.execCmpSrIndY d s
  | .cmpDirX d => Sys2Proof.Machine.execCmpDirX d s
  | .cmpDirIndlY d => Sys2Proof.Machine.execCmpDirIndlY d s
  | .cmpAbsY a => Sys2Proof.Machine.execCmpAbsY a s
  | .cmpAbsX a => Sys2Proof.Machine.execCmpAbsX a s
  | .cmpAbslX al => Sys2Proof.Machine.execCmpAbslX al s
  | .cpxImm imm => Sys2Proof.Machine.execCpxImm imm s
  | .cpxDir d => Sys2Proof.Machine.execCpxDir d s
  | .cpxAbs a => Sys2Proof.Machine.execCpxAbs a s
  | .cpyImm imm => Sys2Proof.Machine.execCpyImm imm s
  | .cpyDir d => Sys2Proof.Machine.execCpyDir d s
  | .cpyAbs a => Sys2Proof.Machine.execCpyAbs a s
  | .decAcc => Sys2Proof.Machine.execDecAcc s
  | .decDir d => Sys2Proof.Machine.execDecDir d s
  | .decAbs a => Sys2Proof.Machine.execDecAbs a s
  | .decDirX d => Sys2Proof.Machine.execDecDirX d s
  | .decAbsX a => Sys2Proof.Machine.execDecAbsX a s
  | .eorDirXInd d => Sys2Proof.Machine.execEorDirXInd d s
  | .eorSr d => Sys2Proof.Machine.execEorSr d s
  | .eorDir d => Sys2Proof.Machine.execEorDir d s
  | .eorDirIndl d => Sys2Proof.Machine.execEorDirIndl d s
  | .eorImm imm => Sys2Proof.Machine.execEorImm imm s
  | .eorAbs a => Sys2Proof.Machine.execEorAbs a s
  | .eorAbsl al => Sys2Proof.Machine.execEorAbsl al s
  | .eorDirIndY d => Sys2Proof.Machine.execEorDirIndY d s
  | .eorDirInd d => Sys2Proof.Machine.execEorDirInd d s
  | .eorSrIndY d => Sys2Proof.Machine.execEorSrIndY d s
  | .eorDirX d => Sys2Proof.Machine.execEorDirX d s
  | .eorDirIndlY d => Sys2Proof.Machine.execEorDirIndlY d s
  | .eorAbsY a => Sys2Proof.Machine.execEorAbsY a s
  | .eorAbsX a => Sys2Proof.Machine.execEorAbsX a s
  | .eorAbslX al => Sys2Proof.Machine.execEorAbslX al s
  | .incAcc => Sys2Proof.Machine.execIncAcc s
  | .incDir d => Sys2Proof.Machine.execIncDir d s
  | .incAbs a => Sys2Proof.Machine.execIncAbs a s
  | .incDirX d => Sys2Proof.Machine.execIncDirX d s
  | .incAbsX a => Sys2Proof.Machine.execIncAbsX a s
  | .ldaDirXInd d => Sys2Proof.Machine.execLdaDirXInd d s
  | .ldaSr d => Sys2Proof.Machine.execLdaSr d s
  | .ldaDir d => Sys2Proof.Machine.execLdaDir d s
  | .ldaDirIndl d => Sys2Proof.Machine.execLdaDirIndl d s
  | .ldaImm imm => Sys2Proof.Machine.execLdaImm imm s
  | .ldaAbs a => Sys2Proof.Machine.execLdaAbs a s
  | .ldaAbsl al => Sys2Proof.Machine.execLdaAbsl al s
  | .ldaDirIndY d => Sys2Proof.Machine.execLdaDirIndY d s
  | .ldaDirInd d => Sys2Proof.Machine.execLdaDirInd d s
  | .ldaSrIndY d => Sys2Proof.Machine.execLdaSrIndY d s
  | .ldaDirX d => Sys2Proof.Machine.execLdaDirX d s
  | .ldaDirIndlY d => Sys2Proof.Machine.execLdaDirIndlY d s
  | .ldaAbsY a => Sys2Proof.Machine.execLdaAbsY a s
  | .ldaAbsX a => Sys2Proof.Machine.execLdaAbsX a s
  | .ldaAbslX al => Sys2Proof.Machine.execLdaAbslX al s
  | .ldxImm imm => Sys2Proof.Machine.execLdxImm imm s
  | .ldxDir d => Sys2Proof.Machine.execLdxDir d s
  | .ldxAbs a => Sys2Proof.Machine.execLdxAbs a s
  | .ldxDirY d => Sys2Proof.Machine.execLdxDirY d s
  | .ldxAbsY a => Sys2Proof.Machine.execLdxAbsY a s
  | .ldyImm imm => Sys2Proof.Machine.execLdyImm imm s
  | .ldyDir d => Sys2Proof.Machine.execLdyDir d s
  | .ldyAbs a => Sys2Proof.Machine.execLdyAbs a s
  | .ldyDirX d => Sys2Proof.Machine.execLdyDirX d s
  | .ldyAbsX a => Sys2Proof.Machine.execLdyAbsX a s
  | .lsrDir d => Sys2Proof.Machine.execLsrDir d s
  | .lsrAcc => Sys2Proof.Machine.execLsrAcc s
  | .lsrAbs a => Sys2Proof.Machine.execLsrAbs a s
  | .lsrDirX d => Sys2Proof.Machine.execLsrDirX d s
  | .lsrAbsX a => Sys2Proof.Machine.execLsrAbsX a s
  | .oraDirXInd d => Sys2Proof.Machine.execOraDirXInd d s
  | .oraSr d => Sys2Proof.Machine.execOraSr d s
  | .oraDir d => Sys2Proof.Machine.execOraDir d s
  | .oraDirIndl d => Sys2Proof.Machine.execOraDirIndl d s
  | .oraImm imm => Sys2Proof.Machine.execOraImm imm s
  | .oraAbs a => Sys2Proof.Machine.execOraAbs a s
  | .oraAbsl al => Sys2Proof.Machine.execOraAbsl al s
  | .oraDirIndY d => Sys2Proof.Machine.execOraDirIndY d s
  | .oraDirInd d => Sys2Proof.Machine.execOraDirInd d s
  | .oraSrIndY d => Sys2Proof.Machine.execOraSrIndY d s
  | .oraDirX d => Sys2Proof.Machine.execOraDirX d s
  | .oraDirIndlY d => Sys2Proof.Machine.execOraDirIndlY d s
  | .oraAbsY a => Sys2Proof.Machine.execOraAbsY a s
  | .oraAbsX a => Sys2Proof.Machine.execOraAbsX a s
  | .oraAbslX al => Sys2Proof.Machine.execOraAbslX al s
  | .rolDir d => Sys2Proof.Machine.execRolDir d s
  | .rolAcc => Sys2Proof.Machine.execRolAcc s
  | .rolAbs a => Sys2Proof.Machine.execRolAbs a s
  | .rolDirX d => Sys2Proof.Machine.execRolDirX d s
  | .rolAbsX a => Sys2Proof.Machine.execRolAbsX a s
  | .rorDir d => Sys2Proof.Machine.execRorDir d s
  | .rorAcc => Sys2Proof.Machine.execRorAcc s
  | .rorAbs a => Sys2Proof.Machine.execRorAbs a s
  | .rorDirX d => Sys2Proof.Machine.execRorDirX d s
  | .rorAbsX a => Sys2Proof.Machine.execRorAbsX a s
  | .sbcDirXInd d => Sys2Proof.Machine.execSbcDirXInd d s
  | .sbcSr d => Sys2Proof.Machine.execSbcSr d s
  | .sbcDir d => Sys2Proof.Machine.execSbcDir d s
  | .sbcDirIndl d => Sys2Proof.Machine.execSbcDirIndl d s
  | .sbcImm imm => Sys2Proof.Machine.execSbcImm imm s
  | .sbcAbs a => Sys2Proof.Machine.execSbcAbs a s
  | .sbcAbsl al => Sys2Proof.Machine.execSbcAbsl al s
  | .sbcDirIndY d => Sys2Proof.Machine.execSbcDirIndY d s
  | .sbcDirInd d => Sys2Proof.Machine.execSbcDirInd d s
  | .sbcSrIndY d => Sys2Proof.Machine.execSbcSrIndY d s
  | .sbcDirX d => Sys2Proof.Machine.execSbcDirX d s
  | .sbcDirIndlY d => Sys2Proof.Machine.execSbcDirIndlY d s
  | .sbcAbsY a => Sys2Proof.Machine.execSbcAbsY a s
  | .sbcAbsX a => Sys2Proof.Machine.execSbcAbsX a s
  | .sbcAbslX al => Sys2Proof.Machine.execSbcAbslX al s
  | .staDirXInd d => Sys2Proof.Machine.execStaDirXInd d s
  | .staSr d => Sys2Proof.Machine.execStaSr d s
  | .staDir d => Sys2Proof.Machine.execStaDir d s
  | .staDirIndl d => Sys2Proof.Machine.execStaDirIndl d s
  | .staAbs a => Sys2Proof.Machine.execStaAbs a s
  | .staAbsl al => Sys2Proof.Machine.execStaAbsl al s
  | .staDirIndY d => Sys2Proof.Machine.execStaDirIndY d s
  | .staDirInd d => Sys2Proof.Machine.execStaDirInd d s
  | .staSrIndY d => Sys2Proof.Machine.execStaSrIndY d s
  | .staDirX d => Sys2Proof.Machine.execStaDirX d s
  | .staDirIndlY d => Sys2Proof.Machine.execStaDirIndlY d s
  | .staAbsY a => Sys2Proof.Machine.execStaAbsY a s
  | .staAbsX a => Sys2Proof.Machine.execStaAbsX a s
  | .staAbslX al => Sys2Proof.Machine.execStaAbslX al s
  | .stxDir d => Sys2Proof.Machine.execStxDir d s
  | .stxAbs a => Sys2Proof.Machine.execStxAbs a s
  | .stxDirY d => Sys2Proof.Machine.execStxDirY d s
  | .styDir d => Sys2Proof.Machine.execStyDir d s
  | .styAbs a => Sys2Proof.Machine.execStyAbs a s
  | .styDirX d => Sys2Proof.Machine.execStyDirX d s
  | .stzDir d => Sys2Proof.Machine.execStzDir d s
  | .stzDirX d => Sys2Proof.Machine.execStzDirX d s
  | .stzAbs a => Sys2Proof.Machine.execStzAbs a s
  | .stzAbsX a => Sys2Proof.Machine.execStzAbsX a s
  | .trbDir d => Sys2Proof.Machine.execTrbDir d s
  | .trbAbs a => Sys2Proof.Machine.execTrbAbs a s
  | .tsbDir d => Sys2Proof.Machine.execTsbDir d s
  | .tsbAbs a => Sys2Proof.Machine.execTsbAbs a s
  | .bcc r => Sys2Proof.Machine.execBcc r s
  | .bcs r => Sys2Proof.Machine.execBcs r s
  | .beq r => Sys2Proof.Machine.execBeq r s
  | .bmi r => Sys2Proof.Machine.execBmi r s
  | .bne r => Sys2Proof.Machine.execBne r s
  | .bpl r => Sys2Proof.Machine.execBpl r s
  | .bra r => Sys2Proof.Machine.execBra r s
  | .bvc r => Sys2Proof.Machine.execBvc r s
  | .bvs r => Sys2Proof.Machine.execBvs r s
  | .clc => Sys2Proof.Machine.execClc s
  | .cld => Sys2Proof.Machine.execCld s
  | .cli => Sys2Proof.Machine.execCli s
  | .clv => Sys2Proof.Machine.execClv s
  | .dex => Sys2Proof.Machine.execDex s
  | .dey => Sys2Proof.Machine.execDey s
  | .inx => Sys2Proof.Machine.execInx s
  | .iny => Sys2Proof.Machine.execIny s
  | .nop => Sys2Proof.Machine.execNop s
  | .sec => Sys2Proof.Machine.execSec s
  | .sed => Sys2Proof.Machine.execSed s
  | .sei => Sys2Proof.Machine.execSei s
  | .pea imm => Sys2Proof.Machine.execPea imm s
  | .pei d => Sys2Proof.Machine.execPei d s
  | .per r => Sys2Proof.Machine.execPer r s
  | .pha => Sys2Proof.Machine.execPha s
  | .phb => Sys2Proof.Machine.execPhb s
  | .phd => Sys2Proof.Machine.execPhd s
  | .phk => Sys2Proof.Machine.execPhk s
  | .php => Sys2Proof.Machine.execPhp s
  | .phx => Sys2Proof.Machine.execPhx s
  | .phy => Sys2Proof.Machine.execPhy s
  | .pla => Sys2Proof.Machine.execPla s
  | .plb => Sys2Proof.Machine.execPlb s
  | .pld => Sys2Proof.Machine.execPld s
  | .plp => Sys2Proof.Machine.execPlp s
  | .plx => Sys2Proof.Machine.execPlx s
  | .ply => Sys2Proof.Machine.execPly s
  | .tax => Sys2Proof.Machine.execTax s
  | .tay => Sys2Proof.Machine.execTay s
  | .tcd => Sys2Proof.Machine.execTcd s
  | .tcs => Sys2Proof.Machine.execTcs s
  | .tdc => Sys2Proof.Machine.execTdc s
  | .tsc => Sys2Proof.Machine.execTsc s
  | .tsx => Sys2Proof.Machine.execTsx s
  | .txa => Sys2Proof.Machine.execTxa s
  | .txs => Sys2Proof.Machine.execTxs s
  | .txy => Sys2Proof.Machine.execTxy s
  | .tya => Sys2Proof.Machine.execTya s
  | .tyx => Sys2Proof.Machine.execTyx s
  | .xce => Sys2Proof.Machine.execXce s
  | .brk sig => Sys2Proof.Machine.execBrk sig s
  | .brl r => Sys2Proof.Machine.execBrl r s
  | .cop sig => Sys2Proof.Machine.execCop sig s
  | .jml a => Sys2Proof.Machine.execJml a s
  | .jmpAbs a => Sys2Proof.Machine.execJmpAbs a s
  | .jmpAbsInd a => Sys2Proof.Machine.execJmpAbsInd a s
  | .jmpAbsXInd a => Sys2Proof.Machine.execJmpAbsXInd a s
  | .jmpAbsl al => Sys2Proof.Machine.execJmpAbsl al s
  | .jsl al => Sys2Proof.Machine.execJsl al s
  | .jsrAbs a => Sys2Proof.Machine.execJsrAbs a s
  | .jsrAbsXInd a => Sys2Proof.Machine.execJsrAbsXInd a s
  | .mvn dst src => Sys2Proof.Machine.execMvn dst src s
  | .mvp dst src => Sys2Proof.Machine.execMvp dst src s
  | .rep imm => Sys2Proof.Machine.execRep imm s
  | .rti => Sys2Proof.Machine.execRti s
  | .rtl => Sys2Proof.Machine.execRtl s
  | .rts => Sys2Proof.Machine.execRts s
  | .sep imm => Sys2Proof.Machine.execSep imm s
  | .stp => Sys2Proof.Machine.execStp s
  | .wai => Sys2Proof.Machine.execWai s
  | .xba => Sys2Proof.Machine.execXba s
  | .wdm sig => Sys2Proof.Machine.execWdm sig s

end Sys2Proof.Machine
end

