-- ==== Sys2Proof/Machine/Step.lean ====
section
/-! DEFINITION. One step of the machine (60_exceptions.md R259, R263, R264), and the placing of one instruction
where a step fetches it. -/

namespace Sys2Proof.Machine

/-- One step: take the sample of the inputs, then do what the boundary says: Reset(), an interrupt entry, the
end or the going on of a wait, nothing, or the instruction at PB:PC (60_exceptions.md R259, R263, R264). -/
def step (s : State) : Host.Outcome State Fault Refusal :=
  match boundary s.sample s.latch with
  | .reset => .next (resetSequence s.latch)
  | .abort => .refused .abortInput
  | .enter kind => .next (enter kind s.latch.pc s.latch)
  | .resume => .next { s.latch with run := .running }
  | .idle => .next s.latch
  | .execute => exec s.latch.fetchInstr s.latch

/-- The state `s` with the four bytes of an instruction's bits stored where the next step fetches, and with
nothing at the next boundary but that fetch: running, no NMI pending, no input asserted (log 19). -/
def State.withFetchWord (s : State) (nbits w : Nat) : State :=
  let v := w % 2 ^ nbits
  let byteAt (k : Nat) : Byte := BitVec.ofNat 8 (v / 2 ^ (8 * k))
  { s with
    mem := (((s.mem.place (s.fetchAddress 0) (byteAt 0)).place (s.fetchAddress 1) (byteAt 1)).place
      (s.fetchAddress 2) (byteAt 2)).place (s.fetchAddress 3) (byteAt 3)
    run := .running
    nmiPending := false
    inputs := [] }

end Sys2Proof.Machine
end

