-- ==== Sys2Proof/Machine/Forms.lean ====
section
/-! DEFINITION. Which instruction of Table 5 has which operand form (40_addressing_modes.md R117): for each set of
forms that instructions share, the forms as a type, and the constructor of Instr that each mnemonic has for a
form. Claims that hold for every form of an instruction quantify over these types. -/

namespace Sys2Proof.Machine

/-- An operand that an instruction reads: an immediate or a memory operand. -/
inductive Source
  | imm (v : Word)
  | mem (addr : Addr)
  deriving DecidableEq, Repr

/-- The operand's value at a width (40_addressing_modes.md R90, R91). -/
def Source.value (w : Width) (s : State) : Source → BitVec w.bits
  | .imm v => immOperand v w
  | .mem addr => s.operand addr w

/-- The length of an instruction with this operand (30_encoding.md R71). -/
def Source.length (w : Width) : Source → Word
  | .imm _ => immLength w
  | .mem addr => addr.length

/-- The forms of ADC AND CMP EOR LDA ORA SBC. -/
inductive AccForm
  | imm (v : Word)
  | dir (d : Byte)
  | dirX (d : Byte)
  | dirInd (d : Byte)
  | dirXInd (d : Byte)
  | dirIndY (d : Byte)
  | dirIndl (d : Byte)
  | dirIndlY (d : Byte)
  | abs (a : Word)
  | absX (a : Word)
  | absY (a : Word)
  | absl (al : Address)
  | abslX (al : Address)
  | sr (d : Byte)
  | srIndY (d : Byte)
  deriving DecidableEq, Repr

/-- The operand of a form. -/
def AccForm.source : AccForm → Source
  | .imm v => .imm v
  | .dir d => .mem (.dir d)
  | .dirX d => .mem (.dirX d)
  | .dirInd d => .mem (.dirInd d)
  | .dirXInd d => .mem (.dirXInd d)
  | .dirIndY d => .mem (.dirIndY d)
  | .dirIndl d => .mem (.dirIndl d)
  | .dirIndlY d => .mem (.dirIndlY d)
  | .abs a => .mem (.abs a)
  | .absX a => .mem (.absX a)
  | .absY a => .mem (.absY a)
  | .absl al => .mem (.absl al)
  | .abslX al => .mem (.abslX al)
  | .sr d => .mem (.sr d)
  | .srIndY d => .mem (.srIndY d)

/-- ADC in each form. -/
def AccForm.adc : AccForm → Instr
  | .imm v => .adcImm v
  | .dir d => .adcDir d
  | .dirX d => .adcDirX d
  | .dirInd d => .adcDirInd d
  | .dirXInd d => .adcDirXInd d
  | .dirIndY d => .adcDirIndY d
  | .dirIndl d => .adcDirIndl d
  | .dirIndlY d => .adcDirIndlY d
  | .abs a => .adcAbs a
  | .absX a => .adcAbsX a
  | .absY a => .adcAbsY a
  | .absl al => .adcAbsl al
  | .abslX al => .adcAbslX al
  | .sr d => .adcSr d
  | .srIndY d => .adcSrIndY d

/-- AND in each form. -/
def AccForm.and : AccForm → Instr
  | .imm v => .andImm v
  | .dir d => .andDir d
  | .dirX d => .andDirX d
  | .dirInd d => .andDirInd d
  | .dirXInd d => .andDirXInd d
  | .dirIndY d => .andDirIndY d
  | .dirIndl d => .andDirIndl d
  | .dirIndlY d => .andDirIndlY d
  | .abs a => .andAbs a
  | .absX a => .andAbsX a
  | .absY a => .andAbsY a
  | .absl al => .andAbsl al
  | .abslX al => .andAbslX al
  | .sr d => .andSr d
  | .srIndY d => .andSrIndY d

/-- CMP in each form. -/
def AccForm.cmp : AccForm → Instr
  | .imm v => .cmpImm v
  | .dir d => .cmpDir d
  | .dirX d => .cmpDirX d
  | .dirInd d => .cmpDirInd d
  | .dirXInd d => .cmpDirXInd d
  | .dirIndY d => .cmpDirIndY d
  | .dirIndl d => .cmpDirIndl d
  | .dirIndlY d => .cmpDirIndlY d
  | .abs a => .cmpAbs a
  | .absX a => .cmpAbsX a
  | .absY a => .cmpAbsY a
  | .absl al => .cmpAbsl al
  | .abslX al => .cmpAbslX al
  | .sr d => .cmpSr d
  | .srIndY d => .cmpSrIndY d

/-- EOR in each form. -/
def AccForm.eor : AccForm → Instr
  | .imm v => .eorImm v
  | .dir d => .eorDir d
  | .dirX d => .eorDirX d
  | .dirInd d => .eorDirInd d
  | .dirXInd d => .eorDirXInd d
  | .dirIndY d => .eorDirIndY d
  | .dirIndl d => .eorDirIndl d
  | .dirIndlY d => .eorDirIndlY d
  | .abs a => .eorAbs a
  | .absX a => .eorAbsX a
  | .absY a => .eorAbsY a
  | .absl al => .eorAbsl al
  | .abslX al => .eorAbslX al
  | .sr d => .eorSr d
  | .srIndY d => .eorSrIndY d

/-- LDA in each form. -/
def AccForm.lda : AccForm → Instr
  | .imm v => .ldaImm v
  | .dir d => .ldaDir d
  | .dirX d => .ldaDirX d
  | .dirInd d => .ldaDirInd d
  | .dirXInd d => .ldaDirXInd d
  | .dirIndY d => .ldaDirIndY d
  | .dirIndl d => .ldaDirIndl d
  | .dirIndlY d => .ldaDirIndlY d
  | .abs a => .ldaAbs a
  | .absX a => .ldaAbsX a
  | .absY a => .ldaAbsY a
  | .absl al => .ldaAbsl al
  | .abslX al => .ldaAbslX al
  | .sr d => .ldaSr d
  | .srIndY d => .ldaSrIndY d

/-- ORA in each form. -/
def AccForm.ora : AccForm → Instr
  | .imm v => .oraImm v
  | .dir d => .oraDir d
  | .dirX d => .oraDirX d
  | .dirInd d => .oraDirInd d
  | .dirXInd d => .oraDirXInd d
  | .dirIndY d => .oraDirIndY d
  | .dirIndl d => .oraDirIndl d
  | .dirIndlY d => .oraDirIndlY d
  | .abs a => .oraAbs a
  | .absX a => .oraAbsX a
  | .absY a => .oraAbsY a
  | .absl al => .oraAbsl al
  | .abslX al => .oraAbslX al
  | .sr d => .oraSr d
  | .srIndY d => .oraSrIndY d

/-- SBC in each form. -/
def AccForm.sbc : AccForm → Instr
  | .imm v => .sbcImm v
  | .dir d => .sbcDir d
  | .dirX d => .sbcDirX d
  | .dirInd d => .sbcDirInd d
  | .dirXInd d => .sbcDirXInd d
  | .dirIndY d => .sbcDirIndY d
  | .dirIndl d => .sbcDirIndl d
  | .dirIndlY d => .sbcDirIndlY d
  | .abs a => .sbcAbs a
  | .absX a => .sbcAbsX a
  | .absY a => .sbcAbsY a
  | .absl al => .sbcAbsl al
  | .abslX al => .sbcAbslX al
  | .sr d => .sbcSr d
  | .srIndY d => .sbcSrIndY d

/-- The forms of STA. -/
inductive StaForm
  | dir (d : Byte)
  | dirX (d : Byte)
  | dirInd (d : Byte)
  | dirXInd (d : Byte)
  | dirIndY (d : Byte)
  | dirIndl (d : Byte)
  | dirIndlY (d : Byte)
  | abs (a : Word)
  | absX (a : Word)
  | absY (a : Word)
  | absl (al : Address)
  | abslX (al : Address)
  | sr (d : Byte)
  | srIndY (d : Byte)
  deriving DecidableEq, Repr

/-- The memory operand of a form. -/
def StaForm.addr : StaForm → Addr
  | .dir d => .dir d
  | .dirX d => .dirX d
  | .dirInd d => .dirInd d
  | .dirXInd d => .dirXInd d
  | .dirIndY d => .dirIndY d
  | .dirIndl d => .dirIndl d
  | .dirIndlY d => .dirIndlY d
  | .abs a => .abs a
  | .absX a => .absX a
  | .absY a => .absY a
  | .absl al => .absl al
  | .abslX al => .abslX al
  | .sr d => .sr d
  | .srIndY d => .srIndY d

/-- STA in each form. -/
def StaForm.sta : StaForm → Instr
  | .dir d => .staDir d
  | .dirX d => .staDirX d
  | .dirInd d => .staDirInd d
  | .dirXInd d => .staDirXInd d
  | .dirIndY d => .staDirIndY d
  | .dirIndl d => .staDirIndl d
  | .dirIndlY d => .staDirIndlY d
  | .abs a => .staAbs a
  | .absX a => .staAbsX a
  | .absY a => .staAbsY a
  | .absl al => .staAbsl al
  | .abslX al => .staAbslX al
  | .sr d => .staSr d
  | .srIndY d => .staSrIndY d

/-- The memory forms of ASL DEC INC LSR ROL ROR, and the forms of STZ. -/
inductive RmwForm
  | dir (d : Byte)
  | dirX (d : Byte)
  | abs (a : Word)
  | absX (a : Word)
  deriving DecidableEq, Repr

/-- The memory operand of a form. -/
def RmwForm.addr : RmwForm → Addr
  | .dir d => .dir d
  | .dirX d => .dirX d
  | .abs a => .abs a
  | .absX a => .absX a

/-- ASL in each form. -/
def RmwForm.asl : RmwForm → Instr
  | .dir d => .aslDir d
  | .dirX d => .aslDirX d
  | .abs a => .aslAbs a
  | .absX a => .aslAbsX a

/-- DEC in each form. -/
def RmwForm.dec : RmwForm → Instr
  | .dir d => .decDir d
  | .dirX d => .decDirX d
  | .abs a => .decAbs a
  | .absX a => .decAbsX a

/-- INC in each form. -/
def RmwForm.inc : RmwForm → Instr
  | .dir d => .incDir d
  | .dirX d => .incDirX d
  | .abs a => .incAbs a
  | .absX a => .incAbsX a

/-- LSR in each form. -/
def RmwForm.lsr : RmwForm → Instr
  | .dir d => .lsrDir d
  | .dirX d => .lsrDirX d
  | .abs a => .lsrAbs a
  | .absX a => .lsrAbsX a

/-- ROL in each form. -/
def RmwForm.rol : RmwForm → Instr
  | .dir d => .rolDir d
  | .dirX d => .rolDirX d
  | .abs a => .rolAbs a
  | .absX a => .rolAbsX a

/-- ROR in each form. -/
def RmwForm.ror : RmwForm → Instr
  | .dir d => .rorDir d
  | .dirX d => .rorDirX d
  | .abs a => .rorAbs a
  | .absX a => .rorAbsX a

/-- STZ in each form. -/
def RmwForm.stz : RmwForm → Instr
  | .dir d => .stzDir d
  | .dirX d => .stzDirX d
  | .abs a => .stzAbs a
  | .absX a => .stzAbsX a

/-- The forms of BIT and of LDY. -/
inductive BitForm
  | imm (v : Word)
  | dir (d : Byte)
  | dirX (d : Byte)
  | abs (a : Word)
  | absX (a : Word)
  deriving DecidableEq, Repr

/-- The operand of a form. -/
def BitForm.source : BitForm → Source
  | .imm v => .imm v
  | .dir d => .mem (.dir d)
  | .dirX d => .mem (.dirX d)
  | .abs a => .mem (.abs a)
  | .absX a => .mem (.absX a)

/-- BIT in each form. -/
def BitForm.bit : BitForm → Instr
  | .imm v => .bitImm v
  | .dir d => .bitDir d
  | .dirX d => .bitDirX d
  | .abs a => .bitAbs a
  | .absX a => .bitAbsX a

/-- LDY in each form. -/
def BitForm.ldy : BitForm → Instr
  | .imm v => .ldyImm v
  | .dir d => .ldyDir d
  | .dirX d => .ldyDirX d
  | .abs a => .ldyAbs a
  | .absX a => .ldyAbsX a

/-- The forms of LDX. -/
inductive LdxForm
  | imm (v : Word)
  | dir (d : Byte)
  | dirY (d : Byte)
  | abs (a : Word)
  | absY (a : Word)
  deriving DecidableEq, Repr

/-- The operand of a form. -/
def LdxForm.source : LdxForm → Source
  | .imm v => .imm v
  | .dir d => .mem (.dir d)
  | .dirY d => .mem (.dirY d)
  | .abs a => .mem (.abs a)
  | .absY a => .mem (.absY a)

/-- LDX in each form. -/
def LdxForm.ldx : LdxForm → Instr
  | .imm v => .ldxImm v
  | .dir d => .ldxDir d
  | .dirY d => .ldxDirY d
  | .abs a => .ldxAbs a
  | .absY a => .ldxAbsY a

/-- The forms of CPX and CPY. -/
inductive CpForm
  | imm (v : Word)
  | dir (d : Byte)
  | abs (a : Word)
  deriving DecidableEq, Repr

/-- The operand of a form. -/
def CpForm.source : CpForm → Source
  | .imm v => .imm v
  | .dir d => .mem (.dir d)
  | .abs a => .mem (.abs a)

/-- CPX in each form. -/
def CpForm.cpx : CpForm → Instr
  | .imm v => .cpxImm v
  | .dir d => .cpxDir d
  | .abs a => .cpxAbs a

/-- CPY in each form. -/
def CpForm.cpy : CpForm → Instr
  | .imm v => .cpyImm v
  | .dir d => .cpyDir d
  | .abs a => .cpyAbs a

/-- The forms of STX. -/
inductive StxForm
  | dir (d : Byte)
  | dirY (d : Byte)
  | abs (a : Word)
  deriving DecidableEq, Repr

/-- The memory operand of a form. -/
def StxForm.addr : StxForm → Addr
  | .dir d => .dir d
  | .dirY d => .dirY d
  | .abs a => .abs a

/-- STX in each form. -/
def StxForm.stx : StxForm → Instr
  | .dir d => .stxDir d
  | .dirY d => .stxDirY d
  | .abs a => .stxAbs a

/-- The forms of STY. -/
inductive StyForm
  | dir (d : Byte)
  | dirX (d : Byte)
  | abs (a : Word)
  deriving DecidableEq, Repr

/-- The memory operand of a form. -/
def StyForm.addr : StyForm → Addr
  | .dir d => .dir d
  | .dirX d => .dirX d
  | .abs a => .abs a

/-- STY in each form. -/
def StyForm.sty : StyForm → Instr
  | .dir d => .styDir d
  | .dirX d => .styDirX d
  | .abs a => .styAbs a

/-- The forms of TRB and TSB. -/
inductive TestForm
  | dir (d : Byte)
  | abs (a : Word)
  deriving DecidableEq, Repr

/-- The memory operand of a form. -/
def TestForm.addr : TestForm → Addr
  | .dir d => .dir d
  | .abs a => .abs a

/-- TRB in each form. -/
def TestForm.trb : TestForm → Instr
  | .dir d => .trbDir d
  | .abs a => .trbAbs a

/-- TSB in each form. -/
def TestForm.tsb : TestForm → Instr
  | .dir d => .tsbDir d
  | .abs a => .tsbAbs a

end Sys2Proof.Machine
end

