-- ==== Sys2Proof/Safety.lean ====
section
/-! DEFINITION. The terms that claims about the machine use: the invariant of its states (10_state.md R44), how
P differs by named flags, what a store and a push leave in memory, which addresses an instruction stores to, and
repeated execution of one instruction. -/

namespace Sys2Proof.Machine

/-- The invariant of the machine's states: the locks of E (10_state.md R33, R44 (a)), the index high bytes in
native 8-bit index mode (R34, R44 (b)), and the canonical form of memory. -/
structure State.Inv (s : State) : Prop where
  /-- E = 1 locks P.M. -/
  lockM : s.e = true → s.flag .m = true
  /-- E = 1 locks P.X. -/
  lockX : s.e = true → s.flag .x = true
  /-- E = 1 locks SH. -/
  lockS : s.e = true → hiByte s.sp = 0x01
  /-- XH is $00 while P.X is 1. -/
  xHigh : s.flag .x = true → hiByte s.x = 0x00
  /-- YH is $00 while P.X is 1. -/
  yHigh : s.flag .x = true → hiByte s.y = 0x00
  /-- Memory is in canonical form. -/
  memory : s.mem.wf

/-- P after is P before but for the flags listed, which have the values listed. P has no other bit
(10_state.md R30). -/
def StatusIs (after before : Byte) (changes : List (Flag × Bool)) : Prop :=
  ∀ f : Flag, after.getLsbD f.bit = (changes.lookup f).getD (before.getLsbD f.bit)

/-- Memory after holds each listed byte at its address, and every other address reads as before. -/
def CellsWritten (after before : Memory) (cells : List (Address × Byte)) : Prop :=
  (∀ c ∈ cells, after.read c.1 = c.2) ∧
    ∀ a : Address, (∀ c ∈ cells, a ≠ c.1) → after.read a = before.read a

/-- The bytes of a value stored at a locator, with their addresses (40_addressing_modes.md R90). -/
def operandCells (l : Loc) : (w : Width) → BitVec w.bits → List (Address × Byte)
  | .w8, v => [(l.a0, v)]
  | .w16, v => [(l.a0, loByte v), (l.high, hiByte v)]

/-- The addresses of an operand of a width at a locator (40_addressing_modes.md R90). -/
def operandAddresses (l : Loc) : Width → List Address
  | .w8 => [l.a0]
  | .w16 => [l.a0, l.high]

/-- The addresses that a push of bytes stores to, in order. -/
def pushAddresses (lock : StackLock) (bytes : List Byte) (s : State) : List Address :=
  (pushedCells lock s.e bytes s.sp).map Prod.fst

/-- S after `n` bytes pushed or pulled (`delta` is their signed count): with E = 1 inside page $01
(00_scope.md R11). -/
def movedStack (e : Bool) (sp delta : Word) : Word :=
  if e then word16 (loByte sp + loByte delta) 0x01 else sp + delta

/-- The addresses an instruction stores to, from the state in which it is executed. -/
inductive StoresAt (s : State) : Instr → Address → Prop
  | sta (f : StaForm) (a : Address) :
      a ∈ operandAddresses (f.addr.loc s) (s.width .m) → StoresAt s f.sta a
  | stx (f : StxForm) (a : Address) :
      a ∈ operandAddresses (f.addr.loc s) (s.width .x) → StoresAt s f.stx a
  | sty (f : StyForm) (a : Address) :
      a ∈ operandAddresses (f.addr.loc s) (s.width .x) → StoresAt s f.sty a
  | rmw (f : RmwForm) (i : Instr) (a : Address) :
      i ∈ [f.asl, f.dec, f.inc, f.lsr, f.rol, f.ror, f.stz] →
      a ∈ operandAddresses (f.addr.loc s) (s.width .m) → StoresAt s i a
  | test (f : TestForm) (i : Instr) (a : Address) :
      i ∈ [f.trb, f.tsb] →
      a ∈ operandAddresses (f.addr.loc s) (s.width .m) → StoresAt s i a
  | pushM (a : Address) :
      a ∈ pushAddresses .perByte (if s.m8 then [loByte s.a] else wordBytes s.a) s →
      StoresAt s .pha a
  | pushX (i : Instr) (a : Address) :
      i ∈ [Instr.phx, Instr.phy] →
      a ∈ pushAddresses .perByte (if s.x8 then [loByte s.x] else wordBytes s.x) s →
      StoresAt s i a
  | pushByte (i : Instr) :
      i ∈ [Instr.phb, Instr.phk, Instr.php] → StoresAt s i (addressOf 0 s.sp)
  | pea (v : Word) (a : Address) :
      a ∈ pushAddresses (newPushLock .pea 2 s) (wordBytes v) s → StoresAt s (.pea v) a
  | pei (d : Byte) (a : Address) :
      a ∈ pushAddresses (newPushLock .pei 2 s) (wordBytes 0) s → StoresAt s (.pei d) a
  | per (r : Word) (a : Address) :
      a ∈ pushAddresses (newPushLock .per 2 s) (wordBytes r) s → StoresAt s (.per r) a
  | phd (a : Address) :
      a ∈ pushAddresses (newPushLock .phd 2 s) (wordBytes s.d) s → StoresAt s .phd a
  | jsrAbs (v : Word) (a : Address) :
      a ∈ pushAddresses .perByte (wordBytes (s.pc + 2)) s → StoresAt s (.jsrAbs v) a
  | jsrAbsXInd (v : Word) (a : Address) :
      a ∈ pushAddresses (newPushLock .jsrXInd 2 s) (wordBytes (s.pc + 2)) s →
      StoresAt s (.jsrAbsXInd v) a
  | jsl (v : Address) (a : Address) :
      a ∈ pushAddresses (newPushLock .jsl 3 s) (jslFrame s) s → StoresAt s (.jsl v) a
  | brk (sig : Byte) (a : Address) :
      a ∈ pushAddresses .perByte (entryFrame .brk (s.pc + 2) s) s → StoresAt s (.brk sig) a
  | cop (sig : Byte) (a : Address) :
      a ∈ pushAddresses .perByte (entryFrame .cop (s.pc + 2) s) s → StoresAt s (.cop sig) a
  | move (dst src : Byte) (i : Instr) :
      i ∈ [Instr.mvn dst src, Instr.mvp dst src] → StoresAt s i (addressOf dst s.y)

/-- An instruction executed `n` times in a row; `none` if some execution has no next state. -/
def repeatExec (i : Instr) : Nat → State → Option State
  | 0, s => some s
  | n + 1, s =>
    match exec i s with
    | .next t => repeatExec i n t
    | .fault _ => none
    | .refused _ => none

/-- The opcode byte of an instruction's encoding (30_encoding.md R70). -/
def opcodeOf (i : Instr) : Byte := i.assemble.1

/-- An integer lies in the range of `n`-bit two's-complement numbers (00_scope.md R6). -/
def signedFits (n : Nat) (z : Int) : Bool := decide (-(2 : Int) ^ (n - 1) ≤ z ∧ z < (2 : Int) ^ (n - 1))

/-- What is left in P when a byte is written to it: with E = 1 bits 5 and 4 are 1 (10_state.md R37). -/
def statusAfter (e : Bool) (v : Byte) : Byte := if e then v ||| 0x30 else v

/-- What is left in an index register when P has become `q`: with P.X = 1 the high byte is $00
(10_state.md R37). -/
def indexAfter (q : Byte) (r : Word) : Word := if q.getLsbD 4 then word16 (loByte r) 0x00 else r

/-- Where the `k`-th byte of one pull lies: `perByte` keeps S in page $01 when E = 1 (00_scope.md R11),
`atEnd` does not (93_implementation_defined.md U6). -/
def pullAddress (lock : StackLock) (e : Bool) (sp k : Word) : Address :=
  match lock with
  | .perByte => addressOf 0 (movedStack e sp k)
  | .atEnd => addressOf 0 (sp + k)

/-- The `k`-th byte above S, as `Pull8` reads it (00_scope.md R11). -/
def pulled (s : State) (k : Word) : Byte := s.mem.read (pullAddress .perByte s.e s.sp k)

/-- The bytes that a call obtains, by their addresses: its own and, for JSR `(a,x)`, those of its pointer
(93_implementation_defined.md U9). -/
def callBytes (s : State) : Instr → List Address
  | .jsrAbs _ => [0, 1, 2].map (fun k => addressOf s.pb (s.pc + k))
  | .jsrAbsXInd a =>
    [0, 1, 2].map (fun k => addressOf s.pb (s.pc + k)) ++ [addressOf s.pb (a + s.x), addressOf s.pb (a + s.x + 1)]
  | .jsl _ => [0, 1, 2, 3].map (fun k => addressOf s.pb (s.pc + k))
  | _ => []

/-- The addresses that a call pushes to. -/
def callPushes (s : State) : Instr → List Address
  | .jsrAbs _ => pushAddresses .perByte (wordBytes (s.pc + 2)) s
  | .jsrAbsXInd _ => pushAddresses (newPushLock .jsrXInd 2 s) (wordBytes (s.pc + 2)) s
  | .jsl _ => pushAddresses (newPushLock .jsl 3 s) (jslFrame s) s
  | _ => []

/-- The instruction is a call that pushes onto a byte it obtains: the states that the spec refuses
(93_implementation_defined.md U9, 70_reset_and_hazards.md R287). -/
abbrev OverwritesOwnBytes (s : State) (i : Instr) : Prop :=
  (callPushes s i).any (fun a => (callBytes s i).any (fun b => decide (a = b))) = true

/-- The instructions that write PB (10_state.md R26, R27). -/
def loadsBank : Instr → Bool
  | .jml _ => true
  | .jmpAbsl _ => true
  | .jsl _ => true
  | .rtl => true
  | .rti => true
  | .brk _ => true
  | .cop _ => true
  | _ => false

/-- The instructions that write DB (10_state.md R27). -/
def loadsDataBank : Instr → Bool
  | .plb => true
  | .mvn _ _ => true
  | .mvp _ _ => true
  | _ => false

/-- The instructions after which the run state can differ: STP and WAI (10_state.md R39), and BRK and COP,
whose entry sets it to running (60_exceptions.md R256). -/
def setsRun : Instr → Bool
  | .stp => true
  | .wai => true
  | .brk _ => true
  | .cop _ => true
  | _ => false

/-- An index register stepped `k` times by `delta` at a width, its high byte $00 at 8 bits
(45_table7_other.md R231). -/
def steppedIndex (w : Width) (r delta : Word) (k : Nat) : Word :=
  widen w (lowPart w (r + BitVec.ofNat 16 k * delta))

/-! The place of a form in the operand list of its instruction's rule (41_table5_arithmetic_logical.md), which
is also the place of its opcode in the rule's list of encodings. -/

/-- Place in the lists of ADC AND CMP EOR LDA ORA SBC. -/
def AccForm.index : AccForm → Nat
  | .imm _ => 0
  | .dir _ => 1
  | .dirX _ => 2
  | .dirInd _ => 3
  | .dirXInd _ => 4
  | .dirIndY _ => 5
  | .dirIndl _ => 6
  | .dirIndlY _ => 7
  | .abs _ => 8
  | .absX _ => 9
  | .absY _ => 10
  | .absl _ => 11
  | .abslX _ => 12
  | .sr _ => 13
  | .srIndY _ => 14

/-- Place in the list of STA. -/
def StaForm.index : StaForm → Nat
  | .dir _ => 0
  | .dirX _ => 1
  | .dirInd _ => 2
  | .dirXInd _ => 3
  | .dirIndY _ => 4
  | .dirIndl _ => 5
  | .dirIndlY _ => 6
  | .abs _ => 7
  | .absX _ => 8
  | .absY _ => 9
  | .absl _ => 10
  | .abslX _ => 11
  | .sr _ => 12
  | .srIndY _ => 13

/-- Place among the memory forms of ASL DEC INC LSR ROL ROR, and in the list of STZ. -/
def RmwForm.index : RmwForm → Nat
  | .dir _ => 0
  | .dirX _ => 1
  | .abs _ => 2
  | .absX _ => 3

/-- Place in the lists of BIT and LDY. -/
def BitForm.index : BitForm → Nat
  | .imm _ => 0
  | .dir _ => 1
  | .dirX _ => 2
  | .abs _ => 3
  | .absX _ => 4

/-- Place in the list of LDX. -/
def LdxForm.index : LdxForm → Nat
  | .imm _ => 0
  | .dir _ => 1
  | .dirY _ => 2
  | .abs _ => 3
  | .absY _ => 4

/-- Place in the lists of CPX and CPY. -/
def CpForm.index : CpForm → Nat
  | .imm _ => 0
  | .dir _ => 1
  | .abs _ => 2

/-- Place in the list of STX. -/
def StxForm.index : StxForm → Nat
  | .dir _ => 0
  | .dirY _ => 1
  | .abs _ => 2

/-- Place in the list of STY. -/
def StyForm.index : StyForm → Nat
  | .dir _ => 0
  | .dirX _ => 1
  | .abs _ => 2

/-- Place in the lists of TRB and TSB. -/
def TestForm.index : TestForm → Nat
  | .dir _ => 0
  | .abs _ => 1

end Sys2Proof.Machine
end

