-- ==== Sys2Proof/Certificates/Slice0/Obligations.lean ====
section
/-! DEFINITION. The statements for the provers. Each says which rule of spec/ it formalises. Every statement
about an instruction gives its next state as the old state with the fields named changed, so it also says that
every other register, the run state, the inputs and, where `mem` is not named, every byte of memory are
unchanged. Memory is read and written on the platform's memory map at its default, all RAM (20_memory.md R59,
log 22); `MemoryMapAccess`, the last statement, is about every map. -/

open Sys2Proof Sys2Proof.Machine

/-! ## Encoding -/

/-- A few instructions written out in bytes by 30_encoding.md R71 to R78 decode to what they stand for. -/
def Obligations.DecodesSpecWords : Prop :=
  decode true true [0xA9, 0x80] = .ok (.ldaImm 0x0080, []) ∧
  decode false true [0xA9, 0x00, 0x80] = .ok (.ldaImm 0x8000, []) ∧
  decode true false [0xA0, 0x34, 0x12] = .ok (.ldyImm 0x1234, []) ∧
  decode true true [0xF4, 0x34, 0x12] = .ok (.pea 0x1234, []) ∧
  decode true true [0x90, 0x05] = .ok (.bcc 0x05, []) ∧
  decode true true [0x22, 0x34, 0x12, 0x7E] = .ok (.jsl 0x7E1234, []) ∧
  decode true true [0x54, 0x7F, 0x7E] = .ok (.mvn 0x7F 0x7E, []) ∧
  decode true true [0x6C, 0xFF, 0x10] = .ok (.jmpAbsInd 0x10FF, []) ∧
  decode false false [0xC2, 0x30] = .ok (.rep 0x30, []) ∧
  decode true true [0x77, 0x10, 0xEA] = .ok (.adcDirIndlY 0x10, [0xEA])

/-- Decode and encode agree: what the encoder writes for a well-formed instruction decodes to it, under every
pair of widths and whatever bytes follow (30_encoding.md R70, R73, R74). -/
def Obligations.DecodeEncodeRoundTrip : Prop :=
  ∀ (m8 x8 : Bool) (i : Instr) (rest : List Byte), i.wellFormed m8 x8 = true →
    decode m8 x8 (encode m8 x8 i ++ rest) = .ok (i, rest)

/-- Every encoding is read whole: any four bytes start with an instruction, and what the decoder reads is
well-formed and is written back to the same bytes (30_encoding.md R70, R83). -/
def Obligations.EncodeDecodeRoundTrip : Prop :=
  ∀ (m8 x8 : Bool) (bytes : List Byte),
    (4 ≤ bytes.length → ∃ i rest, decode m8 x8 bytes = .ok (i, rest)) ∧
    ∀ i rest, decode m8 x8 bytes = .ok (i, rest) →
      i.wellFormed m8 x8 = true ∧ encode m8 x8 i ++ rest = bytes

/-- Lengths are 1 to 4 bytes, and only an immediate of a Pm or Px row has a length that follows the widths: 2
bytes at 8 bits and 3 at 16 (30_encoding.md R70, R72, R74, R83). -/
def Obligations.LengthFollowsWidths : Prop :=
  ∀ (i : Instr) (m8 x8 : Bool),
    1 ≤ (encode m8 x8 i).length ∧ (encode m8 x8 i).length ≤ 4 ∧
    match i.immediate with
    | some (sel, _) => (encode m8 x8 i).length = if sel.is8 m8 x8 then 2 else 3
    | none => ∀ m8' x8', encode m8' x8' i = encode m8 x8 i

/-! ## The step -/

/-- A step runs the decoded instruction: when the machine runs, no input claims the boundary, and the bytes from
PB:PC on (wrapping inside the bank) are the encoding of a well-formed instruction, the step is that
instruction's execution, from the state that has used up this step's sample (60_exceptions.md R259,
00_scope.md R10). -/
def Obligations.StepRunsDecoded : Prop :=
  ∀ (s : State) (i : Instr), s.run = .running →
    s.sample.reset = false → s.sample.abort = false → s.sample.nmi = false → s.nmiPending = false →
    (s.sample.irq = false ∨ s.flag .i = true) →
    i.wellFormed s.m8 s.x8 = true →
    (∀ (k : Nat) (b : Byte), (encode s.m8 s.x8 i)[k]? = some b →
      s.mem.read (addressOf s.pb (s.pc + BitVec.ofNat 16 k)) = b) →
    step s = exec i { s with inputs := s.inputs.tail }

/-- Where the machine stops. An instruction completes but for the calls that push onto bytes they obtain, which are
refused (93_implementation_defined.md U9, 70_reset_and_hazards.md R287, log 10). A step stops there, and where ABORT
is asserted while the machine runs or waits and is not reset (60_exceptions.md R265, R252), and nowhere else. That
ABORT is refused is the model's choice (log 6), and so is it that an instruction completes where the spec takes a
parameter whose default refuses: opcode 42 (log 7), the emulation-mode stack of U6 (log 8), the corner of `(d,x)` of
U7 (log 9). It also completes with a free value in decimal mode, U3 (log 11). -/
def Obligations.StopsOnlyOnAbortOrOwnBytes : Prop :=
  (∀ (i : Instr) (s : State),
    (¬OverwritesOwnBytes s i → ∃ t, exec i s = .next t) ∧
    (OverwritesOwnBytes s i → exec i s = .refused .ownBytesOverwritten)) ∧
  ∀ s : State,
    (s.sample.abort = true ∧ s.sample.reset = false ∧ s.run ≠ .stopped → step s = .refused .abortInput) ∧
    (s.sample.abort = false ∨ s.sample.reset = true ∨ s.run = .stopped →
      (∃ t, step s = .next t) ∨
      s.run = .running ∧ OverwritesOwnBytes s s.fetchInstr ∧ step s = .refused .ownBytesOverwritten)

/-- The state after reset has the values of the table of 10_state.md R42 and meets the invariant of R44; what the
table calls unspecified is the model's choice (log 3) and is not stated. -/
def Obligations.ResetState : Prop :=
  let s := State.reset
  s.e = true ∧ s.flag .m = true ∧ s.flag .x = true ∧ s.flag .d = false ∧ s.flag .i = true ∧
  hiByte s.x = 0x00 ∧ hiByte s.y = 0x00 ∧ hiByte s.sp = 0x01 ∧ s.d = 0x0000 ∧ s.db = 0x00 ∧ s.pb = 0x00 ∧
  s.pc = word16 (s.mem.read 0x00FFFC) (s.mem.read 0x00FFFD) ∧ s.run = .running ∧ s.nmiPending = false ∧ s.Inv

/-- Reset() (70_reset_and_hazards.md R280): whatever the machine does and whatever else is asserted, an asserted
`reset` sets what the rule says, pushes nothing and writes no memory. A, XL, YL, SL, N, V, Z and C have some
value of which nothing is said (R43). -/
def Obligations.ResetTransition : Prop :=
  ∀ s : State, s.sample.reset = true →
    ∃ (a : Word) (xl yl sl p : Byte) (n : Nat),
      p.getLsbD 5 = true ∧ p.getLsbD 4 = true ∧ p.getLsbD 3 = false ∧ p.getLsbD 2 = true ∧
      step s = .next
        { a := a, x := word16 xl 0x00, y := word16 yl 0x00, sp := word16 sl 0x01, d := 0x0000, db := 0x00,
          pb := 0x00, pc := word16 (s.mem.read 0x00FFFC) (s.mem.read 0x00FFFD), p := p, e := true,
          run := .running, nmiPending := false, inputs := s.inputs.tail, draws := n, mem := s.mem }

/-- Every step keeps the invariant of 10_state.md R44 and the canonical form of memory, from every state that
meets it. -/
def Obligations.StepKeepsInv : Prop :=
  ∀ s t : State, s.Inv → step s = .next t → t.Inv

/-- Who writes the control registers (10_state.md R26, R27, R32, R39): E only XCE; D only TCD and PLD; DB only
PLB, MVN and MVP; PB only the long jumps, calls and returns and the interrupt entries; the run state only STP,
WAI and the entries. No instruction touches the NMI latch, the inputs or the count of draws. -/
def Obligations.ControlRegisterWriters : Prop :=
  ∀ (i : Instr) (s t : State), exec i s = .next t →
    (i ≠ .xce → t.e = s.e) ∧
    (i ≠ .tcd ∧ i ≠ .pld → t.d = s.d) ∧
    (loadsDataBank i = false → t.db = s.db) ∧
    (loadsBank i = false → t.pb = s.pb) ∧
    (setsRun i = false → t.run = s.run) ∧
    t.nmiPending = s.nmiPending ∧ t.inputs = s.inputs ∧ t.draws = s.draws

/-- Every instruction leaves every byte of memory as it was but those at the addresses it stores to, which are
computed from the state before it (20_memory.md R66). -/
def Obligations.StoresOnlyWhereStated : Prop :=
  ∀ (i : Instr) (s t : State), exec i s = .next t →
    ∀ a : Address, ¬StoresAt s i a → t.mem.read a = s.mem.read a

/-! ## Memory, widths, addressing modes -/

/-- A byte reads as what was last written to it (20_memory.md R61), a write keeps the canonical form, and two
memories in canonical form that read alike are equal. -/
def Obligations.MemoryReadsLastWrite : Prop :=
  (∀ (m : Memory) (a b : Address) (v : Byte), (m.write a v).read b = if b = a then v else m.read b) ∧
  (∀ (m : Memory) (a : Address) (v : Byte), m.wf → (m.write a v).wf) ∧
  ∀ m m' : Memory, m.wf → m'.wf → (∀ a : Address, m.read a = m'.read a) → m = m'

/-- The widths an instruction works at (00_scope.md R8), and what an 8-bit write leaves of a register
(00_scope.md R7). -/
def Obligations.WidthsAndHalves : Prop :=
  (∀ s : State,
    s.width .m = (if s.e = true ∨ s.p.getLsbD 5 = true then .w8 else .w16) ∧
    s.width .x = (if s.e = true ∨ s.p.getLsbD 4 = true then .w8 else .w16)) ∧
  (∀ (r : Word) (v : Byte), loByte (putLow .w8 r v) = v ∧ hiByte (putLow .w8 r v) = hiByte r) ∧
  ∀ r v : Word, putLow .w16 r v = v

/-- The operand access through a locator (40_addressing_modes.md R90): its bytes are the one at the locator's
address and, at 16 bits, the next one, linearly or inside the bank; low byte first. -/
def Obligations.OperandAccess : Prop :=
  ∀ (m : Memory) (l : Loc),
    m.readOp l .w8 = m.read l.a0 ∧
    m.readOp l .w16 = m.read l.high ++ m.read l.a0 ∧
    l.high.toNat =
      (match l.step with
       | .linear => (l.a0.toNat + 1) % 2 ^ 24
       | .bank => l.a0.toNat / 2 ^ 16 * 2 ^ 16 + (l.a0.toNat % 2 ^ 16 + 1) % 2 ^ 16) ∧
    (∀ v : Byte, CellsWritten (m.writeOp l .w8 v) m [(l.a0, v)] ∧ m.writeBack l .w8 v = m.writeOp l .w8 v) ∧
    ∀ v : Word,
      CellsWritten (m.writeOp l .w16 v) m [(l.a0, v.setWidth 8), (l.high, (v >>> 8).setWidth 8)] ∧
      CellsWritten (m.writeBack l .w16 v) m [(l.a0, v.setWidth 8), (l.high, (v >>> 8).setWidth 8)]

/-- The address of the low byte in the direct modes (40_addressing_modes.md R94 to R101), as numbers. The
pointer's bytes are read where the rules say. In the corner of R98 the high byte comes from one of two places:
that is the model's choice (log 9), since the spec by default refuses the corner. -/
def Obligations.DirectModeAddresses : Prop :=
  ∀ (s : State) (d : Byte),
    let wraps := s.e = true ∧ s.d.toNat % 256 = 0
    let at0 (o : Nat) : Nat := (s.mem.read (BitVec.ofNat 24 (o % 2 ^ 16))).toNat
    let o := s.d.toNat + d.toNat
    let page := s.d.toNat / 256 * 256
    let db := s.db.toNat * 2 ^ 16
    let next (o : Nat) : Nat := if wraps then page + (o + 1) % 256 else o + 1
    let pointer := at0 o + 256 * at0 (next o)
    let long := at0 o + 256 * at0 (o + 1) + 65536 * at0 (o + 2)
    let indexed (r : Word) : Nat := if wraps then page + (d.toNat + r.toNat % 256) % 256 else o + r.toNat
    let ox := indexed s.x
    (Addr.loc s (.dir d)).a0.toNat = o % 2 ^ 16 ∧
    (Addr.loc s (.dirX d)).a0.toNat = indexed s.x % 2 ^ 16 ∧
    (Addr.loc s (.dirY d)).a0.toNat = indexed s.y % 2 ^ 16 ∧
    (Addr.loc s (.dirInd d)).a0.toNat = db + pointer ∧
    (Addr.loc s (.dirIndY d)).a0.toNat = (db + pointer + s.y.toNat) % 2 ^ 24 ∧
    (Addr.loc s (.dirIndl d)).a0.toNat = long ∧
    (Addr.loc s (.dirIndlY d)).a0.toNat = (long + s.y.toNat) % 2 ^ 24 ∧
    (¬(s.e = true ∧ s.d.toNat % 256 ≠ 0 ∧ ox % 256 = 255) →
      (Addr.loc s (.dirXInd d)).a0.toNat = db + (at0 ox + 256 * at0 (next ox))) ∧
    (s.e = true ∧ s.d.toNat % 256 ≠ 0 ∧ ox % 256 = 255 →
      (Addr.loc s (.dirXInd d)).a0.toNat = db + (at0 ox + 256 * at0 (ox + 1)) ∨
      (Addr.loc s (.dirXInd d)).a0.toNat = db + (at0 ox + 256 * at0 (ox % 2 ^ 16 / 256 * 256))) ∧
    (∀ a ∈ [Addr.dir d, .dirX d, .dirY d], (a.loc s).step = .bank) ∧
    ∀ a ∈ [Addr.dirInd d, .dirXInd d, .dirIndY d, .dirIndl d, .dirIndlY d], (a.loc s).step = .linear

/-- The address of the low byte in the absolute and stack-relative modes (40_addressing_modes.md R102 to R108),
as numbers. -/
def Obligations.AbsoluteAndStackModeAddresses : Prop :=
  ∀ (s : State) (a : Word) (al : Address) (d : Byte),
    let at0 (o : Nat) : Nat := (s.mem.read (BitVec.ofNat 24 (o % 2 ^ 16))).toNat
    let db := s.db.toNat * 2 ^ 16
    let o := s.sp.toNat + d.toNat
    (Addr.loc s (.abs a)).a0.toNat = db + a.toNat ∧
    (Addr.loc s (.absX a)).a0.toNat = (db + a.toNat + s.x.toNat) % 2 ^ 24 ∧
    (Addr.loc s (.absY a)).a0.toNat = (db + a.toNat + s.y.toNat) % 2 ^ 24 ∧
    (Addr.loc s (.absl al)).a0 = al ∧
    (Addr.loc s (.abslX al)).a0.toNat = (al.toNat + s.x.toNat) % 2 ^ 24 ∧
    (Addr.loc s (.sr d)).a0.toNat = o % 2 ^ 16 ∧
    (Addr.loc s (.srIndY d)).a0.toNat = (db + (at0 o + 256 * at0 (o + 1)) + s.y.toNat) % 2 ^ 24 ∧
    (Addr.loc s (.sr d)).step = .bank ∧
    ∀ m ∈ [Addr.abs a, .absX a, .absY a, .absl al, .abslX al, .srIndY d], (m.loc s).step = .linear

/-! ## Table 5: arithmetic, logic, loads and stores (41_table5_arithmetic_logical.md) -/

/-- ADC with P.D = 0 (R120, R144): the sum with carry, C the carry out, V whether the signed sum is out of
range. -/
def Obligations.AdcBinary : Prop :=
  ∀ (f : AccForm) (s : State), s.flag .d = false →
    let w := s.width .m
    let a := lowPart w s.a
    let m := f.source.value w s
    let c := (s.flag .c).toNat
    let r := BitVec.ofNat w.bits (a.toNat + m.toNat + c)
    opcodeOf f.adc = [0x69, 0x65, 0x75, 0x72, 0x61, 0x71, 0x67, 0x77, 0x6D, 0x7D, 0x79, 0x6F, 0x7F, 0x63,
      0x73].getD f.index 0 ∧
    ∃ p, exec f.adc s = .next
        { s with a := putLow w s.a r, p := p, pc := s.pc + f.source.length w } ∧
      StatusIs p s.p [(.n, r.msb), (.v, !signedFits w.bits (a.toInt + m.toInt + c)), (.z, r == 0#w.bits),
        (.c, decide (2 ^ w.bits ≤ a.toNat + m.toNat + c))]

/-- SBC with P.D = 0 (R137, R146): the difference less the borrow 1 - C, C that no borrow occurs, V whether the
signed difference is out of range. -/
def Obligations.SbcBinary : Prop :=
  ∀ (f : AccForm) (s : State), s.flag .d = false →
    let w := s.width .m
    let a := lowPart w s.a
    let m := f.source.value w s
    let borrow := 1 - (s.flag .c).toNat
    let r := BitVec.ofInt w.bits ((a.toNat : Int) - m.toNat - borrow)
    opcodeOf f.sbc = [0xE9, 0xE5, 0xF5, 0xF2, 0xE1, 0xF1, 0xE7, 0xF7, 0xED, 0xFD, 0xF9, 0xEF, 0xFF, 0xE3,
      0xF3].getD f.index 0 ∧
    ∃ p, exec f.sbc s = .next
        { s with a := putLow w s.a r, p := p, pc := s.pc + f.source.length w } ∧
      StatusIs p s.p [(.n, r.msb), (.v, !signedFits w.bits (a.toInt - m.toInt - borrow)), (.z, r == 0#w.bits),
        (.c, decide (m.toNat + borrow ≤ a.toNat))]

/-- ADC with P.D = 1 on operands that spell decimal numbers `x` and `y` (R147): the accumulator spells their sum
with carry modulo 10^k, C is the decimal carry, N and Z follow the result, and V is some value (U3). -/
def Obligations.AdcDecimal : Prop :=
  ∀ (f : AccForm) (s : State) (x y : Nat), s.flag .d = true →
    let w := s.width .m
    let k := w.bits / 4
    let n := x + y + (s.flag .c).toNat
    let r := BitVec.ofNat w.bits (bcdSpell k (n % 10 ^ k))
    x < 10 ^ k → y < 10 ^ k →
    lowPart w s.a = BitVec.ofNat w.bits (bcdSpell k x) →
    f.source.value w s = BitVec.ofNat w.bits (bcdSpell k y) →
    ∃ (p : Byte) (v : Bool), exec f.adc s = .next
        { s with a := putLow w s.a r, p := p, pc := s.pc + f.source.length w } ∧
      StatusIs p s.p [(.n, r.msb), (.v, v), (.z, r == 0#w.bits), (.c, decide (10 ^ k ≤ n))]

/-- SBC with P.D = 1 on operands that spell decimal numbers `x` and `y` (R148): the accumulator spells the
difference less the borrow modulo 10^k, C that no borrow occurs, N and Z follow the result, and V is some
value (U3). -/
def Obligations.SbcDecimal : Prop :=
  ∀ (f : AccForm) (s : State) (x y : Nat), s.flag .d = true →
    let w := s.width .m
    let k := w.bits / 4
    let borrow := 1 - (s.flag .c).toNat
    let r := BitVec.ofNat w.bits (bcdSpell k ((10 ^ k + x - (y + borrow)) % 10 ^ k))
    x < 10 ^ k → y < 10 ^ k →
    lowPart w s.a = BitVec.ofNat w.bits (bcdSpell k x) →
    f.source.value w s = BitVec.ofNat w.bits (bcdSpell k y) →
    ∃ (p : Byte) (v : Bool), exec f.sbc s = .next
        { s with a := putLow w s.a r, p := p, pc := s.pc + f.source.length w } ∧
      StatusIs p s.p [(.n, r.msb), (.v, v), (.z, r == 0#w.bits), (.c, decide (y + borrow ≤ x))]

/-- ADC and SBC with P.D = 1 complete on every operand, valid decimal or not: only the accumulator at its width,
N, V, Z, C and PC change, and N and Z follow the result (R120, R137, R147, R148; the values the rules leave
open are free, log 11). -/
def Obligations.DecimalAnyOperand : Prop :=
  ∀ (f : AccForm) (s : State), s.flag .d = true →
    let w := s.width .m
    ∀ i ∈ [f.adc, f.sbc],
      ∃ (r : BitVec w.bits) (v c : Bool) (p : Byte), exec i s = .next
          { s with a := putLow w s.a r, p := p, pc := s.pc + f.source.length w } ∧
        StatusIs p s.p [(.n, r.msb), (.v, v), (.z, r == 0#w.bits), (.c, c)]

/-- AND, ORA and EOR (R121, R134, R128): the result goes to the accumulator at its width, N and Z follow it. -/
def Obligations.LogicResult : Prop :=
  ∀ (f : AccForm) (s : State),
    let w := s.width .m
    let a := lowPart w s.a
    let m := f.source.value w s
    opcodeOf f.and = [0x29, 0x25, 0x35, 0x32, 0x21, 0x31, 0x27, 0x37, 0x2D, 0x3D, 0x39, 0x2F, 0x3F, 0x23,
      0x33].getD f.index 0 ∧
    opcodeOf f.ora = [0x09, 0x05, 0x15, 0x12, 0x01, 0x11, 0x07, 0x17, 0x0D, 0x1D, 0x19, 0x0F, 0x1F, 0x03,
      0x13].getD f.index 0 ∧
    opcodeOf f.eor = [0x49, 0x45, 0x55, 0x52, 0x41, 0x51, 0x47, 0x57, 0x4D, 0x5D, 0x59, 0x4F, 0x5F, 0x43,
      0x53].getD f.index 0 ∧
    ∀ c ∈ [(f.and, a &&& m), (f.ora, a ||| m), (f.eor, a ^^^ m)],
      ∃ p, exec c.1 s = .next
          { s with a := putLow w s.a c.2, p := p, pc := s.pc + f.source.length w } ∧
        StatusIs p s.p [(.n, c.2.msb), (.z, c.2 == 0#w.bits)]

/-- BIT (R123, note 1): Z from accumulator AND operand in every form; N and V from the two top bits of a memory
operand, unchanged for an immediate. -/
def Obligations.BitTest : Prop :=
  ∀ (f : BitForm) (s : State),
    let w := s.width .m
    let m := f.source.value w s
    let z := lowPart w s.a &&& m == 0#w.bits
    opcodeOf f.bit = [0x89, 0x24, 0x34, 0x2C, 0x3C].getD f.index 0 ∧
    ∃ p, exec f.bit s = .next { s with p := p, pc := s.pc + f.source.length w } ∧
      StatusIs p s.p
        (match f with
         | .imm _ => [(.z, z)]
         | _ => [(.n, m.getLsbD (w.bits - 1)), (.v, m.getLsbD (w.bits - 2)), (.z, z)])

/-- CMP, CPX and CPY (R124 to R126, R145): no register changes; N and Z follow the difference at the register's
width, C says that the register is not below the operand. P.C and P.D are not read. -/
def Obligations.CompareResult : Prop :=
  ∀ s : State,
    (∀ f : AccForm,
      let w := s.width .m
      let r := lowPart w s.a
      let m := f.source.value w s
      opcodeOf f.cmp = [0xC9, 0xC5, 0xD5, 0xD2, 0xC1, 0xD1, 0xC7, 0xD7, 0xCD, 0xDD, 0xD9, 0xCF, 0xDF, 0xC3,
        0xD3].getD f.index 0 ∧
      ∃ p, exec f.cmp s = .next { s with p := p, pc := s.pc + f.source.length w } ∧
        StatusIs p s.p [(.n, (r - m).msb), (.z, r == m), (.c, decide (m.toNat ≤ r.toNat))]) ∧
    ∀ f : CpForm,
      let w := s.width .x
      let m := f.source.value w s
      opcodeOf f.cpx = [0xE0, 0xE4, 0xEC].getD f.index 0 ∧
      opcodeOf f.cpy = [0xC0, 0xC4, 0xCC].getD f.index 0 ∧
      ∀ c ∈ [(f.cpx, lowPart w s.x), (f.cpy, lowPart w s.y)],
        ∃ p, exec c.1 s = .next { s with p := p, pc := s.pc + f.source.length w } ∧
          StatusIs p s.p [(.n, (c.2 - m).msb), (.z, c.2 == m), (.c, decide (m.toNat ≤ c.2.toNat))]

/-- INC and DEC (R129, R127), memory and accumulator: one more or one less modulo 2^w, N and Z follow it, C and V
are unchanged also on wrap. -/
def Obligations.IncrementDecrement : Prop :=
  ∀ s : State,
    let w := s.width .m
    opcodeOf .incAcc = 0x1A ∧ opcodeOf .decAcc = 0x3A ∧
    (∀ c ∈ [(Instr.incAcc, lowPart w s.a + 1#w.bits), (.decAcc, lowPart w s.a - 1#w.bits)],
      ∃ p, exec c.1 s = .next { s with a := putLow w s.a c.2, p := p, pc := s.pc + 1 } ∧
        StatusIs p s.p [(.n, c.2.msb), (.z, c.2 == 0#w.bits)]) ∧
    ∀ f : RmwForm,
      let b := s.operand f.addr w
      opcodeOf f.inc = [0xE6, 0xF6, 0xEE, 0xFE].getD f.index 0 ∧
      opcodeOf f.dec = [0xC6, 0xD6, 0xCE, 0xDE].getD f.index 0 ∧
      ∀ c ∈ [(f.inc, b + 1#w.bits), (f.dec, b - 1#w.bits)],
        ∃ p mem, exec c.1 s = .next { s with p := p, mem := mem, pc := s.pc + f.addr.length } ∧
          CellsWritten mem s.mem (operandCells (f.addr.loc s) w c.2) ∧
          StatusIs p s.p [(.n, c.2.msb), (.z, c.2 == 0#w.bits)]

/-- ASL, LSR, ROL and ROR (R122, R133, R135, R136), memory and accumulator: the operand's bytes, or the
accumulator at its width, hold the result, C the bit shifted out, N and Z follow the result; a rotation takes
the old C in. -/
def Obligations.ShiftsAndRotations : Prop :=
  ∀ s : State,
    let w := s.width .m
    let c := (s.flag .c).toNat
    (∀ (f : RmwForm),
      let b := s.operand f.addr w
      opcodeOf f.asl = [0x06, 0x16, 0x0E, 0x1E].getD f.index 0 ∧
      opcodeOf f.lsr = [0x46, 0x56, 0x4E, 0x5E].getD f.index 0 ∧
      opcodeOf f.rol = [0x26, 0x36, 0x2E, 0x3E].getD f.index 0 ∧
      opcodeOf f.ror = [0x66, 0x76, 0x6E, 0x7E].getD f.index 0 ∧
      ∀ op ∈ [(f.asl, 2 * b.toNat, b.getLsbD (w.bits - 1)), (f.lsr, b.toNat / 2, b.getLsbD 0),
          (f.rol, 2 * b.toNat + c, b.getLsbD (w.bits - 1)),
          (f.ror, c * 2 ^ (w.bits - 1) + b.toNat / 2, b.getLsbD 0)],
        let r := BitVec.ofNat w.bits op.2.1
        ∃ p mem, exec op.1 s = .next { s with p := p, mem := mem, pc := s.pc + f.addr.length } ∧
          CellsWritten mem s.mem (operandCells (f.addr.loc s) w r) ∧
          StatusIs p s.p [(.n, r.msb), (.z, r == 0#w.bits), (.c, op.2.2)]) ∧
    ∀ op ∈ [(Instr.aslAcc, 0x0A#8, 2 * (lowPart w s.a).toNat, (lowPart w s.a).getLsbD (w.bits - 1)),
        (.lsrAcc, 0x4A#8, (lowPart w s.a).toNat / 2, (lowPart w s.a).getLsbD 0),
        (.rolAcc, 0x2A#8, 2 * (lowPart w s.a).toNat + c, (lowPart w s.a).getLsbD (w.bits - 1)),
        (.rorAcc, 0x6A#8, c * 2 ^ (w.bits - 1) + (lowPart w s.a).toNat / 2, (lowPart w s.a).getLsbD 0)],
      let r := BitVec.ofNat w.bits op.2.2.1
      opcodeOf op.1 = op.2.1 ∧
      ∃ p, exec op.1 s = .next { s with a := putLow w s.a r, p := p, pc := s.pc + 1 } ∧
        StatusIs p s.p [(.n, r.msb), (.z, r == 0#w.bits), (.c, op.2.2.2)]

/-- LDA, LDX and LDY (R130 to R132): the operand goes to the register at its width, N and Z follow it. -/
def Obligations.LoadRegister : Prop :=
  ∀ s : State,
    (∀ f : AccForm,
      let w := s.width .m
      let m := f.source.value w s
      opcodeOf f.lda = [0xA9, 0xA5, 0xB5, 0xB2, 0xA1, 0xB1, 0xA7, 0xB7, 0xAD, 0xBD, 0xB9, 0xAF, 0xBF, 0xA3,
        0xB3].getD f.index 0 ∧
      ∃ p, exec f.lda s = .next { s with a := putLow w s.a m, p := p, pc := s.pc + f.source.length w } ∧
        StatusIs p s.p [(.n, m.msb), (.z, m == 0#w.bits)]) ∧
    (∀ f : LdxForm,
      let w := s.width .x
      let m := f.source.value w s
      opcodeOf f.ldx = [0xA2, 0xA6, 0xB6, 0xAE, 0xBE].getD f.index 0 ∧
      ∃ p, exec f.ldx s = .next { s with x := putLow w s.x m, p := p, pc := s.pc + f.source.length w } ∧
        StatusIs p s.p [(.n, m.msb), (.z, m == 0#w.bits)]) ∧
    ∀ f : BitForm,
      let w := s.width .x
      let m := f.source.value w s
      opcodeOf f.ldy = [0xA0, 0xA4, 0xB4, 0xAC, 0xBC].getD f.index 0 ∧
      ∃ p, exec f.ldy s = .next { s with y := putLow w s.y m, p := p, pc := s.pc + f.source.length w } ∧
        StatusIs p s.p [(.n, m.msb), (.z, m == 0#w.bits)]

/-- STA, STX, STY and STZ (R138 to R141): the operand's bytes hold the register's low part, or zero; nothing else
in memory changes, and no flag. -/
def Obligations.StoreRegister : Prop :=
  ∀ s : State,
    (∀ f : StaForm,
      opcodeOf f.sta = [0x85, 0x95, 0x92, 0x81, 0x91, 0x87, 0x97, 0x8D, 0x9D, 0x99, 0x8F, 0x9F, 0x83,
        0x93].getD f.index 0 ∧
      ∃ mem, exec f.sta s = .next { s with mem := mem, pc := s.pc + f.addr.length } ∧
        CellsWritten mem s.mem (operandCells (f.addr.loc s) (s.width .m) (lowPart (s.width .m) s.a))) ∧
    (∀ f : StxForm,
      opcodeOf f.stx = [0x86, 0x96, 0x8E].getD f.index 0 ∧
      ∃ mem, exec f.stx s = .next { s with mem := mem, pc := s.pc + f.addr.length } ∧
        CellsWritten mem s.mem (operandCells (f.addr.loc s) (s.width .x) (lowPart (s.width .x) s.x))) ∧
    (∀ f : StyForm,
      opcodeOf f.sty = [0x84, 0x94, 0x8C].getD f.index 0 ∧
      ∃ mem, exec f.sty s = .next { s with mem := mem, pc := s.pc + f.addr.length } ∧
        CellsWritten mem s.mem (operandCells (f.addr.loc s) (s.width .x) (lowPart (s.width .x) s.y))) ∧
    ∀ f : RmwForm,
      opcodeOf f.stz = [0x64, 0x74, 0x9C, 0x9E].getD f.index 0 ∧
      ∃ mem, exec f.stz s = .next { s with mem := mem, pc := s.pc + f.addr.length } ∧
        CellsWritten mem s.mem (operandCells (f.addr.loc s) (s.width .m) 0)

/-- TRB and TSB (R142, R143, note 8): memory loses or gains the bits set in the accumulator; Z from accumulator
AND the old memory; no other flag, and not the accumulator. -/
def Obligations.TestAndChangeBits : Prop :=
  ∀ (f : TestForm) (s : State),
    let w := s.width .m
    let a := lowPart w s.a
    let m := s.operand f.addr w
    opcodeOf f.trb = [0x14, 0x1C].getD f.index 0 ∧
    opcodeOf f.tsb = [0x04, 0x0C].getD f.index 0 ∧
    ∀ c ∈ [(f.trb, ~~~a &&& m), (f.tsb, a ||| m)],
      ∃ p mem, exec c.1 s = .next { s with p := p, mem := mem, pc := s.pc + f.addr.length } ∧
        CellsWritten mem s.mem (operandCells (f.addr.loc s) w c.2) ∧
        StatusIs p s.p [(.z, a &&& m == 0#w.bits)]

/-! ## Table 6: branches, flags, index steps (42_table6_branch_flag_index.md) -/

/-- The nine short branches (R150 to R159): taken, PC is the offset of the next instruction plus the signed
offset modulo 2^16; not taken, PC advances by 2. Nothing else changes. -/
def Obligations.ShortBranches : Prop :=
  ∀ (r : Byte) (s : State),
    ∀ c ∈ [(Instr.bcc r, 0x90#8, !s.flag .c), (.bcs r, 0xB0#8, s.flag .c), (.beq r, 0xF0#8, s.flag .z),
        (.bmi r, 0x30#8, s.flag .n), (.bne r, 0xD0#8, !s.flag .z), (.bpl r, 0x10#8, !s.flag .n),
        (.bra r, 0x80#8, true), (.bvc r, 0x50#8, !s.flag .v), (.bvs r, 0x70#8, s.flag .v)],
      opcodeOf c.1 = c.2.1 ∧
      exec c.1 s = .next
        { s with pc := if c.2.2 then BitVec.ofInt 16 (s.pc.toNat + 2 + r.toInt) else s.pc + 2 }

/-- BRL (45_table7_other.md R221). -/
def Obligations.BranchLong : Prop :=
  ∀ (r : Word) (s : State),
    opcodeOf (.brl r) = 0x82 ∧
    exec (.brl r) s = .next { s with pc := BitVec.ofInt 16 (s.pc.toNat + 3 + r.toInt) }

/-- CLC CLD CLI CLV SEC SED SEI (R160 to R163, R169 to R171): exactly one bit of P changes. -/
def Obligations.FlagInstructions : Prop :=
  ∀ s : State,
    ∀ c ∈ [(Instr.clc, 0x18#8, Flag.c, false), (.cld, 0xD8#8, .d, false), (.cli, 0x58#8, .i, false),
        (.clv, 0xB8#8, .v, false), (.sec, 0x38#8, .c, true), (.sed, 0xF8#8, .d, true),
        (.sei, 0x78#8, .i, true)],
      opcodeOf c.1 = c.2.1 ∧
      ∃ p, exec c.1 s = .next { s with p := p, pc := s.pc + 1 } ∧ StatusIs p s.p [c.2.2]

/-- DEX DEY INX INY (R164 to R167): one more or one less at the index width, N and Z follow it. -/
def Obligations.IndexSteps : Prop :=
  ∀ s : State,
    let w := s.width .x
    opcodeOf .inx = 0xE8 ∧ opcodeOf .dex = 0xCA ∧ opcodeOf .iny = 0xC8 ∧ opcodeOf .dey = 0x88 ∧
    (∀ c ∈ [(Instr.inx, lowPart w s.x + 1#w.bits), (.dex, lowPart w s.x - 1#w.bits)],
      ∃ p, exec c.1 s = .next { s with x := putLow w s.x c.2, p := p, pc := s.pc + 1 } ∧
        StatusIs p s.p [(.n, c.2.msb), (.z, c.2 == 0#w.bits)]) ∧
    ∀ c ∈ [(Instr.iny, lowPart w s.y + 1#w.bits), (.dey, lowPart w s.y - 1#w.bits)],
      ∃ p, exec c.1 s = .next { s with y := putLow w s.y c.2, p := p, pc := s.pc + 1 } ∧
        StatusIs p s.p [(.n, c.2.msb), (.z, c.2 == 0#w.bits)]

/-- NOP (R168): nothing changes but PC. -/
def Obligations.NopAdvances : Prop :=
  ∀ s : State, opcodeOf .nop = 0xEA ∧ exec .nop s = .next { s with pc := s.pc + 1 }

/-- Opcode 42 under WDM_POLICY = nop2 (30_encoding.md R82), the policy the model takes (log 7, a choice: the
spec's default is to refuse): nothing changes but PC. -/
def Obligations.WdmAdvances : Prop :=
  ∀ (sig : Byte) (s : State), opcodeOf (.wdm sig) = 0x42 ∧ exec (.wdm sig) s = .next { s with pc := s.pc + 2 }

/-! ## Table 6: push and pull (43_table6_push_pull.md) -/

/-- PHA, PHX and PHY (R183, R188, R189): one byte at 8 bits, a word at 16, high byte first. -/
def Obligations.PushRegister : Prop :=
  ∀ s : State,
    ∀ c ∈ [(Instr.pha, 0x48#8, s.m8, s.a), (.phx, 0xDA#8, s.x8, s.x), (.phy, 0x5A#8, s.x8, s.y)],
      opcodeOf c.1 = c.2.1 ∧
      ∃ mem, exec c.1 s = .next
          { s with mem := mem, pc := s.pc + 1,
                   sp := movedStack s.e s.sp (if c.2.2.1 then 0xFFFF else 0xFFFE) } ∧
        CellsWritten mem s.mem (pushedCells .perByte s.e
          (if c.2.2.1 then [loByte c.2.2.2] else [hiByte c.2.2.2, loByte c.2.2.2]) s.sp)

/-- PHB, PHK and PHP (R184, R186, R187): one byte. -/
def Obligations.PushOneByte : Prop :=
  ∀ s : State,
    ∀ c ∈ [(Instr.phb, 0x8B#8, s.db), (.phk, 0x4B#8, s.pb), (.php, 0x08#8, s.p)],
      opcodeOf c.1 = c.2.1 ∧
      ∃ mem, exec c.1 s = .next { s with mem := mem, pc := s.pc + 1, sp := movedStack s.e s.sp 0xFFFF } ∧
        CellsWritten mem s.mem [(addressOf 0 s.sp, c.2.2)]

/-- PEA, PEI, PER and PHD (R180 to R182, R185) push one word, high byte first, and change no flag. With E = 1 and
SL = $00 the second byte may fall inside page $01 or below it (U6, log 8); everywhere else the stack
primitives of 00_scope.md R11 hold. -/
def Obligations.PushWord : Prop :=
  ∀ (v r : Word) (d : Byte) (s : State),
    let o := s.d + d.setWidth 16
    ∀ c ∈ [(Instr.pea v, 0xF4#8, v, 3#16),
        (.pei d, 0xD4#8, s.mem.read (addressOf 0 (o + 1)) ++ s.mem.read (addressOf 0 o), 2#16),
        (.per r, 0x62#8, BitVec.ofInt 16 (s.pc.toNat + 3 + r.toInt), 3#16), (.phd, 0x0B#8, s.d, 1#16)],
      opcodeOf c.1 = c.2.1 ∧
      ∃ (lock : StackLock) (mem : Memory), exec c.1 s = .next
          { s with mem := mem, pc := s.pc + c.2.2.2, sp := movedStack s.e s.sp 0xFFFE } ∧
        CellsWritten mem s.mem (pushedCells lock s.e [hiByte c.2.2.1, loByte c.2.2.1] s.sp) ∧
        (¬(s.e = true ∧ loByte s.sp = 0x00) → lock = .perByte)

/-- With E = 1 the pushes of the instructions that the 6502 has, and those of PHB, PHK, PHX and PHY, stay in
page $01 (00_scope.md R11, 20_memory.md R58): executed in a state that meets the invariant, PHA, PHX, PHY, PHB,
PHK, PHP, JSR a, BRK and COP leave every byte outside 00:0100 to 00:01FF as it was. -/
def Obligations.EmulationPushesStayInPageOne : Prop :=
  ∀ (i : Instr) (s t : State), s.Inv → s.e = true →
    ((∃ v : Word, i = .jsrAbs v) ∨ (∃ sig : Byte, i = .brk sig ∨ i = .cop sig) ∨
      i ∈ [Instr.pha, .phx, .phy, .phb, .phk, .php]) →
    exec i s = .next t →
    ∀ a : Address, ¬(0x0100 ≤ a.toNat ∧ a.toNat ≤ 0x01FF) → t.mem.read a = s.mem.read a

/-- PLA, PLX and PLY (R190, R194, R195): one byte at 8 bits, a word at 16, low byte first; N and Z follow the
value at its width. -/
def Obligations.PullRegister : Prop :=
  ∀ s : State,
    let b := pulled s 1
    let v := pulled s 2 ++ pulled s 1
    opcodeOf .pla = 0x68 ∧ opcodeOf .plx = 0xFA ∧ opcodeOf .ply = 0x7A ∧
    (s.m8 = true → ∃ p, exec .pla s = .next
        { s with a := word16 b (hiByte s.a), p := p, pc := s.pc + 1, sp := movedStack s.e s.sp 1 } ∧
      StatusIs p s.p [(.n, b.msb), (.z, b == 0)]) ∧
    (s.m8 = false → ∃ p, exec .pla s = .next
        { s with a := v, p := p, pc := s.pc + 1, sp := movedStack s.e s.sp 2 } ∧
      StatusIs p s.p [(.n, v.msb), (.z, v == 0)]) ∧
    (s.x8 = true → ∃ p,
      exec .plx s = .next
        { s with x := word16 b (hiByte s.x), p := p, pc := s.pc + 1, sp := movedStack s.e s.sp 1 } ∧
      exec .ply s = .next
        { s with y := word16 b (hiByte s.y), p := p, pc := s.pc + 1, sp := movedStack s.e s.sp 1 } ∧
      StatusIs p s.p [(.n, b.msb), (.z, b == 0)]) ∧
    (s.x8 = false → ∃ p,
      exec .plx s = .next { s with x := v, p := p, pc := s.pc + 1, sp := movedStack s.e s.sp 2 } ∧
      exec .ply s = .next { s with y := v, p := p, pc := s.pc + 1, sp := movedStack s.e s.sp 2 } ∧
      StatusIs p s.p [(.n, v.msb), (.z, v == 0)])

/-- PLB and PLD (R191, R192): a byte, a word; N and Z follow the value. With E = 1 and the bytes pulled
straddling the end of page $01 they may come from inside the page or from above it (U6, log 8). -/
def Obligations.PullBankAndDirect : Prop :=
  ∀ s : State,
    opcodeOf .plb = 0xAB ∧ opcodeOf .pld = 0x2B ∧
    (∃ (lock : StackLock) (p : Byte),
      let b := s.mem.read (pullAddress lock s.e s.sp 1)
      exec .plb s = .next { s with db := b, p := p, pc := s.pc + 1, sp := movedStack s.e s.sp 1 } ∧
      StatusIs p s.p [(.n, b.msb), (.z, b == 0)] ∧
      (¬(s.e = true ∧ loByte s.sp = 0xFF) → lock = .perByte)) ∧
    ∃ (lock : StackLock) (p : Byte),
      let v := s.mem.read (pullAddress lock s.e s.sp 2) ++ s.mem.read (pullAddress lock s.e s.sp 1)
      exec .pld s = .next { s with d := v, p := p, pc := s.pc + 1, sp := movedStack s.e s.sp 2 } ∧
      StatusIs p s.p [(.n, v.msb), (.z, v == 0)] ∧
      (¬(s.e = true ∧ 0xFE#8 ≤ loByte s.sp) → lock = .perByte)

/-- PLP (R193): P is the byte pulled, with bits 5 and 4 set when E = 1; where X becomes 1 the index high bytes
become $00 (10_state.md R37). -/
def Obligations.PullStatus : Prop :=
  ∀ s : State,
    let q := statusAfter s.e (pulled s 1)
    opcodeOf .plp = 0x28 ∧
    exec .plp s = .next
      { s with p := q, x := indexAfter q s.x, y := indexAfter q s.y, pc := s.pc + 1,
               sp := movedStack s.e s.sp 1 }

/-- REP and SEP (45_table7_other.md R233, R237): P with the operand's bits cleared, or set, written as
10_state.md R37 says. -/
def Obligations.StatusMasks : Prop :=
  ∀ (imm : Byte) (s : State),
    ∀ c ∈ [(Instr.rep imm, 0xC2#8, s.p &&& ~~~imm), (.sep imm, 0xE2#8, s.p ||| imm)],
      let q := statusAfter s.e c.2.2
      opcodeOf c.1 = c.2.1 ∧
      exec c.1 s = .next
        { s with p := q, x := indexAfter q s.x, y := indexAfter q s.y, pc := s.pc + 2 }

/-! ## Table 6: transfers (44_table6_transfer.md) -/

/-- TXA TYA TAX TSX TYX TAY TXY (R200, R201, R206, R207, R209 to R211): the source's low byte or the whole source,
by the width of the destination; N and Z follow the value written. -/
def Obligations.SizedTransfers : Prop :=
  ∀ s : State,
    (∀ c ∈ [(Instr.txa, 0x8A#8, s.x), (.tya, 0x98#8, s.y)],
      let w := s.width .m
      let v := lowPart w c.2.2
      opcodeOf c.1 = c.2.1 ∧
      ∃ p, exec c.1 s = .next { s with a := putLow w s.a v, p := p, pc := s.pc + 1 } ∧
        StatusIs p s.p [(.n, v.msb), (.z, v == 0#w.bits)]) ∧
    (∀ c ∈ [(Instr.tax, 0xAA#8, s.a), (.tsx, 0xBA#8, s.sp), (.tyx, 0xBB#8, s.y)],
      let w := s.width .x
      let v := lowPart w c.2.2
      opcodeOf c.1 = c.2.1 ∧
      ∃ p, exec c.1 s = .next { s with x := putLow w s.x v, p := p, pc := s.pc + 1 } ∧
        StatusIs p s.p [(.n, v.msb), (.z, v == 0#w.bits)]) ∧
    ∀ c ∈ [(Instr.tay, 0xA8#8, s.a), (.txy, 0x9B#8, s.x)],
      let w := s.width .x
      let v := lowPart w c.2.2
      opcodeOf c.1 = c.2.1 ∧
      ∃ p, exec c.1 s = .next { s with y := putLow w s.y v, p := p, pc := s.pc + 1 } ∧
        StatusIs p s.p [(.n, v.msb), (.z, v == 0#w.bits)]

/-- TCD TDC TSC (R202, R204, R205) move 16 bits at any width, N and Z from all 16; TCS and TXS (R203, R208) write
S with its high byte locked to $01 when E = 1, and change no flag. -/
def Obligations.WordTransfers : Prop :=
  ∀ s : State,
    opcodeOf .tcd = 0x5B ∧ opcodeOf .tdc = 0x7B ∧ opcodeOf .tsc = 0x3B ∧ opcodeOf .tcs = 0x1B ∧
    opcodeOf .txs = 0x9A ∧
    (∃ p, exec .tcd s = .next { s with d := s.a, p := p, pc := s.pc + 1 } ∧
      StatusIs p s.p [(.n, s.a.msb), (.z, s.a == 0)]) ∧
    (∀ c ∈ [(Instr.tdc, s.d), (.tsc, s.sp)],
      ∃ p, exec c.1 s = .next { s with a := c.2, p := p, pc := s.pc + 1 } ∧
        StatusIs p s.p [(.n, c.2.msb), (.z, c.2 == 0)]) ∧
    ∀ c ∈ [(Instr.tcs, s.a), (.txs, s.x)],
      exec c.1 s = .next { s with sp := if s.e then word16 (loByte c.2) 0x01 else c.2, pc := s.pc + 1 }

/-- XCE (R212): C and E change places; where the new E is 1, M and X become 1, XH and YH $00 and SH $01. -/
def Obligations.ExchangeCarryEmulation : Prop :=
  ∀ s : State,
    opcodeOf .xce = 0xFB ∧
    (s.flag .c = false → ∃ p,
      exec .xce s = .next { s with e := false, p := p, pc := s.pc + 1 } ∧ StatusIs p s.p [(.c, s.e)]) ∧
    (s.flag .c = true → ∃ p,
      exec .xce s = .next
        { s with e := true, p := p, pc := s.pc + 1, x := word16 (loByte s.x) 0x00,
                 y := word16 (loByte s.y) 0x00, sp := word16 (loByte s.sp) 0x01 } ∧
      StatusIs p s.p [(.m, true), (.x, true), (.c, s.e)])

/-- XBA (45_table7_other.md R240): the halves change places, N and Z follow the new low half at any width. -/
def Obligations.SwapAccumulatorHalves : Prop :=
  ∀ s : State,
    opcodeOf .xba = 0xEB ∧
    ∃ p, exec .xba s = .next { s with a := loByte s.a ++ hiByte s.a, p := p, pc := s.pc + 1 } ∧
      StatusIs p s.p [(.n, (hiByte s.a).msb), (.z, hiByte s.a == 0)]

/-! ## Table 7: jumps, calls, returns, block moves, stop and wait (45_table7_other.md) -/

/-- JMP in its four forms and JML (R223 to R227): the target, from the operand or from a pointer in bank 00 or in
the program bank; only the long ones load PB. -/
def Obligations.Jumps : Prop :=
  ∀ (a : Word) (al : Address) (s : State),
    let at0 (o : Word) : Byte := s.mem.read (addressOf 0x00 o)
    let atPb (o : Word) : Byte := s.mem.read (addressOf s.pb o)
    opcodeOf (.jmpAbs a) = 0x4C ∧ opcodeOf (.jmpAbsInd a) = 0x6C ∧ opcodeOf (.jmpAbsXInd a) = 0x7C ∧
    opcodeOf (.jmpAbsl al) = 0x5C ∧ opcodeOf (.jml a) = 0xDC ∧
    exec (.jmpAbs a) s = .next { s with pc := a } ∧
    exec (.jmpAbsInd a) s = .next { s with pc := at0 (a + 1) ++ at0 a } ∧
    exec (.jmpAbsXInd a) s = .next { s with pc := atPb (a + s.x + 1) ++ atPb (a + s.x) } ∧
    exec (.jmpAbsl al) s = .next { s with pc := al.setWidth 16, pb := (al >>> 16).setWidth 8 } ∧
    exec (.jml a) s = .next { s with pc := at0 (a + 1) ++ at0 a, pb := at0 (a + 2) }

/-- JSR, JSR `(a,x)` and JSL (R228 to R230, R241): the offset of the call's last byte is pushed, for JSL after PB;
the target comes from the operand, or from the pointer in the program bank. Where a push lands on a byte of the
call or of its pointer, the call is refused (U9, log 10). With E = 1 and the bytes pushed straddling the start of
page $01, JSR `(a,x)` and JSL may leave the page (U6, log 8). -/
def Obligations.Calls : Prop :=
  ∀ (a : Word) (al : Address) (s : State),
    opcodeOf (.jsrAbs a) = 0x20 ∧ opcodeOf (.jsrAbsXInd a) = 0xFC ∧ opcodeOf (.jsl al) = 0x22 ∧
    (¬OverwritesOwnBytes s (.jsrAbs a) → ∃ mem : Memory,
      exec (.jsrAbs a) s = .next { s with mem := mem, sp := movedStack s.e s.sp 0xFFFE, pc := a } ∧
      CellsWritten mem s.mem (pushedCells .perByte s.e [hiByte (s.pc + 2), loByte (s.pc + 2)] s.sp)) ∧
    (¬OverwritesOwnBytes s (.jsrAbsXInd a) → ∃ (lock : StackLock) (mem : Memory),
      let o := a + s.x
      exec (.jsrAbsXInd a) s = .next
        { s with mem := mem, sp := movedStack s.e s.sp 0xFFFE,
                 pc := s.mem.read (addressOf s.pb (o + 1)) ++ s.mem.read (addressOf s.pb o) } ∧
      CellsWritten mem s.mem (pushedCells lock s.e [hiByte (s.pc + 2), loByte (s.pc + 2)] s.sp) ∧
      (¬(s.e = true ∧ loByte s.sp = 0x00) → lock = .perByte)) ∧
    (¬OverwritesOwnBytes s (.jsl al) → ∃ (lock : StackLock) (mem : Memory),
      exec (.jsl al) s = .next
        { s with mem := mem, sp := movedStack s.e s.sp 0xFFFD, pc := al.setWidth 16,
                 pb := (al >>> 16).setWidth 8 } ∧
      CellsWritten mem s.mem (pushedCells lock s.e [s.pb, hiByte (s.pc + 3), loByte (s.pc + 3)] s.sp) ∧
      (¬(s.e = true ∧ loByte s.sp ≤ 0x01#8) → lock = .perByte)) ∧
    ∀ i ∈ [Instr.jsrAbs a, .jsrAbsXInd a, .jsl al],
      OverwritesOwnBytes s i → exec i s = .refused .ownBytesOverwritten

/-- RTS and RTL (R235, R236): one more than the word pulled; RTL then pulls PB, and with E = 1 near the end of
page $01 may read above it (U6, log 8). -/
def Obligations.SubroutineReturns : Prop :=
  ∀ s : State,
    opcodeOf .rts = 0x60 ∧ opcodeOf .rtl = 0x6B ∧
    exec .rts s = .next
      { s with pc := (pulled s 2 ++ pulled s 1) + 1, sp := movedStack s.e s.sp 2 } ∧
    ∃ lock : StackLock,
      let at' (k : Word) : Byte := s.mem.read (pullAddress lock s.e s.sp k)
      exec .rtl s = .next
        { s with pc := (at' 2 ++ at' 1) + 1, pb := at' 3, sp := movedStack s.e s.sp 3 } ∧
      (¬(s.e = true ∧ 0xFD#8 ≤ loByte s.sp) → lock = .perByte)

/-- RTI (R234): P as by WriteP, then PC without the 1 that RTS adds, then with E = 0 PB. E is not restored. -/
def Obligations.ReturnFromInterrupt : Prop :=
  ∀ s : State,
    let q := statusAfter s.e (pulled s 1)
    opcodeOf .rti = 0x40 ∧
    exec .rti s = .next
      { s with p := q, x := indexAfter q s.x, y := indexAfter q s.y, pc := pulled s 3 ++ pulled s 2,
               pb := if s.e then s.pb else pulled s 4,
               sp := movedStack s.e s.sp (if s.e then 3 else 4) }

/-- BRK and COP (R220, R222; 60_exceptions.md R256, R257): with E = 0 PB, the offset after the signature byte and
P are pushed, with E = 1 that offset and P with bits 5 and 4 set; I is set, D cleared, PB $00, and PC the
vector's word, read after the pushes. I = 1 does not mask them. -/
def Obligations.SoftwareInterrupts : Prop :=
  ∀ (sig : Byte) (s : State),
    let ret := s.pc + 2
    let frame := if s.e then [hiByte ret, loByte ret, s.p ||| 0x30] else [s.pb, hiByte ret, loByte ret, s.p]
    ∀ c ∈ [(Instr.brk sig, 0x00#8, 0xFFE6#16, 0xFFFE#16), (.cop sig, 0x02#8, 0xFFE4#16, 0xFFF4#16)],
      let vec := if s.e then c.2.2.2 else c.2.2.1
      opcodeOf c.1 = c.2.1 ∧
      ∃ (mem : Memory) (p : Byte), exec c.1 s = .next
          { s with mem := mem, sp := movedStack s.e s.sp (if s.e then 0xFFFD else 0xFFFC), p := p, pb := 0x00,
                   pc := mem.read (addressOf 0 (vec + 1)) ++ mem.read (addressOf 0 vec), run := .running } ∧
        CellsWritten mem s.mem (pushedCells .perByte s.e frame s.sp) ∧
        StatusIs p s.p [(.d, false), (.i, true)]

/-- One execution of MVN or MVP (R231, R232): one byte from `src:X` to `dst:Y`, DB the destination bank, X and Y
one step up (MVN) or down (MVP) at the index width, A one less over 16 bits; PC stays until A has become
$FFFF. -/
def Obligations.BlockMoveByte : Prop :=
  ∀ (dst src : Byte) (s : State),
    let w := s.width .x
    ∀ c ∈ [(Instr.mvn dst src, 0x54#8, 0x0001#16), (.mvp dst src, 0x44#8, 0xFFFF#16)],
      opcodeOf c.1 = c.2.1 ∧
      ∃ mem, exec c.1 s = .next
          { s with mem := mem, db := dst, x := steppedIndex w s.x c.2.2 1, y := steppedIndex w s.y c.2.2 1,
                   a := s.a - 1, pc := if s.a = 0 then s.pc + 3 else s.pc } ∧
        CellsWritten mem s.mem [(addressOf dst s.y, s.mem.read (addressOf src s.x))]

/-- STP and WAI (R238, R239): PC moves past the instruction and the run state changes; nothing else. -/
def Obligations.StopAndWait : Prop :=
  ∀ s : State,
    opcodeOf .stp = 0xDB ∧ opcodeOf .wai = 0xCB ∧
    exec .stp s = .next { s with pc := s.pc + 1, run := .stopped } ∧
    exec .wai s = .next { s with pc := s.pc + 1, run := .waiting }

/-! ## Interrupts (60_exceptions.md) -/

/-- Taking NMI and IRQ (R253, R254, R256, R258 to R260, R263, R268), from a running or a waiting machine: NMI
where an edge is latched or arrives, whatever I is; IRQ where it is asserted, I = 0 and no NMI is pending. The
frame holds PC, and with E = 1 a status byte whose bit 4 is 0; the NMI latch is cleared. An edge arriving with
the sample counts at the same boundary (log 5). -/
def Obligations.HardwareInterrupts : Prop :=
  ∀ s : State, s.run ≠ .stopped → s.sample.reset = false → s.sample.abort = false →
    let frame := if s.e then [hiByte s.pc, loByte s.pc, (s.p ||| 0x20) &&& 0xEF]
      else [s.pb, hiByte s.pc, loByte s.pc, s.p]
    let enters (vec : Word) : Prop :=
      ∃ (mem : Memory) (p : Byte), step s = .next
          { s with mem := mem, sp := movedStack s.e s.sp (if s.e then 0xFFFD else 0xFFFC), p := p, pb := 0x00,
                   pc := mem.read (addressOf 0 (vec + 1)) ++ mem.read (addressOf 0 vec), run := .running,
                   nmiPending := false, inputs := s.inputs.tail } ∧
        CellsWritten mem s.mem (pushedCells .perByte s.e frame s.sp) ∧
        StatusIs p s.p [(.d, false), (.i, true)]
    (s.nmiPending = true ∨ s.sample.nmi = true → enters (if s.e then 0xFFFA else 0xFFEA)) ∧
    (s.nmiPending = false ∧ s.sample.nmi = false ∧ s.sample.irq = true ∧ s.flag .i = false →
      enters (if s.e then 0xFFFE else 0xFFEE))

/-- Waiting and stopped steps (R263, R264): a stopped machine changes nothing but by reset, and does not latch an
NMI edge; a waiting one with nothing asserted changes nothing, and with IRQ asserted and I = 1 goes on running
without taking it. Each step uses up one sample of the inputs (log 5). -/
def Obligations.WaitingAndStoppedSteps : Prop :=
  ∀ s : State, s.sample.reset = false →
    (s.run = .stopped → step s = .next { s with inputs := s.inputs.tail }) ∧
    (s.run = .waiting → s.sample.abort = false → s.sample.nmi = false → s.nmiPending = false →
      (s.sample.irq = false → step s = .next { s with inputs := s.inputs.tail }) ∧
      (s.sample.irq = true → s.flag .i = true →
        step s = .next { s with inputs := s.inputs.tail, run := .running }))

/-- A return undoes its call (45_table7_other.md R241): executed where the call left the machine, RTS after JSR
and RTL after JSL go on at the instruction after the call with the same stack pointer and, for JSL, bank. The calls
that push onto their own bytes are left out, since they are refused (U9, log 10), and for JSL and its RTL the states
of U6: E = 1 and SL below 3 before the JSL. -/
def Obligations.CallThenReturn : Prop :=
  ∀ s : State, s.Inv →
    (∀ a : Word, ¬OverwritesOwnBytes s (.jsrAbs a) → ∃ t, exec (.jsrAbs a) s = .next t ∧
      exec .rts t = .next { s with mem := t.mem, pc := s.pc + 3 }) ∧
    (¬(s.e = true ∧ loByte s.sp < 0x03#8) → ∀ al : Address, ¬OverwritesOwnBytes s (.jsl al) →
      ∃ t, exec (.jsl al) s = .next t ∧ exec .rtl t = .next { s with mem := t.mem, pc := s.pc + 4 })

/-- RTI undoes an entry (R261, R262): from a state that meets the invariant, executed at the handler's first
instruction it restores P, PC, S and with E = 0 PB as they were; with E = 1 PB is left at $00 (R256). For BRK
and COP the pulled PC is the offset after the signature byte; for IRQ and NMI it is the interrupted one. That an
NMI edge is served at the boundary it arrives at is the model's choice (log 5). -/
def Obligations.InterruptThenReturn : Prop :=
  ∀ s : State, s.Inv →
    (∀ sig : Byte, ∀ i ∈ [Instr.brk sig, .cop sig],
      ∃ t, exec i s = .next t ∧
        exec .rti t = .next
          { s with mem := t.mem, pc := s.pc + 2, pb := if s.e then 0x00 else s.pb, run := .running }) ∧
    (s.run ≠ .stopped → s.sample.reset = false → s.sample.abort = false →
      (s.nmiPending = true ∨ s.sample.nmi = true ∨ (s.sample.irq = true ∧ s.flag .i = false)) →
      ∃ t, step s = .next t ∧
        exec .rti t = .next
          { s with mem := t.mem, pb := if s.e then 0x00 else s.pb, run := .running, nmiPending := false,
                   inputs := s.inputs.tail })

/-- A whole block move between two banks (45_table7_other.md R231, R232): executed A + 1 times it copies A + 1
bytes, each from the source offset to the destination offset of its step, changes no other byte, and ends with
A = $FFFF, X and Y stepped A + 1 times, DB the destination bank and PC past the instruction. -/
def Obligations.WholeBlockMove : Prop :=
  ∀ (dst src : Byte) (s : State), dst ≠ src →
    let w := s.width .x
    let n := s.a.toNat
    (w = .w8 → hiByte s.x = 0x00 ∧ hiByte s.y = 0x00) →
    ∀ c ∈ [(Instr.mvn dst src, 0x0001#16), (.mvp dst src, 0xFFFF#16)],
      ∃ mem, repeatExec c.1 (n + 1) s = some
          { s with mem := mem, db := dst, x := steppedIndex w s.x c.2 (n + 1),
                   y := steppedIndex w s.y c.2 (n + 1), a := 0xFFFF, pc := s.pc + 3 } ∧
        (∀ k : Nat, k ≤ n → mem.read (addressOf dst (steppedIndex w s.y c.2 k)) =
          s.mem.read (addressOf src (steppedIndex w s.x c.2 k))) ∧
        ∀ b : Address, (∀ k : Nat, k ≤ n → b ≠ addressOf dst (steppedIndex w s.y c.2 k)) →
          mem.read b = s.mem.read b

/-! ## The memory map (20_memory.md) -/

/-- A memory map as configuration (20_memory.md R59), for every map: RAM gives back what was written, ROM ignores
writes, a read of an address without memory gives the platform's byte, a mirror is its target, and an address
outside a region is the next region's. A write changes nothing but the bytes that it is seen at, and keeps the
canonical form. The map of the machine is the spec's default, on which every address is RAM of its own. That the
regions are an ordered list, and a write without memory is ignored, is the model's choice (log 22). -/
def Obligations.MemoryMapAccess : Prop :=
  (∀ (m : Memory) (a b : Address) (v : Byte),
    m.read a = m.readIn [] a ∧ m.write a v = m.writeIn [] a v ∧
    (m.writeIn [] a v).readIn [] b = if b = a then v else m.readIn [] b) ∧
  (∀ (map : MemoryMap) (m : Memory) (a b : Address) (v : Byte),
    (m.writeIn map a v).readIn map b = (if writeSeen map a b then v else m.readIn map b) ∧
    (m.wf → (m.writeIn map a v).wf)) ∧
  ∀ (r : Region) (map : MemoryMap) (m : Memory) (a : Address) (v : Byte),
    if r.base ≤ a.toNat ∧ a.toNat < r.base + r.size then
      match r.kind with
      | .ram => (m.writeIn (r :: map) a v).readIn (r :: map) a = v
      | .rom => m.writeIn (r :: map) a v = m ∧ m.readIn (r :: map) a = m.readIn [] a
      | .unpopulated => m.writeIn (r :: map) a v = m ∧ m.readIn (r :: map) a = Config.unpopulatedByte a
      | .mirror base size =>
        ∀ t : Address, t.toNat = (base + (a.toNat - r.base) % size) % 2 ^ 24 →
          m.writeIn (r :: map) a v = m.writeIn map t v ∧
          (backing map t.toNat ≠ .nothing → m.readIn (r :: map) a = m.readIn map t)
    else m.writeIn (r :: map) a v = m.writeIn map a v ∧ m.readIn (r :: map) a = m.readIn map a
end

