-- ==== Sys2Proof/Laws/State.lean ====
section
/-! SUPPORT. One lemma per field per update of the state, so that no later proof unfolds a record update. -/

namespace Sys2Proof.Machine

/-! ## `setFlag` -/

@[simp] theorem setFlag_a (s : State) (f : Flag) (b : Bool) : (s.setFlag f b).a = s.a := rfl
@[simp] theorem setFlag_x (s : State) (f : Flag) (b : Bool) : (s.setFlag f b).x = s.x := rfl
@[simp] theorem setFlag_y (s : State) (f : Flag) (b : Bool) : (s.setFlag f b).y = s.y := rfl
@[simp] theorem setFlag_sp (s : State) (f : Flag) (b : Bool) : (s.setFlag f b).sp = s.sp := rfl
@[simp] theorem setFlag_d (s : State) (f : Flag) (b : Bool) : (s.setFlag f b).d = s.d := rfl
@[simp] theorem setFlag_db (s : State) (f : Flag) (b : Bool) : (s.setFlag f b).db = s.db := rfl
@[simp] theorem setFlag_pb (s : State) (f : Flag) (b : Bool) : (s.setFlag f b).pb = s.pb := rfl
@[simp] theorem setFlag_pc (s : State) (f : Flag) (b : Bool) : (s.setFlag f b).pc = s.pc := rfl
@[simp] theorem setFlag_p (s : State) (f : Flag) (b : Bool) : (s.setFlag f b).p = putBit s.p f.bit b := rfl
@[simp] theorem setFlag_e (s : State) (f : Flag) (b : Bool) : (s.setFlag f b).e = s.e := rfl
@[simp] theorem setFlag_run (s : State) (f : Flag) (b : Bool) : (s.setFlag f b).run = s.run := rfl
@[simp] theorem setFlag_nmiPending (s : State) (f : Flag) (b : Bool) : (s.setFlag f b).nmiPending = s.nmiPending :=
  rfl
@[simp] theorem setFlag_inputs (s : State) (f : Flag) (b : Bool) : (s.setFlag f b).inputs = s.inputs := rfl
@[simp] theorem setFlag_draws (s : State) (f : Flag) (b : Bool) : (s.setFlag f b).draws = s.draws := rfl
@[simp] theorem setFlag_mem (s : State) (f : Flag) (b : Bool) : (s.setFlag f b).mem = s.mem := rfl

/-! ## `setNZ` -/

@[simp] theorem setNZ_a (s : State) {n : Nat} (r : BitVec n) : (s.setNZ r).a = s.a := rfl
@[simp] theorem setNZ_x (s : State) {n : Nat} (r : BitVec n) : (s.setNZ r).x = s.x := rfl
@[simp] theorem setNZ_y (s : State) {n : Nat} (r : BitVec n) : (s.setNZ r).y = s.y := rfl
@[simp] theorem setNZ_sp (s : State) {n : Nat} (r : BitVec n) : (s.setNZ r).sp = s.sp := rfl
@[simp] theorem setNZ_d (s : State) {n : Nat} (r : BitVec n) : (s.setNZ r).d = s.d := rfl
@[simp] theorem setNZ_db (s : State) {n : Nat} (r : BitVec n) : (s.setNZ r).db = s.db := rfl
@[simp] theorem setNZ_pb (s : State) {n : Nat} (r : BitVec n) : (s.setNZ r).pb = s.pb := rfl
@[simp] theorem setNZ_pc (s : State) {n : Nat} (r : BitVec n) : (s.setNZ r).pc = s.pc := rfl
@[simp] theorem setNZ_p (s : State) {n : Nat} (r : BitVec n) :
    (s.setNZ r).p = putBit (putBit s.p Flag.n.bit r.msb) Flag.z.bit (r == 0#n) :=
  rfl
@[simp] theorem setNZ_e (s : State) {n : Nat} (r : BitVec n) : (s.setNZ r).e = s.e := rfl
@[simp] theorem setNZ_run (s : State) {n : Nat} (r : BitVec n) : (s.setNZ r).run = s.run := rfl
@[simp] theorem setNZ_nmiPending (s : State) {n : Nat} (r : BitVec n) : (s.setNZ r).nmiPending = s.nmiPending := rfl
@[simp] theorem setNZ_inputs (s : State) {n : Nat} (r : BitVec n) : (s.setNZ r).inputs = s.inputs := rfl
@[simp] theorem setNZ_draws (s : State) {n : Nat} (r : BitVec n) : (s.setNZ r).draws = s.draws := rfl
@[simp] theorem setNZ_mem (s : State) {n : Nat} (r : BitVec n) : (s.setNZ r).mem = s.mem := rfl

/-! ## `advance` -/

@[simp] theorem advance_a (s : State) (len : Word) : (s.advance len).a = s.a := rfl
@[simp] theorem advance_x (s : State) (len : Word) : (s.advance len).x = s.x := rfl
@[simp] theorem advance_y (s : State) (len : Word) : (s.advance len).y = s.y := rfl
@[simp] theorem advance_sp (s : State) (len : Word) : (s.advance len).sp = s.sp := rfl
@[simp] theorem advance_d (s : State) (len : Word) : (s.advance len).d = s.d := rfl
@[simp] theorem advance_db (s : State) (len : Word) : (s.advance len).db = s.db := rfl
@[simp] theorem advance_pb (s : State) (len : Word) : (s.advance len).pb = s.pb := rfl
@[simp] theorem advance_pc (s : State) (len : Word) : (s.advance len).pc = s.pc + len := rfl
@[simp] theorem advance_p (s : State) (len : Word) : (s.advance len).p = s.p := rfl
@[simp] theorem advance_e (s : State) (len : Word) : (s.advance len).e = s.e := rfl
@[simp] theorem advance_run (s : State) (len : Word) : (s.advance len).run = s.run := rfl
@[simp] theorem advance_nmiPending (s : State) (len : Word) : (s.advance len).nmiPending = s.nmiPending := rfl
@[simp] theorem advance_inputs (s : State) (len : Word) : (s.advance len).inputs = s.inputs := rfl
@[simp] theorem advance_draws (s : State) (len : Word) : (s.advance len).draws = s.draws := rfl
@[simp] theorem advance_mem (s : State) (len : Word) : (s.advance len).mem = s.mem := rfl

/-! ## `clearIndexHigh` -/

@[simp] theorem clearIndexHigh_a (s : State) : (s.clearIndexHigh).a = s.a := rfl
@[simp] theorem clearIndexHigh_x (s : State) : (s.clearIndexHigh).x = word16 (loByte s.x) 0 := rfl
@[simp] theorem clearIndexHigh_y (s : State) : (s.clearIndexHigh).y = word16 (loByte s.y) 0 := rfl
@[simp] theorem clearIndexHigh_sp (s : State) : (s.clearIndexHigh).sp = s.sp := rfl
@[simp] theorem clearIndexHigh_d (s : State) : (s.clearIndexHigh).d = s.d := rfl
@[simp] theorem clearIndexHigh_db (s : State) : (s.clearIndexHigh).db = s.db := rfl
@[simp] theorem clearIndexHigh_pb (s : State) : (s.clearIndexHigh).pb = s.pb := rfl
@[simp] theorem clearIndexHigh_pc (s : State) : (s.clearIndexHigh).pc = s.pc := rfl
@[simp] theorem clearIndexHigh_p (s : State) : (s.clearIndexHigh).p = s.p := rfl
@[simp] theorem clearIndexHigh_e (s : State) : (s.clearIndexHigh).e = s.e := rfl
@[simp] theorem clearIndexHigh_run (s : State) : (s.clearIndexHigh).run = s.run := rfl
@[simp] theorem clearIndexHigh_nmiPending (s : State) : (s.clearIndexHigh).nmiPending = s.nmiPending := rfl
@[simp] theorem clearIndexHigh_inputs (s : State) : (s.clearIndexHigh).inputs = s.inputs := rfl
@[simp] theorem clearIndexHigh_draws (s : State) : (s.clearIndexHigh).draws = s.draws := rfl
@[simp] theorem clearIndexHigh_mem (s : State) : (s.clearIndexHigh).mem = s.mem := rfl

/-! ## `push` -/

@[simp] theorem push_a (s : State) (lock : StackLock) (v : Byte) : (s.push lock v).a = s.a := rfl
@[simp] theorem push_x (s : State) (lock : StackLock) (v : Byte) : (s.push lock v).x = s.x := rfl
@[simp] theorem push_y (s : State) (lock : StackLock) (v : Byte) : (s.push lock v).y = s.y := rfl
@[simp] theorem push_sp (s : State) (lock : StackLock) (v : Byte) :
    (s.push lock v).sp = stackStep lock s.e (s.sp - 1) :=
  rfl
@[simp] theorem push_d (s : State) (lock : StackLock) (v : Byte) : (s.push lock v).d = s.d := rfl
@[simp] theorem push_db (s : State) (lock : StackLock) (v : Byte) : (s.push lock v).db = s.db := rfl
@[simp] theorem push_pb (s : State) (lock : StackLock) (v : Byte) : (s.push lock v).pb = s.pb := rfl
@[simp] theorem push_pc (s : State) (lock : StackLock) (v : Byte) : (s.push lock v).pc = s.pc := rfl
@[simp] theorem push_p (s : State) (lock : StackLock) (v : Byte) : (s.push lock v).p = s.p := rfl
@[simp] theorem push_e (s : State) (lock : StackLock) (v : Byte) : (s.push lock v).e = s.e := rfl
@[simp] theorem push_run (s : State) (lock : StackLock) (v : Byte) : (s.push lock v).run = s.run := rfl
@[simp] theorem push_nmiPending (s : State) (lock : StackLock) (v : Byte) :
    (s.push lock v).nmiPending = s.nmiPending :=
  rfl
@[simp] theorem push_inputs (s : State) (lock : StackLock) (v : Byte) : (s.push lock v).inputs = s.inputs := rfl
@[simp] theorem push_draws (s : State) (lock : StackLock) (v : Byte) : (s.push lock v).draws = s.draws := rfl
@[simp] theorem push_mem (s : State) (lock : StackLock) (v : Byte) :
    (s.push lock v).mem = s.mem.write (addressOf 0 s.sp) v :=
  rfl

/-! ## `pull8` -/

@[simp] theorem pull8_a (s : State) (lock : StackLock) : ((s.pull8 lock).2).a = s.a := rfl
@[simp] theorem pull8_x (s : State) (lock : StackLock) : ((s.pull8 lock).2).x = s.x := rfl
@[simp] theorem pull8_y (s : State) (lock : StackLock) : ((s.pull8 lock).2).y = s.y := rfl
@[simp] theorem pull8_sp (s : State) (lock : StackLock) : ((s.pull8 lock).2).sp = s.pulledSp lock := rfl
@[simp] theorem pull8_d (s : State) (lock : StackLock) : ((s.pull8 lock).2).d = s.d := rfl
@[simp] theorem pull8_db (s : State) (lock : StackLock) : ((s.pull8 lock).2).db = s.db := rfl
@[simp] theorem pull8_pb (s : State) (lock : StackLock) : ((s.pull8 lock).2).pb = s.pb := rfl
@[simp] theorem pull8_pc (s : State) (lock : StackLock) : ((s.pull8 lock).2).pc = s.pc := rfl
@[simp] theorem pull8_p (s : State) (lock : StackLock) : ((s.pull8 lock).2).p = s.p := rfl
@[simp] theorem pull8_e (s : State) (lock : StackLock) : ((s.pull8 lock).2).e = s.e := rfl
@[simp] theorem pull8_run (s : State) (lock : StackLock) : ((s.pull8 lock).2).run = s.run := rfl
@[simp] theorem pull8_nmiPending (s : State) (lock : StackLock) : ((s.pull8 lock).2).nmiPending = s.nmiPending := rfl
@[simp] theorem pull8_inputs (s : State) (lock : StackLock) : ((s.pull8 lock).2).inputs = s.inputs := rfl
@[simp] theorem pull8_draws (s : State) (lock : StackLock) : ((s.pull8 lock).2).draws = s.draws := rfl
@[simp] theorem pull8_mem (s : State) (lock : StackLock) : ((s.pull8 lock).2).mem = s.mem := rfl

/-! ## `pull16` -/

@[simp] theorem pull16_a (s : State) (lock : StackLock) : ((s.pull16 lock).2).a = s.a := rfl
@[simp] theorem pull16_x (s : State) (lock : StackLock) : ((s.pull16 lock).2).x = s.x := rfl
@[simp] theorem pull16_y (s : State) (lock : StackLock) : ((s.pull16 lock).2).y = s.y := rfl
@[simp] theorem pull16_sp (s : State) (lock : StackLock) :
    ((s.pull16 lock).2).sp = stackStep lock s.e (s.pulledSp lock + 1) :=
  rfl
@[simp] theorem pull16_d (s : State) (lock : StackLock) : ((s.pull16 lock).2).d = s.d := rfl
@[simp] theorem pull16_db (s : State) (lock : StackLock) : ((s.pull16 lock).2).db = s.db := rfl
@[simp] theorem pull16_pb (s : State) (lock : StackLock) : ((s.pull16 lock).2).pb = s.pb := rfl
@[simp] theorem pull16_pc (s : State) (lock : StackLock) : ((s.pull16 lock).2).pc = s.pc := rfl
@[simp] theorem pull16_p (s : State) (lock : StackLock) : ((s.pull16 lock).2).p = s.p := rfl
@[simp] theorem pull16_e (s : State) (lock : StackLock) : ((s.pull16 lock).2).e = s.e := rfl
@[simp] theorem pull16_run (s : State) (lock : StackLock) : ((s.pull16 lock).2).run = s.run := rfl
@[simp] theorem pull16_nmiPending (s : State) (lock : StackLock) : ((s.pull16 lock).2).nmiPending = s.nmiPending :=
  rfl
@[simp] theorem pull16_inputs (s : State) (lock : StackLock) : ((s.pull16 lock).2).inputs = s.inputs := rfl
@[simp] theorem pull16_draws (s : State) (lock : StackLock) : ((s.pull16 lock).2).draws = s.draws := rfl
@[simp] theorem pull16_mem (s : State) (lock : StackLock) : ((s.pull16 lock).2).mem = s.mem := rfl

/-! ## `lockStack` -/

@[simp] theorem lockStack_a (s : State) : (s.lockStack).a = s.a := rfl
@[simp] theorem lockStack_x (s : State) : (s.lockStack).x = s.x := rfl
@[simp] theorem lockStack_y (s : State) : (s.lockStack).y = s.y := rfl
@[simp] theorem lockStack_sp (s : State) : (s.lockStack).sp = lockPage s.e s.sp := rfl
@[simp] theorem lockStack_d (s : State) : (s.lockStack).d = s.d := rfl
@[simp] theorem lockStack_db (s : State) : (s.lockStack).db = s.db := rfl
@[simp] theorem lockStack_pb (s : State) : (s.lockStack).pb = s.pb := rfl
@[simp] theorem lockStack_pc (s : State) : (s.lockStack).pc = s.pc := rfl
@[simp] theorem lockStack_p (s : State) : (s.lockStack).p = s.p := rfl
@[simp] theorem lockStack_e (s : State) : (s.lockStack).e = s.e := rfl
@[simp] theorem lockStack_run (s : State) : (s.lockStack).run = s.run := rfl
@[simp] theorem lockStack_nmiPending (s : State) : (s.lockStack).nmiPending = s.nmiPending := rfl
@[simp] theorem lockStack_inputs (s : State) : (s.lockStack).inputs = s.inputs := rfl
@[simp] theorem lockStack_draws (s : State) : (s.lockStack).draws = s.draws := rfl
@[simp] theorem lockStack_mem (s : State) : (s.lockStack).mem = s.mem := rfl

/-! ## `latch` -/

@[simp] theorem latch_a (s : State) : (s.latch).a = s.a := rfl
@[simp] theorem latch_x (s : State) : (s.latch).x = s.x := rfl
@[simp] theorem latch_y (s : State) : (s.latch).y = s.y := rfl
@[simp] theorem latch_sp (s : State) : (s.latch).sp = s.sp := rfl
@[simp] theorem latch_d (s : State) : (s.latch).d = s.d := rfl
@[simp] theorem latch_db (s : State) : (s.latch).db = s.db := rfl
@[simp] theorem latch_pb (s : State) : (s.latch).pb = s.pb := rfl
@[simp] theorem latch_pc (s : State) : (s.latch).pc = s.pc := rfl
@[simp] theorem latch_p (s : State) : (s.latch).p = s.p := rfl
@[simp] theorem latch_e (s : State) : (s.latch).e = s.e := rfl
@[simp] theorem latch_run (s : State) : (s.latch).run = s.run := rfl
@[simp] theorem latch_nmiPending (s : State) :
    (s.latch).nmiPending = (s.nmiPending || (s.sample.nmi && decide (s.run ≠ .stopped))) :=
  rfl
@[simp] theorem latch_inputs (s : State) : (s.latch).inputs = s.inputs.tail := rfl
@[simp] theorem latch_draws (s : State) : (s.latch).draws = s.draws := rfl
@[simp] theorem latch_mem (s : State) : (s.latch).mem = s.mem := rfl

/-! ## `pushAll` -/

@[simp] theorem pushAll_a (lock : StackLock) (vs : List Byte) (s : State) :
    (s.pushAll lock vs).a = s.a := by
  induction vs generalizing s with
  | nil => rfl
  | cons v vs ih => simp [State.pushAll, ih]
@[simp] theorem pushAll_x (lock : StackLock) (vs : List Byte) (s : State) :
    (s.pushAll lock vs).x = s.x := by
  induction vs generalizing s with
  | nil => rfl
  | cons v vs ih => simp [State.pushAll, ih]
@[simp] theorem pushAll_y (lock : StackLock) (vs : List Byte) (s : State) :
    (s.pushAll lock vs).y = s.y := by
  induction vs generalizing s with
  | nil => rfl
  | cons v vs ih => simp [State.pushAll, ih]
@[simp] theorem pushAll_d (lock : StackLock) (vs : List Byte) (s : State) :
    (s.pushAll lock vs).d = s.d := by
  induction vs generalizing s with
  | nil => rfl
  | cons v vs ih => simp [State.pushAll, ih]
@[simp] theorem pushAll_db (lock : StackLock) (vs : List Byte) (s : State) :
    (s.pushAll lock vs).db = s.db := by
  induction vs generalizing s with
  | nil => rfl
  | cons v vs ih => simp [State.pushAll, ih]
@[simp] theorem pushAll_pb (lock : StackLock) (vs : List Byte) (s : State) :
    (s.pushAll lock vs).pb = s.pb := by
  induction vs generalizing s with
  | nil => rfl
  | cons v vs ih => simp [State.pushAll, ih]
@[simp] theorem pushAll_pc (lock : StackLock) (vs : List Byte) (s : State) :
    (s.pushAll lock vs).pc = s.pc := by
  induction vs generalizing s with
  | nil => rfl
  | cons v vs ih => simp [State.pushAll, ih]
@[simp] theorem pushAll_p (lock : StackLock) (vs : List Byte) (s : State) :
    (s.pushAll lock vs).p = s.p := by
  induction vs generalizing s with
  | nil => rfl
  | cons v vs ih => simp [State.pushAll, ih]
@[simp] theorem pushAll_e (lock : StackLock) (vs : List Byte) (s : State) :
    (s.pushAll lock vs).e = s.e := by
  induction vs generalizing s with
  | nil => rfl
  | cons v vs ih => simp [State.pushAll, ih]
@[simp] theorem pushAll_run (lock : StackLock) (vs : List Byte) (s : State) :
    (s.pushAll lock vs).run = s.run := by
  induction vs generalizing s with
  | nil => rfl
  | cons v vs ih => simp [State.pushAll, ih]
@[simp] theorem pushAll_nmiPending (lock : StackLock) (vs : List Byte) (s : State) :
    (s.pushAll lock vs).nmiPending = s.nmiPending := by
  induction vs generalizing s with
  | nil => rfl
  | cons v vs ih => simp [State.pushAll, ih]
@[simp] theorem pushAll_inputs (lock : StackLock) (vs : List Byte) (s : State) :
    (s.pushAll lock vs).inputs = s.inputs := by
  induction vs generalizing s with
  | nil => rfl
  | cons v vs ih => simp [State.pushAll, ih]
@[simp] theorem pushAll_draws (lock : StackLock) (vs : List Byte) (s : State) :
    (s.pushAll lock vs).draws = s.draws := by
  induction vs generalizing s with
  | nil => rfl
  | cons v vs ih => simp [State.pushAll, ih]

/-! ## `writeP` -/

/-- `WriteP`, field by field (10_state.md R37). -/
theorem writeP_eq (s : State) (v : Byte) :
    s.writeP v =
      { s with
        p := if s.e then v ||| 0x30 else v
        x := if s.e || v.getLsbD 4 then word16 (loByte s.x) 0 else s.x
        y := if s.e || v.getLsbD 4 then word16 (loByte s.y) 0 else s.y } := by
  cases h : s.e <;> cases h4 : v.getLsbD 4 <;>
    simp [State.writeP, State.flag, Flag.bit, h, h4, State.clearIndexHigh, -BitVec.getLsbD_eq_getElem]
@[simp] theorem writeP_a (s : State) (v : Byte) : (s.writeP v).a = s.a := by rw [writeP_eq]
@[simp] theorem writeP_x (s : State) (v : Byte) :
    (s.writeP v).x = if s.e || v.getLsbD 4 then word16 (loByte s.x) 0 else s.x := by rw [writeP_eq]
@[simp] theorem writeP_y (s : State) (v : Byte) :
    (s.writeP v).y = if s.e || v.getLsbD 4 then word16 (loByte s.y) 0 else s.y := by rw [writeP_eq]
@[simp] theorem writeP_sp (s : State) (v : Byte) : (s.writeP v).sp = s.sp := by rw [writeP_eq]
@[simp] theorem writeP_d (s : State) (v : Byte) : (s.writeP v).d = s.d := by rw [writeP_eq]
@[simp] theorem writeP_db (s : State) (v : Byte) : (s.writeP v).db = s.db := by rw [writeP_eq]
@[simp] theorem writeP_pb (s : State) (v : Byte) : (s.writeP v).pb = s.pb := by rw [writeP_eq]
@[simp] theorem writeP_pc (s : State) (v : Byte) : (s.writeP v).pc = s.pc := by rw [writeP_eq]
@[simp] theorem writeP_p (s : State) (v : Byte) :
    (s.writeP v).p = if s.e then v ||| 0x30 else v := by rw [writeP_eq]
@[simp] theorem writeP_e (s : State) (v : Byte) : (s.writeP v).e = s.e := by rw [writeP_eq]
@[simp] theorem writeP_run (s : State) (v : Byte) : (s.writeP v).run = s.run := by rw [writeP_eq]
@[simp] theorem writeP_nmiPending (s : State) (v : Byte) : (s.writeP v).nmiPending = s.nmiPending := by rw [writeP_eq]
@[simp] theorem writeP_inputs (s : State) (v : Byte) : (s.writeP v).inputs = s.inputs := by rw [writeP_eq]
@[simp] theorem writeP_draws (s : State) (v : Byte) : (s.writeP v).draws = s.draws := by rw [writeP_eq]
@[simp] theorem writeP_mem (s : State) (v : Byte) : (s.writeP v).mem = s.mem := by rw [writeP_eq]

end Sys2Proof.Machine
end

