-- ==== Sys2Proof/Laws/Flags.lean ====
section
/-! SUPPORT. The laws of P: what a flag reads after a write of P, how writes of flags compose into `StatusIs`, and
the widths after an update. -/

namespace Sys2Proof.Machine

theorem getLsbD_putBit (p : Byte) (k j : Nat) (b : Bool) (hk : k < 8) :
    (putBit p k b).getLsbD j = if j = k then b else p.getLsbD j := by
  by_cases hj : j < 8
  · cases b <;> simp only [putBit, Bool.false_eq_true, if_false, if_true, BitVec.getLsbD_or, BitVec.getLsbD_and,
      BitVec.getLsbD_not, BitVec.getLsbD_shiftLeft, BitVec.getLsbD_one, hj, decide_true, Bool.true_and] <;>
      by_cases hjk : j = k <;> simp [hjk] <;> omega
  · rw [BitVec.getLsbD_of_ge _ _ (by omega), BitVec.getLsbD_of_ge _ _ (by omega), if_neg (by omega)]

theorem Flag.bit_lt (f : Flag) : f.bit < 8 := by cases f <;> decide

theorem Flag.bit_inj (f g : Flag) : f.bit = g.bit ↔ f = g := by cases f <;> cases g <;> decide

/-- A flag of P after one flag has been written. -/
@[simp] theorem putBit_flag (p : Byte) (f g : Flag) (b : Bool) :
    (putBit p f.bit b).getLsbD g.bit = if g = f then b else p.getLsbD g.bit := by
  rw [getLsbD_putBit _ _ _ _ f.bit_lt]; simp only [Flag.bit_inj]

/-- A flag after one flag has been written. -/
@[simp] theorem flag_setFlag (s : State) (f g : Flag) (b : Bool) :
    (s.setFlag f b).flag g = if g = f then b else s.flag g := putBit_flag s.p f g b

/-- A flag after N and Z have been written. -/
@[simp] theorem flag_setNZ (s : State) {n : Nat} (r : BitVec n) (g : Flag) :
    (s.setNZ r).flag g = if g = .z then r == 0#n else if g = .n then r.msb else s.flag g := by
  simp [State.setNZ]

/-- Two states with the same P have the same flags. -/
theorem flag_congr {s t : State} (h : t.p = s.p) (f : Flag) : t.flag f = s.flag f := by
  simp [State.flag, h]

/-- Two states with the same P and E have the same widths. -/
theorem width_congr {s t : State} (hp : t.p = s.p) (he : t.e = s.e) (sel : Selector) :
    t.width sel = s.width sel := by
  unfold State.width State.m8 State.x8 State.flag; rw [hp, he]

/-- `m8` as the width of a Pm row. -/
theorem width_m (s : State) : s.width .m = if s.m8 then .w8 else .w16 := rfl

/-- `x8` as the width of a Px row. -/
theorem width_x (s : State) : s.width .x = if s.x8 then .w8 else .w16 := rfl

theorem statusIs_refl (p : Byte) : StatusIs p p [] := fun _ => rfl

/-- A flag written on top of other changes. -/
theorem statusIs_put {q p : Byte} {l : List (Flag × Bool)} (f : Flag) (b : Bool) (h : StatusIs q p l) :
    StatusIs (putBit q f.bit b) p ((f, b) :: l) := by
  intro g
  rw [putBit_flag, List.lookup_cons]
  by_cases hg : g = f
  · simp [hg]
  · simpa [hg, beq_eq_false_iff_ne.mpr hg] using h g

/-- The order in which changes of different flags are listed does not matter. -/
theorem statusIs_congr {q p : Byte} {l l' : List (Flag × Bool)} (h : StatusIs q p l)
    (hl : ∀ f, l'.lookup f = l.lookup f) : StatusIs q p l' := by
  intro f; rw [hl f]; exact h f

/-- P after N and Z have been written. -/
theorem statusIs_setNZ (s : State) {n : Nat} (r : BitVec n) :
    StatusIs (s.setNZ r).p s.p [(.n, r.msb), (.z, r == 0#n)] :=
  statusIs_congr (statusIs_put .z _ (statusIs_put .n _ (statusIs_refl s.p)))
    (by intro f; cases f <;> rfl)

theorem sub_beq_zero {n : Nat} (r m : BitVec n) : (r - m == 0#n) = (r == m) := by
  rw [Bool.eq_iff_iff, beq_iff_eq, beq_iff_eq]
  constructor
  · intro h
    have h' := BitVec.sub_add_cancel r m
    rw [h, BitVec.zero_add] at h'; exact h'.symm
  · rintro rfl; exact BitVec.sub_self r

/-- P after C has been written and then N and Z, as a shift does. -/
theorem statusIs_shift (s : State) {n : Nat} (r : BitVec n) (c : Bool) :
    StatusIs ((s.setFlag .c c).setNZ r).p s.p [(.n, r.msb), (.z, r == 0#n), (.c, c)] :=
  statusIs_congr (statusIs_put .z _ (statusIs_put .n _ (statusIs_put .c c (statusIs_refl s.p))))
    (by intro f; cases f <;> rfl)

/-- P after a comparison. -/
theorem statusIs_compare (s : State) {n : Nat} (r m : BitVec n) (c : Bool) :
    StatusIs ((s.setFlag .c c).setNZ (r - m)).p s.p [(.n, (r - m).msb), (.z, r == m), (.c, c)] := by
  rw [← sub_beq_zero]; exact statusIs_shift s (r - m) c

/-- P after an addition or a subtraction. -/
theorem statusIs_arith (s : State) {n : Nat} (r : BitVec n) (v c : Bool) :
    StatusIs (((s.setFlag .c c).setFlag .v v).setNZ r).p s.p [(.n, r.msb), (.v, v), (.z, r == 0#n), (.c, c)] :=
  statusIs_congr (statusIs_put .z _ (statusIs_put .n _ (statusIs_put .v v (statusIs_put .c c
    (statusIs_refl s.p))))) (by intro f; cases f <;> rfl)

/-- Two bytes with the same eight flags are equal. -/
theorem status_ext {p q : Byte} (h : ∀ f : Flag, p.getLsbD f.bit = q.getLsbD f.bit) : p = q := by
  have h0 := h .c; have h1 := h .z; have h2 := h .i; have h3 := h .d
  have h4 := h .x; have h5 := h .m; have h6 := h .v; have h7 := h .n
  simp only [Flag.bit] at h0 h1 h2 h3 h4 h5 h6 h7
  apply BitVec.eq_of_getLsbD_eq
  intro i hi
  interval_cases i <;> assumption

end Sys2Proof.Machine
end

