-- ==== Sys2Proof/Laws/Memory.lean ====
section
/-! SUPPORT. The laws of memory: what a read gives after a write, on any memory map and on the platform's, and that
every write keeps the canonical form. -/

namespace Sys2Proof.Machine

theorem lookup_erase (m : Memory) (k j : Nat) :
    (m.erase k).lookup j = if j = k then Config.unlistedByte else m.lookup j := by
  induction m with
  | nil => simp [Memory.erase, Memory.lookup]
  | cons c m ih =>
    simp only [Memory.erase] at ih
    rcases c with ⟨c, b⟩
    by_cases hc : c = k
    · subst hc
      by_cases hj : j = c
      · subst hj; simpa [Memory.erase] using ih
      · simp only [Memory.erase, List.filter, ne_eq, not_true_eq_false, decide_false, ih, if_neg hj,
          Memory.lookup, if_neg (Ne.symm hj)]
    · by_cases hj : c = j
      · subst hj; simp [Memory.erase, List.filter, Memory.lookup, hc]
      · simp only [Memory.erase, List.filter, ne_eq, hc, not_false_eq_true, decide_true, Memory.lookup, if_neg hj, ih]

theorem lookup_insert (m : Memory) (k j : Nat) (b : Byte) (h : ∀ c ∈ m, c.1 ≠ k) :
    (m.insert k b).lookup j = if j = k then b else m.lookup j := by
  induction m with
  | nil => simp [Memory.insert, Memory.lookup, eq_comm]
  | cons c m ih =>
    rcases c with ⟨c, b'⟩
    have hck : c ≠ k := h (c, b') (by simp)
    have ih := ih (fun c' hc' => h c' (by simp [hc']))
    unfold Memory.insert
    split
    · simp only [Memory.lookup, eq_comm]
    · by_cases hj : c = j
      · subst hj; simp [Memory.lookup, hck]
      · simp only [Memory.lookup, if_neg hj, ih]

theorem erase_key_ne (m : Memory) (k : Nat) : ∀ c ∈ m.erase k, c.1 ≠ k := by
  simp [Memory.erase]

/-- Storing a byte at a key changes what that key reads as, and no other. -/
theorem lookup_store (m : Memory) (k j : Nat) (v : Byte) :
    (m.store k v).lookup j = if j = k then v else m.lookup j := by
  unfold Memory.store
  split
  · next hv => rw [lookup_erase, hv]
  · simp only [lookup_insert _ _ _ _ (erase_key_ne m k), lookup_erase]
    split <;> rfl

/-! ## Any memory map (20_memory.md R59) -/

/-- A read after a write on any memory map: the byte written where the write is seen, the old byte elsewhere. -/
theorem readIn_writeIn (map : MemoryMap) (m : Memory) (a b : Address) (v : Byte) :
    (m.writeIn map a v).readIn map b = if writeSeen map a b then v else m.readIn map b := by
  unfold Memory.readIn Memory.writeIn writeSeen
  cases ha : backing map a.toNat <;> cases hb : backing map b.toNat <;> simp [lookup_store, @eq_comm Nat]

/-- The byte of memory that answers has a key below 2^24. -/
theorem backing_lt (map : MemoryMap) {k j : Nat} (hk : k < 2 ^ 24)
    (h : backing map k = .ram j ∨ backing map k = .rom j) : j < 2 ^ 24 := by
  induction map generalizing k with
  | nil =>
    have : k = j := by simpa [backing] using h
    omega
  | cons r map ih =>
    rw [backing] at h
    split at h
    · split at h
      · have : k = j := by simpa using h
        omega
      · have : k = j := by simpa using h
        omega
      · simp at h
      · exact ih (Nat.mod_lt _ (by norm_num)) h
    · exact ih hk h

/-! ## The platform's map: all RAM -/

/-- On the default map a byte is what is listed at its address. -/
theorem read_eq (m : Memory) (a : Address) : m.read a = m.lookup a.toNat := rfl

/-- On the default map every write is stored at its address. -/
theorem write_eq (m : Memory) (a : Address) (v : Byte) : m.write a v = m.store a.toNat v := rfl

/-- On the default map a write is seen at its own address only. -/
@[simp] theorem writeSeen_default (a b : Address) : writeSeen Config.memoryMap a b = decide (a = b) := by
  simp [writeSeen, Config.memoryMap, backing, BitVec.toNat_inj, beq_eq_decide]

/-- A read after a write: the byte written at its address, and every other byte as before. -/
@[simp] theorem read_write (m : Memory) (a b : Address) (v : Byte) :
    (m.write a v).read b = if b = a then v else m.read b := by
  rw [Memory.read, Memory.write, readIn_writeIn]
  simp [eq_comm, Memory.read]

theorem read_write_same (m : Memory) (a : Address) (v : Byte) : (m.write a v).read a = v := by simp

theorem read_write_ne (m : Memory) {a b : Address} (v : Byte) (h : b ≠ a) :
    (m.write a v).read b = m.read b := by simp [h]

/-! ## The canonical form -/

theorem wf_erase {m : Memory} (k : Nat) (h : m.wf) : (m.erase k).wf :=
  ⟨h.1.filter _, fun c hc => h.2 c (List.mem_filter.mp hc).1⟩

theorem mem_insert {m : Memory} {k : Nat} {b : Byte} {c : Host.Cell} :
    c ∈ m.insert k b ↔ c = (k, b) ∨ c ∈ m := by
  induction m with
  | nil => simp [Memory.insert]
  | cons c' m ih =>
    unfold Memory.insert
    split
    · simp
    · simp only [List.mem_cons, ih]; tauto

theorem wf_insert {m : Memory} {k : Nat} {b : Byte} (h : m.wf) (hk : k < 2 ^ 24)
    (hb : b ≠ Config.unlistedByte) (hm : ∀ c ∈ m, c.1 ≠ k) : (m.insert k b).wf := by
  refine ⟨?_, fun c hc => ?_⟩
  · have hp := h.1
    clear h
    induction m with
    | nil => simp [Memory.insert]
    | cons c' m ih =>
      have hc' := hm c' (by simp)
      unfold Memory.insert
      split
      · next hlt =>
        refine List.pairwise_cons.mpr ⟨fun c hc => ?_, hp⟩
        rcases List.mem_cons.mp hc with rfl | hc
        · exact hlt
        · exact hlt.trans ((List.pairwise_cons.mp hp).1 c hc)
      · next hge =>
        refine List.pairwise_cons.mpr ⟨fun c hc => ?_, ih (fun c hc => hm c (by simp [hc])) (List.pairwise_cons.mp hp).2⟩
        rcases mem_insert.mp hc with rfl | hc
        · exact lt_of_le_of_ne (not_lt.mp hge) hc'
        · exact (List.pairwise_cons.mp hp).1 c hc
  · rcases mem_insert.mp hc with rfl | hc
    · exact ⟨hk, hb⟩
    · exact h.2 c hc

theorem wf_store {m : Memory} {k : Nat} (v : Byte) (hk : k < 2 ^ 24) (h : m.wf) : (m.store k v).wf := by
  unfold Memory.store
  split
  · exact wf_erase _ h
  · next hv => exact wf_insert (wf_erase _ h) hk hv (erase_key_ne m k)

/-- A write on any memory map keeps the canonical form. -/
theorem wf_writeIn (map : MemoryMap) {m : Memory} (a : Address) (v : Byte) (h : m.wf) :
    (m.writeIn map a v).wf := by
  unfold Memory.writeIn
  split
  · next he => exact wf_store v (backing_lt map a.isLt (.inl he)) h
  · exact h
  · exact h

/-- A write keeps the canonical form. -/
theorem wf_write {m : Memory} (a : Address) (v : Byte) (h : m.wf) : (m.write a v).wf := wf_writeIn _ a v h

/-- Placing a byte of the memory image keeps the canonical form. -/
theorem wf_place {m : Memory} (a : Address) (v : Byte) (h : m.wf) : (m.place a v).wf := by
  unfold Memory.place
  split
  · next he => exact wf_store v (backing_lt _ a.isLt (.inl he)) h
  · next he => exact wf_store v (backing_lt _ a.isLt (.inr he)) h
  · exact h

theorem wf_nil : Memory.wf [] := ⟨List.Pairwise.nil, by simp⟩

end Sys2Proof.Machine
end

