-- ==== Sys2Proof/Laws/Ops.lean ====
section
/-! SUPPORT. What the shared operations of Machine/Ops.lean do, said once: bytes and words as numbers, a push, a
pull, an interrupt entry and the return from it. -/

namespace Sys2Proof.Machine

/-! ## Bytes, words and addresses as numbers -/

theorem loByte_toNat (v : Word) : (loByte v).toNat = v.toNat % 256 := by
  simp [loByte, BitVec.extractLsb'_toNat]

theorem hiByte_toNat (v : Word) : (hiByte v).toNat = v.toNat / 256 := by
  have := v.isLt
  simp only [hiByte, BitVec.extractLsb'_toNat, Nat.shiftRight_eq_div_pow]; omega

theorem word16_toNat (lo hi : Byte) : (word16 lo hi).toNat = hi.toNat * 256 + lo.toNat := by
  have := lo.isLt
  rw [word16, BitVec.toNat_append, Nat.shiftLeft_eq, Nat.mul_comm,
    ← Nat.two_pow_add_eq_or_of_lt (i := 8) lo.isLt, Nat.mul_comm]

theorem addressOf_toNat (b : Byte) (o : Word) : (addressOf b o).toNat = b.toNat * 65536 + o.toNat := by
  rw [addressOf, BitVec.toNat_append, Nat.shiftLeft_eq, Nat.mul_comm,
    ← Nat.two_pow_add_eq_or_of_lt (i := 16) o.isLt, Nat.mul_comm]

@[simp] theorem loByte_word16 (lo hi : Byte) : loByte (word16 lo hi) = lo := by
  apply BitVec.eq_of_toNat_eq; rw [loByte_toNat, word16_toNat]; have := lo.isLt; omega

@[simp] theorem hiByte_word16 (lo hi : Byte) : hiByte (word16 lo hi) = hi := by
  apply BitVec.eq_of_toNat_eq; rw [hiByte_toNat, word16_toNat]; have := lo.isLt; omega

/-- A word from its halves. -/
@[simp] theorem word16_halves (v : Word) : word16 (loByte v) (hiByte v) = v := by
  apply BitVec.eq_of_toNat_eq; rw [word16_toNat, loByte_toNat, hiByte_toNat]; omega

/-- A word whose high byte is known is made of its low byte and that byte. -/
theorem word16_of_hi {v : Word} {b : Byte} (h : hiByte v = b) : word16 (loByte v) b = v := by
  rw [← h, word16_halves]

theorem word16_inj {l h l' h' : Byte} : word16 l h = word16 l' h' ↔ l = l' ∧ h = h' := by
  constructor
  · intro e; exact ⟨by simpa using congrArg loByte e, by simpa using congrArg hiByte e⟩
  · rintro ⟨rfl, rfl⟩; rfl

theorem addressOf_inj {b b' : Byte} {o o' : Word} : addressOf b o = addressOf b' o' ↔ b = b' ∧ o = o' := by
  constructor
  · intro e
    have e := congrArg BitVec.toNat e
    rw [addressOf_toNat, addressOf_toNat] at e
    have := o.isLt; have := o'.isLt
    exact ⟨BitVec.eq_of_toNat_eq (by omega), BitVec.eq_of_toNat_eq (by omega)⟩
  · rintro ⟨rfl, rfl⟩; rfl

theorem loByte_add (a b : Word) : loByte (a + b) = loByte a + loByte b := by
  apply BitVec.eq_of_toNat_eq; simp only [loByte_toNat, BitVec.toNat_add]; omega

theorem loByte_sub (a b : Word) : loByte (a - b) = loByte a - loByte b := by
  apply BitVec.eq_of_toNat_eq; simp only [loByte_toNat, BitVec.toNat_sub]; omega

/-! ## Memory with several bytes written -/

theorem cellsWritten_nil (m : Memory) : CellsWritten m m [] := ⟨by simp, by simp⟩

/-- One byte written. -/
theorem cellsWritten_one (m : Memory) (a : Address) (v : Byte) : CellsWritten (m.write a v) m [(a, v)] := by
  constructor
  · simp
  · intro b hb; simp [hb (a, v) (by simp)]

/-- A byte written before the others, at an address of its own. -/
theorem cellsWritten_cons {after m : Memory} {a : Address} {v : Byte} {cells : List (Address × Byte)}
    (h : CellsWritten after (m.write a v) cells) (ha : ∀ c ∈ cells, a ≠ c.1) :
    CellsWritten after m ((a, v) :: cells) := by
  constructor
  · intro c hc
    rcases List.mem_cons.mp hc with rfl | hc
    · rw [h.2 _ ha, read_write_same]
    · exact h.1 c hc
  · intro b hb
    rw [h.2 b (fun c hc => hb c (by simp [hc])), read_write_ne _ _ (hb (a, v) (by simp))]

/-- What is written does not depend on the order in which it is listed. -/
theorem cellsWritten_congr {after m : Memory} {cells cells' : List (Address × Byte)}
    (h : CellsWritten after m cells) (hc : ∀ c, c ∈ cells' ↔ c ∈ cells) : CellsWritten after m cells' :=
  ⟨fun c h' => h.1 c ((hc c).mp h'), fun a h' => h.2 a (fun c h'' => h' c ((hc c).mpr h''))⟩

/-! ## The stack -/

theorem lockPage_lockPage (e : Bool) (sp : Word) : lockPage e (lockPage e sp) = lockPage e sp := by
  cases e <;> simp [lockPage]

theorem movedStack_movedStack (e : Bool) (sp a b : Word) :
    movedStack e (movedStack e sp a) b = movedStack e sp (a + b) := by
  cases e
  · simp [movedStack, BitVec.add_assoc]
  · simp [movedStack, loByte_add, BitVec.add_assoc]

/-- A step of S under the lock per byte. -/
theorem lockPage_add (e : Bool) (sp k : Word) : lockPage e (sp + k) = movedStack e sp k := by
  cases e <;> simp [lockPage, movedStack, loByte_add]

theorem sub_one_eq (v : Word) : v - 1 = v + 0xFFFF := by rw [BitVec.sub_eq_add_neg]; rfl

theorem push_perByte_sp (v : Byte) (s : State) : (s.push .perByte v).sp = movedStack s.e s.sp 0xFFFF := by
  rw [push_sp, stackStep, ← lockPage_add, BitVec.sub_eq_add_neg]; rfl

theorem neg_ofNat_succ (n : Nat) : (0xFFFF : Word) + -BitVec.ofNat 16 n = -BitVec.ofNat 16 (n + 1) := by
  apply BitVec.eq_of_toNat_eq
  simp only [BitVec.ofNat_eq_ofNat, BitVec.toNat_add, BitVec.toNat_neg, BitVec.toNat_ofNat]; omega

/-- S after a push of at least one byte under the lock per byte (00_scope.md R11). -/
theorem pushAll_perByte_sp (v : Byte) (vs : List Byte) (s : State) :
    (s.pushAll .perByte (v :: vs)).sp = movedStack s.e s.sp (-BitVec.ofNat 16 (vs.length + 1)) := by
  induction vs generalizing s v with
  | nil => exact push_perByte_sp v s
  | cons w ws ih =>
    rw [State.pushAll, ih, push_e, push_perByte_sp, movedStack_movedStack, neg_ofNat_succ, List.length_cons]

/-- S after a push without the lock. -/
theorem pushAll_atEnd_sp (vs : List Byte) (s : State) :
    (s.pushAll .atEnd vs).sp = s.sp + -BitVec.ofNat 16 vs.length := by
  induction vs generalizing s with
  | nil => simp [State.pushAll]
  | cons w ws ih =>
    rw [State.pushAll, ih, push_sp, stackStep, BitVec.sub_eq_add_neg, BitVec.add_assoc, List.length_cons,
      ← neg_ofNat_succ]; rfl

/-- S after a push and the lock at the instruction's end, under either lock. -/
theorem pushAll_lockStack_sp (lock : StackLock) (v : Byte) (vs : List Byte) (s : State) :
    (s.pushAll lock (v :: vs)).lockStack.sp = movedStack s.e s.sp (-BitVec.ofNat 16 (vs.length + 1)) := by
  rw [lockStack_sp, pushAll_e]
  cases lock
  · rw [pushAll_perByte_sp]; cases h : s.e <;> simp [movedStack, lockPage]
  · rw [pushAll_atEnd_sp, lockPage_add]; rfl

/-- Where a push to distinct addresses leaves memory. -/
theorem pushAll_cells (lock : StackLock) (vs : List Byte) (s : State)
    (h : ((pushedCells lock s.e vs s.sp).map Prod.fst).Nodup) :
    CellsWritten (s.pushAll lock vs).mem s.mem (pushedCells lock s.e vs s.sp) := by
  induction vs generalizing s with
  | nil => exact cellsWritten_nil _
  | cons v vs ih =>
    rw [State.pushAll]
    simp only [pushedCells, List.map_cons, List.nodup_cons] at h ⊢
    refine cellsWritten_cons (ih (s.push lock v) h.2) ?_
    intro c hc hce
    exact h.1 (hce ▸ List.mem_map_of_mem (f := Prod.fst) hc)

theorem loByte_one : loByte 1#16 = 1#8 := rfl

/-- The offsets to which a push of up to four bytes stores are distinct. -/
theorem pushedCells_nodup (lock : StackLock) (e : Bool) (vs : List Byte) (sp : Word) (h : vs.length ≤ 4) :
    ((pushedCells lock e vs sp).map Prod.fst).Nodup := by
  have key : ∀ a b : Word, a.toNat ≠ b.toNat → addressOf 0 a ≠ addressOf 0 b := by
    intro a b hab hh; exact hab (congrArg BitVec.toNat (addressOf_inj.mp hh).2)
  have hsp := sp.isLt
  rcases vs with _ | ⟨v1, _ | ⟨v2, _ | ⟨v3, _ | ⟨v4, _ | ⟨v5, vs⟩⟩⟩⟩⟩
  · simp [pushedCells]
  · simp [pushedCells]
  all_goals first
    | (simp only [List.length_cons] at h; omega)
    | (cases lock <;> cases e <;>
        simp only [pushedCells, List.map_cons, List.map_nil, List.nodup_cons, List.mem_cons, List.not_mem_nil,
          or_false, not_or, not_false_eq_true, List.nodup_nil, and_true, stackStep, lockPage, if_true, if_false,
          Bool.false_eq_true, loByte_word16, loByte_sub] <;>
        (try refine ⟨?_, ?_⟩) <;> (try refine ⟨?_, ?_⟩) <;> (try refine ⟨?_, ?_⟩) <;>
        (apply key; simp only [word16_toNat, loByte_toNat, BitVec.toNat_sub, BitVec.ofNat_eq_ofNat,
          BitVec.toNat_ofNat, loByte_one]; omega))

/-- Where a push of up to four bytes leaves memory. -/
theorem pushAll_written (lock : StackLock) (vs : List Byte) (s : State) (h : vs.length ≤ 4) :
    CellsWritten (s.pushAll lock vs).mem s.mem (pushedCells lock s.e vs s.sp) :=
  pushAll_cells lock vs s (pushedCells_nodup lock s.e vs s.sp h)

/-- With E = 1 and S in page $01 a push under the lock per byte leaves every byte outside page $01 as it was
(00_scope.md R11). -/
theorem pushAll_perByte_page (vs : List Byte) (s : State) (he : s.e = true) (hs : hiByte s.sp = 0x01) (a : Address)
    (ha : ¬(0x0100 ≤ a.toNat ∧ a.toNat ≤ 0x01FF)) : (s.pushAll .perByte vs).mem.read a = s.mem.read a := by
  induction vs generalizing s with
  | nil => rfl
  | cons v vs ih =>
    rw [State.pushAll, ih (s.push .perByte v) he (by simp [State.push, stackStep, lockPage, he])]
    refine read_write_ne _ _ (fun h => ha ?_)
    have hh := congrArg BitVec.toNat hs
    rw [hiByte_toNat] at hh
    have := s.sp.isLt
    rw [h, addressOf_toNat]
    simp at hh ⊢
    omega

/-- S from which the first byte of a pull is read. -/
theorem pulledSp_perByte (s : State) : s.pulledSp .perByte = movedStack s.e s.sp 1 := by
  cases h : s.e <;> simp [State.pulledSp, stackStep, lockPage, movedStack, h, loByte_add]

theorem pulledSp_atEnd (s : State) : s.pulledSp .atEnd = s.sp + 1 := rfl

/-- A push changes memory and S alone. -/
theorem pushAll_eq (lock : StackLock) (vs : List Byte) (s : State) :
    s.pushAll lock vs = { s with mem := (s.pushAll lock vs).mem, sp := (s.pushAll lock vs).sp } := by
  induction vs generalizing s with
  | nil => rfl
  | cons v vs ih => rw [State.pushAll, ih]; rfl

/-- A push under the lock per byte, whole (00_scope.md R11). -/
theorem pushAll_perByte_eq (v : Byte) (vs : List Byte) (s : State) :
    s.pushAll .perByte (v :: vs) =
      { s with
        mem := (s.pushAll .perByte (v :: vs)).mem
        sp := movedStack s.e s.sp (-BitVec.ofNat 16 (vs.length + 1)) } := by
  rw [← pushAll_perByte_sp]; exact pushAll_eq _ _ _

/-- A push and the lock at the instruction's end, whole. -/
theorem pushAll_lockStack_eq (lock : StackLock) (v : Byte) (vs : List Byte) (s : State) :
    (s.pushAll lock (v :: vs)).lockStack =
      { s with
        mem := (s.pushAll lock (v :: vs)).mem
        sp := movedStack s.e s.sp (-BitVec.ofNat 16 (vs.length + 1)) } := by
  rw [← pushAll_lockStack_sp lock, State.lockStack, pushAll_eq]

/-- Outside the states of U6 a new instruction pushes under the lock per byte (log 8). -/
theorem newPushLock_perByte (op : NewStackOp) (n : Nat) (s : State)
    (h : ¬(s.e = true ∧ (loByte s.sp).toNat + 1 < n)) : newPushLock op n s = .perByte := by
  rw [newPushLock, if_neg]; simpa using h

/-- Outside the states of U6 a new instruction pulls under the lock per byte (log 8). -/
theorem newPullLock_perByte (op : NewStackOp) (n : Nat) (s : State)
    (h : ¬(s.e = true ∧ 255 < (loByte s.sp).toNat + n)) : newPullLock op n s = .perByte := by
  rw [newPullLock, if_neg]; simpa using h

theorem pullAddress_one (lock : StackLock) (s : State) :
    addressOf 0 (s.pulledSp lock) = pullAddress lock s.e s.sp 1 := by
  cases lock
  · rw [pulledSp_perByte]; rfl
  · rfl

/-- The byte a pull gives. -/
theorem pull8_fst (s : State) (lock : StackLock) :
    (s.pull8 lock).1 = s.mem.read (pullAddress lock s.e s.sp 1) := by
  rw [← pullAddress_one]; rfl

/-- A pull changes S alone. -/
theorem pull8_eq (s : State) :
    (s.pull8 .perByte).2 = { s with sp := movedStack s.e s.sp 1 } := by
  rw [← pulledSp_perByte]; rfl

theorem pullAddress_pull8 (lock : StackLock) (s : State) (k : Word) :
    pullAddress lock (s.pull8 lock).2.e (s.pull8 lock).2.sp k = pullAddress lock s.e s.sp (k + 1) := by
  cases lock
  · simp only [pull8_sp, pull8_e, pullAddress, pulledSp_perByte, movedStack_movedStack, BitVec.add_comm k]
  · simp [pullAddress, pulledSp_atEnd, BitVec.add_assoc, BitVec.add_comm k]

/-- The word a pull gives: the low byte is the one pulled first. -/
theorem pull16_fst (s : State) (lock : StackLock) :
    (s.pull16 lock).1 =
      s.mem.read (pullAddress lock s.e s.sp 2) ++ s.mem.read (pullAddress lock s.e s.sp 1) := by
  simp only [State.pull16, word16]
  rw [pull8_fst, pull8_fst, pullAddress_pull8]; rfl

theorem pull16_perByte_sp (s : State) : (s.pull16 .perByte).2.sp = movedStack s.e s.sp 2 := by
  rw [pull16_sp, stackStep, lockPage_add, pulledSp_perByte, movedStack_movedStack]; rfl

theorem pull16_eq (s : State) : (s.pull16 .perByte).2 = { s with sp := movedStack s.e s.sp 2 } := by
  rw [← pull16_perByte_sp]; rfl

theorem pullAddress_pull16 (lock : StackLock) (s : State) (k : Word) :
    pullAddress lock (s.pull16 lock).2.e (s.pull16 lock).2.sp k = pullAddress lock s.e s.sp (k + 2) := by
  cases lock
  · simp only [pull16_perByte_sp, pull16_e, pullAddress, movedStack_movedStack, BitVec.add_comm k]
  · simp only [pullAddress, pull16_sp, stackStep, pulledSp_atEnd, BitVec.add_comm k]
    rw [BitVec.add_assoc s.sp, BitVec.add_assoc]; rfl

/-- S after a pull of one byte and the lock at the instruction's end, under either lock. -/
theorem pull8_locked (s : State) (lock : StackLock) :
    lockPage s.e (s.pull8 lock).2.sp = movedStack s.e s.sp 1 := by
  cases lock
  · rw [pull8_sp, pulledSp_perByte]; cases s.e <;> simp [lockPage, movedStack]
  · rw [pull8_sp, pulledSp_atEnd, lockPage_add]

/-- S after a pull of one word and the lock at the instruction's end, under either lock. -/
theorem pull16_locked (s : State) (lock : StackLock) :
    lockPage s.e (s.pull16 lock).2.sp = movedStack s.e s.sp 2 := by
  cases lock
  · rw [pull16_perByte_sp]; cases s.e <;> simp [lockPage, movedStack]
  · rw [pull16_sp, stackStep, pulledSp_atEnd, lockPage_add]
    cases s.e <;> simp [movedStack, BitVec.add_assoc, loByte_add]
    rfl

/-- `WriteP` in the terms of the statements (10_state.md R37). -/
theorem writeP_spec (s : State) (v : Byte) :
    s.writeP v =
      { s with
        p := statusAfter s.e v
        x := indexAfter (statusAfter s.e v) s.x
        y := indexAfter (statusAfter s.e v) s.y } := by
  rw [writeP_eq]; cases s.e <;> simp [statusAfter, indexAfter]

/-- Return from an interrupt, whole (60_exceptions.md R261). -/
theorem returnFromInterrupt_eq (s : State) :
    returnFromInterrupt s =
      { s with
        p := statusAfter s.e (pulled s 1)
        x := indexAfter (statusAfter s.e (pulled s 1)) s.x
        y := indexAfter (statusAfter s.e (pulled s 1)) s.y
        pc := pulled s 3 ++ pulled s 2
        pb := if s.e then s.pb else pulled s 4
        sp := movedStack s.e s.sp (if s.e then 3 else 4) } := by
  have h1 : (s.pull8 .perByte).1 = pulled s 1 := pull8_fst _ _
  simp only [returnFromInterrupt, h1, pull8_eq, writeP_spec, pull16_eq, pull16_fst, pull8_fst, pullAddress,
    movedStack_movedStack, pulled]
  cases h : s.e <;> rfl

/-- Entry to an interrupt, whole (60_exceptions.md R256). -/
theorem enter_eq (kind : InterruptKind) (ret : Word) (s : State) :
    enter kind ret s =
      { s with
        mem := (s.pushAll .perByte (entryFrame kind ret s)).mem
        sp := movedStack s.e s.sp (if s.e then 0xFFFD else 0xFFFC)
        p := putBit (putBit s.p Flag.i.bit true) Flag.d.bit false
        pb := 0x00
        pc := (s.pushAll .perByte (entryFrame kind ret s)).mem.readWordB 0 (Config.vector kind s.e)
        nmiPending := if kind = .nmi then false else s.nmiPending
        run := .running } := by
  have hsp : (s.pushAll .perByte (entryFrame kind ret s)).sp =
      movedStack s.e s.sp (if s.e then 0xFFFD else 0xFFFC) := by
    cases h : s.e
    · rw [show entryFrame kind ret s = s.pb :: [hiByte ret, loByte ret, pushedStatus kind s] by
        simp [entryFrame, h, wordBytes], pushAll_perByte_sp, h]; rfl
    · rw [show entryFrame kind ret s = hiByte ret :: [loByte ret, pushedStatus kind s] by
        simp [entryFrame, h, wordBytes], pushAll_perByte_sp, h]; rfl
  rw [← hsp, enter]
  simp only [State.setFlag]
  rw [pushAll_eq]

/-- The frame of an entry has three or four bytes, and is stored as the stack primitives say. -/
theorem entryFrame_written (kind : InterruptKind) (ret : Word) (s : State) :
    CellsWritten (s.pushAll .perByte (entryFrame kind ret s)).mem s.mem
      (pushedCells .perByte s.e (entryFrame kind ret s) s.sp) := by
  apply pushAll_written
  simp only [entryFrame, wordBytes]; split <;> simp

/-- With SH locked when E = 1, S is where a move by 0 leaves it. -/
theorem movedStack_zero (e : Bool) (sp : Word) (h : e = true → hiByte sp = 0x01) : movedStack e sp 0 = sp := by
  rw [← lockPage_add, BitVec.ofNat_eq_ofNat, BitVec.add_zero]
  cases e
  · rfl
  · exact word16_of_hi (h rfl)

/-- The cells of a push, one after the other, relative to one stack pointer. -/
theorem pushedCells_cons (e : Bool) (v : Byte) (vs : List Byte) (sp z : Word) :
    pushedCells .perByte e (v :: vs) (movedStack e sp z) =
      (addressOf 0 (movedStack e sp z), v) :: pushedCells .perByte e vs (movedStack e sp (z + 0xFFFF)) := by
  rw [pushedCells, ← movedStack_movedStack e sp z 0xFFFF, ← lockPage_add e (movedStack e sp z), ← sub_one_eq,
    stackStep]

theorem mem_pushedCells (e : Bool) (vs : List Byte) (sp z : Word) (k : Nat) (v : Byte) (hk : vs[k]? = some v) :
    (addressOf 0 (movedStack e sp (z + -BitVec.ofNat 16 k)), v) ∈
      pushedCells .perByte e vs (movedStack e sp z) := by
  induction vs generalizing z k with
  | nil => simp at hk
  | cons w ws ih =>
    rw [pushedCells_cons]
    cases k with
    | zero => simp at hk; subst hk; simp
    | succ k =>
      have := ih (z + 0xFFFF) k (by simpa using hk)
      rw [BitVec.add_assoc, neg_ofNat_succ] at this
      exact List.mem_cons_of_mem _ this

/-- With SH locked when E = 1, the `k`-th byte pushed lies `k` below S, counted as S moves. -/
theorem read_pushed {e : Bool} {vs : List Byte} {sp : Word} {m' m : Memory}
    (h : CellsWritten m' m (pushedCells .perByte e vs sp)) (hl : e = true → hiByte sp = 0x01) (k : Nat) (v : Byte)
    (hk : vs[k]? = some v) : m'.read (addressOf 0 (movedStack e sp (-BitVec.ofNat 16 k))) = v := by
  have := mem_pushedCells e vs sp 0 k v hk
  rw [movedStack_zero e sp hl] at this
  simpa using h.1 _ this

/-- A push keeps the canonical form of memory. -/
theorem pushAll_wf (lock : StackLock) (vs : List Byte) (s : State) (h : s.mem.wf) :
    (s.pushAll lock vs).mem.wf := by
  induction vs generalizing s with
  | nil => exact h
  | cons v vs ih => exact ih _ (wf_write _ _ h)

end Sys2Proof.Machine
end

