-- ==== Sys2Proof/Laws/Operands.lean ====
section
/-! SUPPORT. What the instruction frames of Machine/Operands.lean do, said once: stores and read-modify-write leave
the operand's bytes and nothing else; the locator's two bytes are distinct. -/

namespace Sys2Proof.Machine

/-- The two bytes of an operand are at distinct addresses. -/
theorem Loc.a0_ne_high (l : Loc) : l.a0 ≠ l.high := by
  intro h
  have h := congrArg BitVec.toNat h
  have h0 := l.a0.isLt
  rcases l with ⟨a, st⟩
  cases st
  · simp [Loc.high, BitVec.toNat_add] at h h0; omega
  · simp [Loc.high, nextInBank, addressOf_toNat, bankOf, offsetOf, BitVec.extractLsb'_toNat, BitVec.toNat_add,
      Nat.shiftRight_eq_div_pow] at h h0
    omega

/-- The bytes a store leaves. -/
theorem writeOp_cells (m : Memory) (l : Loc) (w : Width) (v : BitVec w.bits) :
    CellsWritten (m.writeOp l w v) m (operandCells l w v) := by
  cases w
  · exact cellsWritten_one _ _ _
  · exact cellsWritten_cons (cellsWritten_one _ _ _) (by simp [l.a0_ne_high])

/-- The bytes a read-modify-write instruction leaves. -/
theorem writeBack_cells (m : Memory) (l : Loc) (w : Width) (v : BitVec w.bits) :
    CellsWritten (m.writeBack l w v) m (operandCells l w v) := by
  cases w
  · exact cellsWritten_one _ _ _
  · refine cellsWritten_congr (cellsWritten_cons (cellsWritten_one _ _ _) ?_) ?_ (cells := [(l.high, hiByte v), (l.a0, loByte v)])
    · simp [l.a0_ne_high.symm]
    · simp [operandCells, or_comm]

theorem writeOp_wf {m : Memory} (l : Loc) (w : Width) (v : BitVec w.bits) (h : m.wf) : (m.writeOp l w v).wf := by
  cases w
  · exact wf_write _ _ h
  · exact wf_write _ _ (wf_write _ _ h)

theorem writeBack_wf {m : Memory} (l : Loc) (w : Width) (v : BitVec w.bits) (h : m.wf) :
    (m.writeBack l w v).wf := by
  cases w
  · exact wf_write _ _ h
  · exact wf_write _ _ (wf_write _ _ h)

end Sys2Proof.Machine
end

