-- ==== Sys2Proof/Laws/Forms.lean ====
section
/-! SUPPORT. The instructions of Table 5 by form: one equation per mnemonic, which says what `exec` does in every
one of its forms. -/

namespace Sys2Proof.Machine

/-- What an instruction with an operand to read does: `f` on the operand's value, then PC past it. -/
def readSource (sel : Selector) (f : (w : Width) → BitVec w.bits → State → State) (src : Source) (s : State) :
    Result :=
  .next ((f (s.width sel) (src.value (s.width sel) s) s).advance (src.length (s.width sel)))

theorem exec_adc (f : AccForm) (s : State) : exec f.adc s = readSource .m adcWith f.source s := by
  cases f <;> rfl

theorem exec_sbc (f : AccForm) (s : State) : exec f.sbc s = readSource .m sbcWith f.source s := by
  cases f <;> rfl

theorem exec_and (f : AccForm) (s : State) : exec f.and s = readSource .m (logicWith andOp) f.source s := by
  cases f <;> rfl

theorem exec_ora (f : AccForm) (s : State) : exec f.ora s = readSource .m (logicWith oraOp) f.source s := by
  cases f <;> rfl

theorem exec_eor (f : AccForm) (s : State) : exec f.eor s = readSource .m (logicWith eorOp) f.source s := by
  cases f <;> rfl

theorem exec_cmp (f : AccForm) (s : State) : exec f.cmp s = readSource .m (compareWith State.a) f.source s := by
  cases f <;> rfl

theorem exec_lda (f : AccForm) (s : State) : exec f.lda s = readSource .m ldaWith f.source s := by
  cases f <;> rfl

theorem exec_ldx (f : LdxForm) (s : State) : exec f.ldx s = readSource .x ldxWith f.source s := by
  cases f <;> rfl

theorem exec_ldy (f : BitForm) (s : State) : exec f.ldy s = readSource .x ldyWith f.source s := by
  cases f <;> rfl

theorem exec_cpx (f : CpForm) (s : State) : exec f.cpx s = readSource .x (compareWith State.x) f.source s := by
  cases f <;> rfl

theorem exec_cpy (f : CpForm) (s : State) : exec f.cpy s = readSource .x (compareWith State.y) f.source s := by
  cases f <;> rfl

/-- BIT of an immediate changes Z alone (41_table5_arithmetic_logical.md R123). -/
theorem exec_bit (f : BitForm) (s : State) :
    exec f.bit s = readSource .m (match f with | .imm _ => bitZero | _ => bitMemory) f.source s := by
  cases f <;> rfl

theorem exec_sta (f : StaForm) (s : State) : exec f.sta s = storeInstr .m s.a f.addr s := by
  cases f <;> rfl

theorem exec_stx (f : StxForm) (s : State) : exec f.stx s = storeInstr .x s.x f.addr s := by
  cases f <;> rfl

theorem exec_sty (f : StyForm) (s : State) : exec f.sty s = storeInstr .x s.y f.addr s := by
  cases f <;> rfl

theorem exec_stz (f : RmwForm) (s : State) : exec f.stz s = storeInstr .m 0 f.addr s := by
  cases f <;> rfl

theorem exec_asl (f : RmwForm) (s : State) : exec f.asl s = modifyInstr aslValue f.addr s := by
  cases f <;> rfl

theorem exec_lsr (f : RmwForm) (s : State) : exec f.lsr s = modifyInstr lsrValue f.addr s := by
  cases f <;> rfl

theorem exec_rol (f : RmwForm) (s : State) : exec f.rol s = modifyInstr rolValue f.addr s := by
  cases f <;> rfl

theorem exec_ror (f : RmwForm) (s : State) : exec f.ror s = modifyInstr rorValue f.addr s := by
  cases f <;> rfl

theorem exec_inc (f : RmwForm) (s : State) : exec f.inc s = modifyInstr incValue f.addr s := by
  cases f <;> rfl

theorem exec_dec (f : RmwForm) (s : State) : exec f.dec s = modifyInstr decValue f.addr s := by
  cases f <;> rfl

theorem exec_trb (f : TestForm) (s : State) : exec f.trb s = modifyInstr trbValue f.addr s := by
  cases f <;> rfl

theorem exec_tsb (f : TestForm) (s : State) : exec f.tsb s = modifyInstr tsbValue f.addr s := by
  cases f <;> rfl

end Sys2Proof.Machine
end

