-- ==== Sys2Proof/Laws/Addressing.lean ====
section
/-! SUPPORT. The addressing operations of Machine/Operands.lean as numbers: offsets in bank 00, pointers, and the
page wrap of emulation mode (40_addressing_modes.md R94 to R101, R107). -/

namespace Sys2Proof.Machine

/-- The byte of bank 00 whose offset is a number modulo 2^16. -/
def byteAt0 (m : Memory) (n : Nat) : Nat := (m.read (BitVec.ofNat 24 (n % 2 ^ 16))).toNat

/-- A byte of bank 00 by the number of its offset. -/
theorem read_offset (m : Memory) (o : Word) (n : Nat) (h : o.toNat = n % 2 ^ 16) :
    (m.read (addressOf 0 o)).toNat = byteAt0 m n := by
  have e : addressOf 0 o = BitVec.ofNat 24 (n % 2 ^ 16) := by
    apply BitVec.eq_of_toNat_eq
    rw [addressOf_toNat, BitVec.toNat_ofNat, h]; simp; omega
  rw [e, byteAt0]

/-- `MemReadB(0, o, 2)` as a number (00_scope.md R9). -/
theorem readWordB_toNat (m : Memory) (o : Word) (n : Nat) (h : o.toNat = n % 2 ^ 16) :
    (m.readWordB 0 o).toNat = byteAt0 m n + 256 * byteAt0 m (n + 1) := by
  rw [Memory.readWordB, word16_toNat, read_offset m o n h,
    read_offset m (o + 1) (n + 1) (by rw [BitVec.toNat_add, h]; simp)]
  omega

theorem long24_toNat (a b c : Byte) :
    (long24 a b c).toNat = a.toNat + 256 * b.toNat + 65536 * c.toNat := by
  have : long24 a b c = addressOf c (word16 a b) := rfl
  rw [this, addressOf_toNat, word16_toNat]; omega

/-- `MemReadB(0, o, 3)` as a number (00_scope.md R9). -/
theorem readLongB_toNat (m : Memory) (o : Word) (n : Nat) (h : o.toNat = n % 2 ^ 16) :
    (m.readLongB 0 o).toNat = byteAt0 m n + 256 * byteAt0 m (n + 1) + 65536 * byteAt0 m (n + 2) := by
  rw [Memory.readLongB, long24_toNat, read_offset m o n h,
    read_offset m (o + 1) (n + 1) (by rw [BitVec.toNat_add, h]; simp),
    read_offset m (o + 2) (n + 2) (by rw [BitVec.toNat_add, h]; simp)]

/-- `MemReadP(h, l, 2)` as a number, `h` the page of `d` (00_scope.md R9). -/
theorem readWordP_toNat (m : Memory) (d : Word) (l : Byte) (n : Nat) (h : l.toNat = n % 256) :
    (m.readWordP (hiByte d) l).toNat =
      byteAt0 m (d.toNat / 256 * 256 + n % 256) + 256 * byteAt0 m (d.toNat / 256 * 256 + (n + 1) % 256) := by
  have := d.isLt
  have e1 : (word16 l (hiByte d)).toNat = (d.toNat / 256 * 256 + n % 256) % 2 ^ 16 := by
    rw [word16_toNat, hiByte_toNat, h]; omega
  have e2 : (word16 (l + 1) (hiByte d)).toNat = (d.toNat / 256 * 256 + (n + 1) % 256) % 2 ^ 16 := by
    rw [word16_toNat, hiByte_toNat, BitVec.toNat_add, h]; simp; omega
  rw [Memory.readWordP, word16_toNat, read_offset m _ _ e1, read_offset m _ _ e2]; omega

theorem pageWraps_iff (s : State) : s.pageWraps = true ↔ s.e = true ∧ s.d.toNat % 256 = 0 := by
  rw [State.pageWraps, Bool.and_eq_true, beq_iff_eq, ← BitVec.toNat_inj, loByte_toNat]; simp

theorem direct_toNat (s : State) (d : Byte) : (s.direct d).toNat = (s.d.toNat + d.toNat) % 2 ^ 16 := by
  have := d.isLt
  rw [State.direct, BitVec.toNat_add, BitVec.toNat_setWidth]; omega

theorem stackOffset_toNat (s : State) (d : Byte) : (s.stackOffset d).toNat = (s.sp.toNat + d.toNat) % 2 ^ 16 := by
  have := d.isLt
  rw [State.stackOffset, BitVec.toNat_add, BitVec.toNat_setWidth]; omega

/-- The offset of `d,x` and `d,y` as a number (R95, R96). -/
theorem directIndexed_toNat (s : State) (d : Byte) (r : Word) :
    (s.directIndexed d r).toNat =
      (if s.e = true ∧ s.d.toNat % 256 = 0 then s.d.toNat / 256 * 256 + (d.toNat + r.toNat % 256) % 256
        else s.d.toNat + d.toNat + r.toNat) % 2 ^ 16 := by
  have := s.d.isLt
  simp only [State.directIndexed, pageWraps_iff]
  split
  · rw [word16_toNat, hiByte_toNat, BitVec.toNat_add, loByte_toNat]; omega
  · rw [BitVec.toNat_add, direct_toNat]; omega

/-- The pointer of `(d)` and `(d),y` as a number (R97, R99). -/
theorem directPointer_toNat (s : State) (d : Byte) :
    (s.directPointer d).toNat = byteAt0 s.mem (s.d.toNat + d.toNat) +
      256 * byteAt0 s.mem (if s.e = true ∧ s.d.toNat % 256 = 0
        then s.d.toNat / 256 * 256 + (s.d.toNat + d.toNat + 1) % 256 else s.d.toNat + d.toNat + 1) := by
  have := s.d.isLt; have := d.isLt
  simp only [State.directPointer, pageWraps_iff]
  split
  · have e1 : s.d.toNat / 256 * 256 + d.toNat % 256 = s.d.toNat + d.toNat := by omega
    have e2 : s.d.toNat / 256 * 256 + (d.toNat + 1) % 256 =
        s.d.toNat / 256 * 256 + (s.d.toNat + d.toNat + 1) % 256 := by omega
    rw [readWordP_toNat _ _ _ d.toNat (by omega), e1, e2]
  · rw [readWordB_toNat _ _ _ (direct_toNat s d)]

/-- The state of U7 in numbers (R98). -/
theorem pointerCorner_iff (s : State) (d : Byte) :
    s.pointerCorner d = true ↔
      s.e = true ∧ s.d.toNat % 256 ≠ 0 ∧ (s.d.toNat + d.toNat + s.x.toNat) % 256 = 255 := by
  have e : (s.direct d + s.x).toNat = (s.d.toNat + d.toNat + s.x.toNat) % 2 ^ 16 := by
    rw [BitVec.toNat_add, direct_toNat]; omega
  rw [State.pointerCorner, Bool.and_eq_true, Bool.and_eq_true, bne_iff_ne, beq_iff_eq, ← BitVec.toNat_inj, Ne,
    ← BitVec.toNat_inj, loByte_toNat, loByte_toNat, e, and_assoc]
  simp only [BitVec.ofNat_eq_ofNat, BitVec.toNat_ofNat]
  constructor <;> rintro ⟨h1, h2, h3⟩ <;> exact ⟨h1, by omega, by omega⟩

end Sys2Proof.Machine
end

