-- ==== Sys2Proof/Laws/Alu.lean ====
section
/-! SUPPORT. The additions and subtractions of 41_table5_arithmetic_logical.md R144 to R148 as arithmetic on
numbers: when V is set, what SBC's complement addition is, and the spelling of decimal numbers. -/

namespace Sys2Proof.Machine

theorem toNat_lt_bits (w : Width) (a : BitVec w.bits) : a.toNat < 2 ^ w.bits := a.isLt

/-- V of an addition says that the signed sum is out of range (R144). -/
theorem addBin_v (w : Width) (a b : BitVec w.bits) (cin : Bool) :
    (addBin a b cin).v = !signedFits w.bits (a.toInt + b.toInt + cin.toNat) := by
  have ha := a.isLt; have hb := b.isLt
  have hc : cin.toNat ≤ 1 := by cases cin <;> decide
  generalize hk : cin.toNat = k at hc
  rw [Bool.eq_iff_iff]
  cases w <;>
  · simp only [addBin, signedFits, BitVec.msb_eq_decide, BitVec.toInt_eq_toNat_cond, BitVec.toNat_ofNat, hk,
      Bool.and_eq_true, beq_iff_eq, bne_iff_ne, ne_eq, decide_eq_decide, Bool.not_eq_true', decide_eq_false_iff_not,
      Width.bits] at ha hb ⊢
    split_ifs <;> norm_num at * <;> omega

/-- The result of a subtraction (R146). -/
theorem subBin_r (w : Width) (a b : BitVec w.bits) (cin : Bool) :
    (subBin a b cin).r = BitVec.ofInt w.bits ((a.toNat : Int) - b.toNat - (1 - cin.toNat : Nat)) := by
  have ha := a.isLt; have hb := b.isLt
  apply BitVec.eq_of_toNat_eq
  cases w <;> cases cin <;>
  · simp only [subBin, addBin, BitVec.toNat_ofNat, BitVec.toNat_ofInt, BitVec.toNat_not, Width.bits, Bool.toNat_true,
      Bool.toNat_false] at ha hb ⊢
    omega

/-- C of a subtraction says that no borrow occurs (R146). -/
theorem subBin_c (w : Width) (a b : BitVec w.bits) (cin : Bool) :
    (subBin a b cin).c = decide (b.toNat + (1 - cin.toNat) ≤ a.toNat) := by
  have ha := a.isLt; have hb := b.isLt
  rw [Bool.eq_iff_iff]
  cases w <;> cases cin <;>
  · simp only [subBin, addBin, BitVec.toNat_not, Width.bits, Bool.toNat_true, Bool.toNat_false,
      decide_eq_true_eq] at ha hb ⊢
    omega

/-- V of a subtraction says that the signed difference is out of range (R146). -/
theorem subBin_v (w : Width) (a b : BitVec w.bits) (cin : Bool) :
    (subBin a b cin).v = !signedFits w.bits (a.toInt - b.toInt - (1 - cin.toNat : Nat)) := by
  have hb := b.isLt
  have h : (~~~b).toInt = -b.toInt - 1 := by
    cases w <;> simp only [BitVec.toInt_eq_toNat_cond, BitVec.toNat_not, Width.bits] at hb ⊢ <;> split_ifs <;> omega
  rw [subBin, addBin_v, h]
  congr 2
  cases cin <;> simp <;> omega

/-- A number of `k` digits spells itself (R147). -/
theorem bcdValue_bcdSpell (k n : Nat) (h : n < 10 ^ k) : bcdValue k (bcdSpell k n) = n := by
  induction k generalizing n with
  | zero => simp [bcdValue] at h ⊢; omega
  | succ k ih =>
    have hk : n / 10 < 10 ^ k := by rw [Nat.pow_succ] at h; omega
    simp only [bcdValue, bcdSpell]
    have h1 : (n % 10 + 16 * bcdSpell k (n / 10)) % 16 = n % 10 := by omega
    have h2 : (n % 10 + 16 * bcdSpell k (n / 10)) / 16 = bcdSpell k (n / 10) := by omega
    rw [h1, h2, ih _ hk]; omega

/-- A spelling has only digits 0 to 9 (R147). -/
theorem bcdValid_bcdSpell (k n : Nat) : bcdValid k (bcdSpell k n) = true := by
  induction k generalizing n with
  | zero => rfl
  | succ k ih =>
    simp only [bcdValid, bcdSpell]
    have h1 : (n % 10 + 16 * bcdSpell k (n / 10)) % 16 = n % 10 := by omega
    have h2 : (n % 10 + 16 * bcdSpell k (n / 10)) / 16 = bcdSpell k (n / 10) := by omega
    simp only [h1, h2, ih, Bool.and_true, decide_eq_true_eq]; omega

theorem bcdSpell_lt (k n : Nat) : bcdSpell k n < 16 ^ k := by
  induction k generalizing n with
  | zero => simp [bcdSpell]
  | succ k ih => have := ih (n / 10); simp only [bcdSpell, Nat.pow_succ]; omega

theorem digits_eq (w : Width) : Width.digits w = w.bits / 4 := by cases w <;> rfl

/-- A spelling fits the width it is made for. -/
theorem bcdSpell_toNat (w : Width) (n : Nat) :
    (BitVec.ofNat w.bits (bcdSpell (w.bits / 4) n)).toNat = bcdSpell (w.bits / 4) n := by
  rw [BitVec.toNat_ofNat, Nat.mod_eq_of_lt]
  have := bcdSpell_lt (w.bits / 4) n
  cases w <;> exact this

theorem bothBcd_spell (w : Width) (x y : Nat) :
    bothBcd w (BitVec.ofNat w.bits (bcdSpell (w.bits / 4) x)) (BitVec.ofNat w.bits (bcdSpell (w.bits / 4) y)) =
      true := by
  simp only [bothBcd, digits_eq, bcdSpell_toNat, bcdValid_bcdSpell, Bool.and_self]

/-! ## Widths and shifts -/

/-- The low part of a sum. -/
theorem lowPart_add (w : Width) (a b : Word) : lowPart w (a + b) = lowPart w a + lowPart w b := by
  cases w
  · exact BitVec.setWidth_add (i := 8) _ _ (by decide)
  · exact BitVec.setWidth_add (i := 16) _ _ (by decide)

/-- A shift left as a number (R122). -/
theorem ofNat_shl (w : Width) (b : BitVec w.bits) : BitVec.ofNat w.bits (2 * b.toNat) = b <<< 1 := by
  apply BitVec.eq_of_toNat_eq; simp [BitVec.toNat_shiftLeft, Nat.shiftLeft_eq, Nat.mul_comm]

/-- A shift right as a number (R133). -/
theorem ofNat_shr (w : Width) (b : BitVec w.bits) : BitVec.ofNat w.bits (b.toNat / 2) = b >>> 1 := by
  apply BitVec.eq_of_toNat_eq
  have := b.isLt
  rw [BitVec.toNat_ofNat, BitVec.toNat_ushiftRight, Nat.shiftRight_eq_div_pow, Nat.mod_eq_of_lt]; omega

/-- A rotation left as a number (R135). -/
theorem ofNat_rol (w : Width) (b : BitVec w.bits) (c : Bool) :
    BitVec.ofNat w.bits (2 * b.toNat + c.toNat) = b <<< 1 ||| (BitVec.ofBool c).setWidth w.bits := by
  have h : (b <<< 1 &&& (BitVec.ofBool c).setWidth w.bits) = 0 := by
    apply BitVec.eq_of_getLsbD_eq; intro i hi; cases i <;> cases c <;> simp
  rw [← BitVec.add_eq_or_of_and_eq_zero _ _ h, BitVec.ofNat_add, ofNat_shl]
  congr 1
  cases c <;> cases w <;> rfl

/-- A rotation right as a number (R136). -/
theorem ofNat_ror (w : Width) (b : BitVec w.bits) (c : Bool) :
    BitVec.ofNat w.bits (c.toNat * 2 ^ (w.bits - 1) + b.toNat / 2) =
      b >>> 1 ||| (BitVec.ofBool c).setWidth w.bits <<< (w.bits - 1) := by
  have h : (b >>> 1 &&& (BitVec.ofBool c).setWidth w.bits <<< (w.bits - 1)) = 0 := by
    apply BitVec.eq_of_getLsbD_eq; intro i hi
    by_cases h : i < w.bits - 1
    · simp [h]
    · have : b.getLsbD (1 + i) = false := BitVec.getLsbD_of_ge _ _ (by omega)
      simp [this]
  rw [← BitVec.add_eq_or_of_and_eq_zero _ _ h, Nat.add_comm, BitVec.ofNat_add, ofNat_shr]
  congr 1
  cases c <;> cases w <;> rfl

/-- What a shift or rotation of memory does. -/
theorem modifyInstr_shift (v : (w : Width) → BitVec w.bits → State → BitVec w.bits × State) (addr : Addr) (s : State)
    (r : BitVec (s.width .m).bits) (out : Bool)
    (h : v (s.width .m) (s.operand addr (s.width .m)) s = shiftResult r out s) :
    ∃ p mem, modifyInstr v addr s = .next { s with p := p, mem := mem, pc := s.pc + addr.length } ∧
      CellsWritten mem s.mem (operandCells (addr.loc s) (s.width .m) r) ∧
      StatusIs p s.p [(.n, r.msb), (.z, r == 0#_), (.c, out)] := by
  simp only [modifyInstr, h]
  exact ⟨_, _, rfl, writeBack_cells _ _ _ _, statusIs_shift _ _ _⟩

/-- What a shift or rotation of the accumulator does. -/
theorem modifyAcc_shift (v : (w : Width) → BitVec w.bits → State → BitVec w.bits × State) (s : State)
    (r : BitVec (s.width .m).bits) (out : Bool)
    (h : v (s.width .m) (lowPart (s.width .m) s.a) s = shiftResult r out s) :
    ∃ p, modifyAcc v s = .next { s with a := putLow (s.width .m) s.a r, p := p, pc := s.pc + 1 } ∧
      StatusIs p s.p [(.n, r.msb), (.z, r == 0#_), (.c, out)] := by
  simp only [modifyAcc, h]
  exact ⟨_, rfl, statusIs_shift _ _ _⟩

end Sys2Proof.Machine
end

