-- ==== Sys2Proof/Laws/Control.lean ====
section
/-! SUPPORT. The operations of Machine/Control.lean and of the boundary, said once: where a call refuses, what
a block move steps, the status that an entry pushes and leaves, and which boundary takes which interrupt. -/

namespace Sys2Proof.Machine

/-! ## Calls (93_implementation_defined.md U9) -/

/-- Whether a push lands on one of some bytes, by the addresses alone. -/
theorem landsOn_eq (cells : List (Address × Byte)) (bytes : List Address) :
    landsOn cells bytes = (cells.map Prod.fst).any (fun a => bytes.any (fun b => decide (a = b))) := by
  simp only [landsOn, writeSeen_default, List.any_map]; rfl

/-- Everything JSR a does: it is refused where it pushes onto itself, and else pushes and jumps. -/
theorem execJsrAbs_eq (a : Word) (s : State) :
    execJsrAbs a s =
      if OverwritesOwnBytes s (.jsrAbs a) then .refused .ownBytesOverwritten
      else .next
        { s with
          mem := (s.pushAll .perByte (wordBytes (s.pc + 2))).mem
          sp := movedStack s.e s.sp 0xFFFE
          pc := a } := by
  simp only [execJsrAbs, callTo, landsOn_eq]
  rw [wordBytes, pushAll_perByte_eq]
  rfl

/-- Everything JSR `(a,x)` does: it is refused where it pushes onto itself or its pointer, and else pushes and
jumps through the pointer. -/
theorem execJsrAbsXInd_eq (a : Word) (s : State) :
    execJsrAbsXInd a s =
      if OverwritesOwnBytes s (.jsrAbsXInd a) then .refused .ownBytesOverwritten
      else .next
        { s with
          mem := (s.pushAll (newPushLock .jsrXInd 2 s) (wordBytes (s.pc + 2))).mem
          sp := movedStack s.e s.sp 0xFFFE
          pc := (s.pushAll (newPushLock .jsrXInd 2 s) (wordBytes (s.pc + 2))).mem.readWordB s.pb (a + s.x) } := by
  simp only [execJsrAbsXInd, callTo, landsOn_eq]
  rw [wordBytes, pushAll_lockStack_eq]
  rfl

/-- Everything JSL does: it is refused where it pushes onto itself, and else pushes and jumps. -/
theorem execJsl_eq (al : Address) (s : State) :
    execJsl al s =
      if OverwritesOwnBytes s (.jsl al) then .refused .ownBytesOverwritten
      else .next
        { s with
          mem := (s.pushAll (newPushLock .jsl 3 s) (jslFrame s)).mem
          sp := movedStack s.e s.sp 0xFFFD
          pc := offsetOf al
          pb := bankOf al } := by
  simp only [execJsl, callTo, landsOn_eq]
  rw [jslFrame, pushAll_lockStack_eq]
  rfl

/-- Where a call does not push onto bytes it obtains, those bytes read as before its pushes. -/
theorem read_call_byte {lock : StackLock} {vs : List Byte} {s : State} {bytes : List Address} {b : Address}
    (h : ¬((pushAddresses lock vs s).any (fun a => bytes.any (fun b => decide (a = b))) = true))
    (hb : b ∈ bytes) (hl : vs.length ≤ 4) : (s.pushAll lock vs).mem.read b = s.mem.read b := by
  refine (pushAll_written lock vs s hl).2 b (fun c hc hbc => h ?_)
  simp only [List.any_eq_true, decide_eq_true_eq]
  exact ⟨c.1, List.mem_map_of_mem hc, b, hb, hbc.symm⟩

/-! ## Block moves (45_table7_other.md R231, R232) -/

theorem sub_one_eq_iff (a : Word) : a - 1 = 0xFFFF ↔ a = 0 := by
  constructor
  · intro h
    have := congrArg (· + 1) h
    simpa [BitVec.sub_add_cancel] using this
  · rintro rfl; rfl

theorem steppedIndex_one (w : Width) (r d : Word) : steppedIndex w r d 1 = widen w (lowPart w (r + d)) := by
  rw [steppedIndex]; congr 2; simp

theorem lowPart_widen_add (w : Width) (v d : Word) :
    lowPart w (widen w (lowPart w v) + d) = lowPart w (v + d) := by
  cases w <;> (apply BitVec.eq_of_toNat_eq; simp [lowPart, widen, Width.bits])

/-- A step and then `k` steps are `k + 1` steps. -/
theorem steppedIndex_succ (w : Width) (r d : Word) (k : Nat) :
    steppedIndex w (steppedIndex w r d 1) d k = steppedIndex w r d (k + 1) := by
  rw [steppedIndex, steppedIndex_one, lowPart_widen_add, steppedIndex]
  congr 2
  rw [BitVec.add_assoc]; congr 1
  rw [BitVec.ofNat_add, BitVec.add_mul, BitVec.add_comm]
  simp

/-- No step leaves an index register as it is, where its high byte is $00 at 8 bits. -/
theorem steppedIndex_zero (w : Width) (r d : Word) (h : w = .w8 → hiByte r = 0x00) :
    steppedIndex w r d 0 = r := by
  rw [steppedIndex]
  simp
  cases w
  · have h := congrArg BitVec.toNat (h rfl)
    rw [hiByte_toNat] at h
    apply BitVec.eq_of_toNat_eq
    simp [widen, lowPart, Width.bits] at h ⊢; omega
  · simp [widen, lowPart, Width.bits]

theorem hiByte_steppedIndex (r d : Word) (k : Nat) : hiByte (steppedIndex .w8 r d k) = 0x00 := by
  apply BitVec.eq_of_toNat_eq
  rw [hiByte_toNat]; simp [steppedIndex, widen, lowPart, Width.bits]; omega

/-- One byte of a block move, whole. -/
theorem moveByte_eq (dst src : Byte) (d : Word) (s : State) :
    moveByte dst src d s = .next
      { s with
        mem := s.mem.write (addressOf dst s.y) (s.mem.read (addressOf src s.x))
        db := dst
        x := steppedIndex (s.width .x) s.x d 1
        y := steppedIndex (s.width .x) s.y d 1
        a := s.a - 1
        pc := if s.a = 0 then s.pc + 3 else s.pc } := by
  simp only [moveByte, steppedIndex_one, sub_one_eq_iff]

/-! ## Entries -/

/-- P after an entry: I set, D cleared (60_exceptions.md R256). -/
theorem statusIs_enter (p : Byte) :
    StatusIs (putBit (putBit p Flag.i.bit true) Flag.d.bit false) p [(.d, false), (.i, true)] :=
  statusIs_put .d _ (statusIs_put .i _ (statusIs_refl p))

/-- The status byte that BRK and COP push with E = 1 (60_exceptions.md R256). -/
theorem pushed_software (p : Byte) : putBit (putBit p 5 true) 4 true = p ||| 0x30 := by
  simp [putBit, BitVec.or_assoc]

/-- The status byte that IRQ and NMI push with E = 1 (60_exceptions.md R268). -/
theorem pushed_hardware (p : Byte) : putBit (putBit p 5 true) 4 false = (p ||| 0x20) &&& 0xEF := by
  simp [putBit]

/-- An NMI latched or arriving is taken at the boundary of a running or waiting machine (R254, R260, R263). -/
theorem step_nmi {s : State} (hr : s.run ≠ .stopped) (h1 : s.sample.reset = false) (h2 : s.sample.abort = false)
    (h : s.nmiPending = true ∨ s.sample.nmi = true) : step s = .next (enter .nmi s.pc s.latch) := by
  have hp : s.latch.nmiPending = true := by
    rw [latch_nmiPending]; rcases h with h | h <;> simp [h, hr]
  have hb : boundary s.sample s.latch = .enter .nmi := by
    simp only [boundary, h1, h2, hp, latch_run]
    cases h : s.run <;> simp_all
  rw [step, hb]; rfl

/-- An IRQ is taken at the boundary of a running or waiting machine with I = 0 and no NMI (R253, R260, R263). -/
theorem step_irq {s : State} (hr : s.run ≠ .stopped) (h1 : s.sample.reset = false) (h2 : s.sample.abort = false)
    (h3 : s.nmiPending = false) (h4 : s.sample.nmi = false) (h5 : s.sample.irq = true) (h6 : s.flag .i = false) :
    step s = .next (enter .irq s.pc s.latch) := by
  have hfl : s.latch.flag .i = s.flag .i := flag_congr (by simp) _
  have hb : boundary s.sample s.latch = .enter .irq := by
    simp only [boundary, h1, h2, latch_nmiPending, latch_run, h3, h4, h5, hfl, h6]
    cases h : s.run <;> simp_all
  rw [step, hb]; rfl

end Sys2Proof.Machine
end

