-- ==== Sys2Proof/Laws/Frames.lean ====
section
/-! SUPPORT. What the effects that instructions give to the frames of Machine/Operands.lean leave alone: the control
registers, the stack pointer, memory, and the index high bytes where P.X or E forces them. -/

namespace Sys2Proof.Machine

/-- `t` differs from `s` at most in A, PC, the arithmetic flags, I, D, and index bytes that no lock forces. -/
structure SameControl (s t : State) : Prop where
  e : t.e = s.e
  m : t.flag .m = s.flag .m
  fx : t.flag .x = s.flag .x
  sp : t.sp = s.sp
  d : t.d = s.d
  db : t.db = s.db
  pb : t.pb = s.pb
  run : t.run = s.run
  nmiPending : t.nmiPending = s.nmiPending
  inputs : t.inputs = s.inputs
  draws : t.draws = s.draws
  mem : t.mem = s.mem
  x : s.e = true ∨ s.flag .x = true → hiByte t.x = hiByte s.x
  y : s.e = true ∨ s.flag .x = true → hiByte t.y = hiByte s.y

namespace SameControl

theorem refl (s : State) : SameControl s s :=
  ⟨rfl, rfl, rfl, rfl, rfl, rfl, rfl, rfl, rfl, rfl, rfl, rfl, fun _ => rfl, fun _ => rfl⟩

theorem setFlag {s t : State} (g : SameControl s t) (f : Flag) (b : Bool) (hm : f ≠ .m) (hx : f ≠ .x) :
    SameControl s (t.setFlag f b) :=
  { g with
    m := by rw [flag_setFlag, if_neg hm.symm]; exact g.m
    fx := by rw [flag_setFlag, if_neg hx.symm]; exact g.fx }

theorem setNZ {s t : State} (g : SameControl s t) {n : Nat} (r : BitVec n) : SameControl s (t.setNZ r) :=
  (g.setFlag .n _ (by decide) (by decide)).setFlag .z _ (by decide) (by decide)

theorem setA {s t : State} (g : SameControl s t) (v : Word) : SameControl s { t with a := v } := { g with }

theorem advance {s t : State} (g : SameControl s t) (len : Word) : SameControl s (t.advance len) := { g with }

/-- A write at the index width keeps the high byte where E or P.X forces it. -/
theorem hiByte_putLow_x (s : State) (r : Word) (v : BitVec (s.width .x).bits)
    (h : s.e = true ∨ s.flag .x = true) : hiByte (putLow (s.width .x) r v) = hiByte r := by
  have : s.width .x = .w8 := by rw [width_x, if_pos]; simp [State.x8]; tauto
  revert v; rw [this]; intro v; simp [putLow]

theorem setX (s : State) (v : BitVec (s.width .x).bits) :
    SameControl s { s with x := putLow (s.width .x) s.x v } :=
  { refl s with x := hiByte_putLow_x s s.x v }

theorem setY (s : State) (v : BitVec (s.width .x).bits) :
    SameControl s { s with y := putLow (s.width .x) s.y v } :=
  { refl s with y := hiByte_putLow_x s s.y v }

theorem adcWith (s : State) (w : Width) (m : BitVec w.bits) : SameControl s (adcWith w m s) :=
  ((((refl s).setA _).setFlag .c _ (by decide) (by decide)).setFlag .v _ (by decide) (by decide)).setNZ _

theorem sbcWith (s : State) (w : Width) (m : BitVec w.bits) : SameControl s (sbcWith w m s) :=
  ((((refl s).setA _).setFlag .c _ (by decide) (by decide)).setFlag .v _ (by decide) (by decide)).setNZ _

theorem logicWith (op : (w : Width) → BitVec w.bits → BitVec w.bits → BitVec w.bits) (s : State) (w : Width)
    (m : BitVec w.bits) : SameControl s (logicWith op w m s) := ((refl s).setA _).setNZ _

theorem compareWith (reg : State → Word) (s : State) (w : Width) (m : BitVec w.bits) :
    SameControl s (compareWith reg w m s) := ((refl s).setFlag .c _ (by decide) (by decide)).setNZ _

theorem ldaWith (s : State) (w : Width) (m : BitVec w.bits) : SameControl s (ldaWith w m s) :=
  ((refl s).setA _).setNZ _

theorem ldxWith (s : State) (m : BitVec (s.width .x).bits) : SameControl s (ldxWith (s.width .x) m s) :=
  (setX s m).setNZ _

theorem ldyWith (s : State) (m : BitVec (s.width .x).bits) : SameControl s (ldyWith (s.width .x) m s) :=
  (setY s m).setNZ _

theorem bitZero (s : State) (w : Width) (m : BitVec w.bits) : SameControl s (bitZero w m s) :=
  (refl s).setFlag _ _ (by decide) (by decide)

theorem bitMemory (s : State) (w : Width) (m : BitVec w.bits) : SameControl s (bitMemory w m s) :=
  ((bitZero s w m).setFlag .n _ (by decide) (by decide)).setFlag .v _ (by decide) (by decide)

theorem shiftResult (s : State) {n : Nat} (r : BitVec n) (out : Bool) : SameControl s (shiftResult r out s).2 :=
  ((refl s).setFlag .c _ (by decide) (by decide)).setNZ _

theorem incValue (s : State) (w : Width) (b : BitVec w.bits) : SameControl s (incValue w b s).2 :=
  (refl s).setNZ _

theorem decValue (s : State) (w : Width) (b : BitVec w.bits) : SameControl s (decValue w b s).2 :=
  (refl s).setNZ _

end SameControl

/-- The high byte of S where the lock of E acts. -/
theorem hiByte_movedStack {e : Bool} (sp k : Word) (h : e = true) : hiByte (movedStack e sp k) = 0x01 := by
  rw [h]; simp [movedStack]

theorem hiByte_lockPage {e : Bool} (sp : Word) (h : e = true) : hiByte (lockPage e sp) = 0x01 := by
  rw [h]; simp [lockPage]

end Sys2Proof.Machine
end

