-- ==== Sys2Proof/Laws/PerInstr.lean ====
section
/-! SUPPORT. One lemma per constructor of Instr: its row of the opcode map reads back what its encoding holds.
-/

namespace Sys2Proof

theorem long24_parts (al : Address) : long24 (loByte (offsetOf al)) (hiByte (offsetOf al)) (bankOf al) = al := by
  apply BitVec.eq_of_toNat_eq
  have h : ∀ (b : Byte) (v : Word), (b ++ v : Address).toNat = b.toNat * 65536 + v.toNat :=
    Machine.addressOf_toNat
  rw [long24, Machine.word16_halves, h]
  have := al.isLt
  simp only [bankOf, offsetOf, BitVec.extractLsb'_toNat, Nat.shiftRight_eq_div_pow]
  omega

theorem loByte_setWidth {v : Word} (h : v.toNat < 256) : (loByte v).setWidth 16 = v := by
  apply BitVec.eq_of_toNat_eq
  rw [BitVec.toNat_setWidth, Machine.loByte_toNat]; omega

end Sys2Proof

namespace Sys2Proof.Laws.OpcodeRow

/-- The row at an instruction's opcode takes as many bytes as the instruction's operand has, and makes the
instruction of them when it is well-formed (30_encoding.md R71 to R74, R78). -/
def Statement (i : Instr) : Prop :=
  (∀ m8 x8 : Bool, (opcodeRow i.assemble.1).size m8 x8 = (i.assemble.2.bytes m8 x8).length) ∧
    ∀ (m8 x8 : Bool) (rest : List Byte), i.wellFormed m8 x8 = true →
      (opcodeRow i.assemble.1).build m8 x8 ((i.assemble.2.bytes m8 x8 ++ rest).getD 0 0)
        ((i.assemble.2.bytes m8 x8 ++ rest).getD 1 0) ((i.assemble.2.bytes m8 x8 ++ rest).getD 2 0) = i

theorem of_none {i : Instr} {op : Byte} (ha : i.assemble = (op, .none)) (hr : opcodeRow op = .none i) :
    Statement i := by
  rw [Statement, ha, hr]; exact ⟨fun _ _ => rfl, fun _ _ _ _ => rfl⟩

theorem of_byte {i : Instr} {op b : Byte} (make : Byte → Instr) (ha : i.assemble = (op, .byte b))
    (hr : opcodeRow op = .byte make) (hi : make b = i) : Statement i := by
  rw [Statement, ha, hr]; exact ⟨fun _ _ => rfl, fun _ _ _ _ => hi⟩

theorem of_word {i : Instr} {op : Byte} {v : Word} (make : Word → Instr) (ha : i.assemble = (op, .word v))
    (hr : opcodeRow op = .word make) (hi : make v = i) : Statement i := by
  rw [Statement, ha, hr]
  exact ⟨fun _ _ => rfl, fun _ _ _ _ => by simp [Operand.bytes, Row.build, hi]⟩

theorem of_long {i : Instr} {op : Byte} {al : Address} (make : Address → Instr) (ha : i.assemble = (op, .long al))
    (hr : opcodeRow op = .long make) (hi : make al = i) : Statement i := by
  rw [Statement, ha, hr]
  exact ⟨fun _ _ => rfl, fun _ _ _ _ => by simp [Operand.bytes, Row.build, long24_parts, hi]⟩

theorem of_banks {i : Instr} {op dst src : Byte} (make : Byte → Byte → Instr)
    (ha : i.assemble = (op, .banks dst src)) (hr : opcodeRow op = .banks make) (hi : make dst src = i) :
    Statement i := by
  rw [Statement, ha, hr]; exact ⟨fun _ _ => rfl, fun _ _ _ _ => hi⟩

theorem of_immM {i : Instr} {op : Byte} {v : Word} (make : Word → Instr) (ha : i.assemble = (op, .imm .m v))
    (hr : opcodeRow op = .immM make) (hi : make v = i) (hm : i.immediate = some (.m, v)) : Statement i := by
  rw [Statement, ha, hr]
  refine ⟨fun m8 x8 => by cases m8 <;> rfl, fun m8 x8 _ hw => ?_⟩
  cases m8
  · simp [Operand.bytes, Row.build, Selector.is8, hi]
  · have hv : v.toNat < 256 := by simpa [Instr.wellFormed, hm] using hw
    simp [Operand.bytes, Row.build, Selector.is8, loByte_setWidth hv, hi]

theorem of_immX {i : Instr} {op : Byte} {v : Word} (make : Word → Instr) (ha : i.assemble = (op, .imm .x v))
    (hr : opcodeRow op = .immX make) (hi : make v = i) (hm : i.immediate = some (.x, v)) : Statement i := by
  rw [Statement, ha, hr]
  refine ⟨fun m8 x8 => by cases x8 <;> rfl, fun m8 x8 _ hw => ?_⟩
  cases x8
  · simp [Operand.bytes, Row.build, Selector.is8, hi]
  · have hv : v.toNat < 256 := by simpa [Instr.wellFormed, hm] using hw
    simp [Operand.bytes, Row.build, Selector.is8, loByte_setWidth hv, hi]

theorem brk (sig : Byte) : Statement (.brk sig) := of_byte .brk rfl rfl rfl
theorem oraDirXInd (d : Byte) : Statement (.oraDirXInd d) := of_byte .oraDirXInd rfl rfl rfl
theorem cop (sig : Byte) : Statement (.cop sig) := of_byte .cop rfl rfl rfl
theorem oraSr (d : Byte) : Statement (.oraSr d) := of_byte .oraSr rfl rfl rfl
theorem tsbDir (d : Byte) : Statement (.tsbDir d) := of_byte .tsbDir rfl rfl rfl
theorem oraDir (d : Byte) : Statement (.oraDir d) := of_byte .oraDir rfl rfl rfl
theorem aslDir (d : Byte) : Statement (.aslDir d) := of_byte .aslDir rfl rfl rfl
theorem oraDirIndl (d : Byte) : Statement (.oraDirIndl d) := of_byte .oraDirIndl rfl rfl rfl
theorem php : Statement .php := of_none rfl rfl
theorem oraImm (imm : Word) : Statement (.oraImm imm) := of_immM .oraImm rfl rfl rfl rfl
theorem aslAcc : Statement .aslAcc := of_none rfl rfl
theorem phd : Statement .phd := of_none rfl rfl
theorem tsbAbs (a : Word) : Statement (.tsbAbs a) := of_word .tsbAbs rfl rfl rfl
theorem oraAbs (a : Word) : Statement (.oraAbs a) := of_word .oraAbs rfl rfl rfl
theorem aslAbs (a : Word) : Statement (.aslAbs a) := of_word .aslAbs rfl rfl rfl
theorem oraAbsl (al : Address) : Statement (.oraAbsl al) := of_long .oraAbsl rfl rfl rfl
theorem bpl (r : Byte) : Statement (.bpl r) := of_byte .bpl rfl rfl rfl
theorem oraDirIndY (d : Byte) : Statement (.oraDirIndY d) := of_byte .oraDirIndY rfl rfl rfl
theorem oraDirInd (d : Byte) : Statement (.oraDirInd d) := of_byte .oraDirInd rfl rfl rfl
theorem oraSrIndY (d : Byte) : Statement (.oraSrIndY d) := of_byte .oraSrIndY rfl rfl rfl
theorem trbDir (d : Byte) : Statement (.trbDir d) := of_byte .trbDir rfl rfl rfl
theorem oraDirX (d : Byte) : Statement (.oraDirX d) := of_byte .oraDirX rfl rfl rfl
theorem aslDirX (d : Byte) : Statement (.aslDirX d) := of_byte .aslDirX rfl rfl rfl
theorem oraDirIndlY (d : Byte) : Statement (.oraDirIndlY d) := of_byte .oraDirIndlY rfl rfl rfl
theorem clc : Statement .clc := of_none rfl rfl
theorem oraAbsY (a : Word) : Statement (.oraAbsY a) := of_word .oraAbsY rfl rfl rfl
theorem incAcc : Statement .incAcc := of_none rfl rfl
theorem tcs : Statement .tcs := of_none rfl rfl
theorem trbAbs (a : Word) : Statement (.trbAbs a) := of_word .trbAbs rfl rfl rfl
theorem oraAbsX (a : Word) : Statement (.oraAbsX a) := of_word .oraAbsX rfl rfl rfl
theorem aslAbsX (a : Word) : Statement (.aslAbsX a) := of_word .aslAbsX rfl rfl rfl
theorem oraAbslX (al : Address) : Statement (.oraAbslX al) := of_long .oraAbslX rfl rfl rfl
theorem jsrAbs (a : Word) : Statement (.jsrAbs a) := of_word .jsrAbs rfl rfl rfl
theorem andDirXInd (d : Byte) : Statement (.andDirXInd d) := of_byte .andDirXInd rfl rfl rfl
theorem jsl (al : Address) : Statement (.jsl al) := of_long .jsl rfl rfl rfl
theorem andSr (d : Byte) : Statement (.andSr d) := of_byte .andSr rfl rfl rfl
theorem bitDir (d : Byte) : Statement (.bitDir d) := of_byte .bitDir rfl rfl rfl
theorem andDir (d : Byte) : Statement (.andDir d) := of_byte .andDir rfl rfl rfl
theorem rolDir (d : Byte) : Statement (.rolDir d) := of_byte .rolDir rfl rfl rfl
theorem andDirIndl (d : Byte) : Statement (.andDirIndl d) := of_byte .andDirIndl rfl rfl rfl
theorem plp : Statement .plp := of_none rfl rfl
theorem andImm (imm : Word) : Statement (.andImm imm) := of_immM .andImm rfl rfl rfl rfl
theorem rolAcc : Statement .rolAcc := of_none rfl rfl
theorem pld : Statement .pld := of_none rfl rfl
theorem bitAbs (a : Word) : Statement (.bitAbs a) := of_word .bitAbs rfl rfl rfl
theorem andAbs (a : Word) : Statement (.andAbs a) := of_word .andAbs rfl rfl rfl
theorem rolAbs (a : Word) : Statement (.rolAbs a) := of_word .rolAbs rfl rfl rfl
theorem andAbsl (al : Address) : Statement (.andAbsl al) := of_long .andAbsl rfl rfl rfl
theorem bmi (r : Byte) : Statement (.bmi r) := of_byte .bmi rfl rfl rfl
theorem andDirIndY (d : Byte) : Statement (.andDirIndY d) := of_byte .andDirIndY rfl rfl rfl
theorem andDirInd (d : Byte) : Statement (.andDirInd d) := of_byte .andDirInd rfl rfl rfl
theorem andSrIndY (d : Byte) : Statement (.andSrIndY d) := of_byte .andSrIndY rfl rfl rfl
theorem bitDirX (d : Byte) : Statement (.bitDirX d) := of_byte .bitDirX rfl rfl rfl
theorem andDirX (d : Byte) : Statement (.andDirX d) := of_byte .andDirX rfl rfl rfl
theorem rolDirX (d : Byte) : Statement (.rolDirX d) := of_byte .rolDirX rfl rfl rfl
theorem andDirIndlY (d : Byte) : Statement (.andDirIndlY d) := of_byte .andDirIndlY rfl rfl rfl
theorem sec : Statement .sec := of_none rfl rfl
theorem andAbsY (a : Word) : Statement (.andAbsY a) := of_word .andAbsY rfl rfl rfl
theorem decAcc : Statement .decAcc := of_none rfl rfl
theorem tsc : Statement .tsc := of_none rfl rfl
theorem bitAbsX (a : Word) : Statement (.bitAbsX a) := of_word .bitAbsX rfl rfl rfl
theorem andAbsX (a : Word) : Statement (.andAbsX a) := of_word .andAbsX rfl rfl rfl
theorem rolAbsX (a : Word) : Statement (.rolAbsX a) := of_word .rolAbsX rfl rfl rfl
theorem andAbslX (al : Address) : Statement (.andAbslX al) := of_long .andAbslX rfl rfl rfl
theorem rti : Statement .rti := of_none rfl rfl
theorem eorDirXInd (d : Byte) : Statement (.eorDirXInd d) := of_byte .eorDirXInd rfl rfl rfl
theorem wdm (sig : Byte) : Statement (.wdm sig) := of_byte .wdm rfl rfl rfl
theorem eorSr (d : Byte) : Statement (.eorSr d) := of_byte .eorSr rfl rfl rfl
theorem mvp (dst src : Byte) : Statement (.mvp dst src) := of_banks .mvp rfl rfl rfl
theorem eorDir (d : Byte) : Statement (.eorDir d) := of_byte .eorDir rfl rfl rfl
theorem lsrDir (d : Byte) : Statement (.lsrDir d) := of_byte .lsrDir rfl rfl rfl
theorem eorDirIndl (d : Byte) : Statement (.eorDirIndl d) := of_byte .eorDirIndl rfl rfl rfl
theorem pha : Statement .pha := of_none rfl rfl
theorem eorImm (imm : Word) : Statement (.eorImm imm) := of_immM .eorImm rfl rfl rfl rfl
theorem lsrAcc : Statement .lsrAcc := of_none rfl rfl
theorem phk : Statement .phk := of_none rfl rfl
theorem jmpAbs (a : Word) : Statement (.jmpAbs a) := of_word .jmpAbs rfl rfl rfl
theorem eorAbs (a : Word) : Statement (.eorAbs a) := of_word .eorAbs rfl rfl rfl
theorem lsrAbs (a : Word) : Statement (.lsrAbs a) := of_word .lsrAbs rfl rfl rfl
theorem eorAbsl (al : Address) : Statement (.eorAbsl al) := of_long .eorAbsl rfl rfl rfl
theorem bvc (r : Byte) : Statement (.bvc r) := of_byte .bvc rfl rfl rfl
theorem eorDirIndY (d : Byte) : Statement (.eorDirIndY d) := of_byte .eorDirIndY rfl rfl rfl
theorem eorDirInd (d : Byte) : Statement (.eorDirInd d) := of_byte .eorDirInd rfl rfl rfl
theorem eorSrIndY (d : Byte) : Statement (.eorSrIndY d) := of_byte .eorSrIndY rfl rfl rfl
theorem mvn (dst src : Byte) : Statement (.mvn dst src) := of_banks .mvn rfl rfl rfl
theorem eorDirX (d : Byte) : Statement (.eorDirX d) := of_byte .eorDirX rfl rfl rfl
theorem lsrDirX (d : Byte) : Statement (.lsrDirX d) := of_byte .lsrDirX rfl rfl rfl
theorem eorDirIndlY (d : Byte) : Statement (.eorDirIndlY d) := of_byte .eorDirIndlY rfl rfl rfl
theorem cli : Statement .cli := of_none rfl rfl
theorem eorAbsY (a : Word) : Statement (.eorAbsY a) := of_word .eorAbsY rfl rfl rfl
theorem phy : Statement .phy := of_none rfl rfl
theorem tcd : Statement .tcd := of_none rfl rfl
theorem jmpAbsl (al : Address) : Statement (.jmpAbsl al) := of_long .jmpAbsl rfl rfl rfl
theorem eorAbsX (a : Word) : Statement (.eorAbsX a) := of_word .eorAbsX rfl rfl rfl
theorem lsrAbsX (a : Word) : Statement (.lsrAbsX a) := of_word .lsrAbsX rfl rfl rfl
theorem eorAbslX (al : Address) : Statement (.eorAbslX al) := of_long .eorAbslX rfl rfl rfl
theorem rts : Statement .rts := of_none rfl rfl
theorem adcDirXInd (d : Byte) : Statement (.adcDirXInd d) := of_byte .adcDirXInd rfl rfl rfl
theorem per (r : Word) : Statement (.per r) := of_word .per rfl rfl rfl
theorem adcSr (d : Byte) : Statement (.adcSr d) := of_byte .adcSr rfl rfl rfl
theorem stzDir (d : Byte) : Statement (.stzDir d) := of_byte .stzDir rfl rfl rfl
theorem adcDir (d : Byte) : Statement (.adcDir d) := of_byte .adcDir rfl rfl rfl
theorem rorDir (d : Byte) : Statement (.rorDir d) := of_byte .rorDir rfl rfl rfl
theorem adcDirIndl (d : Byte) : Statement (.adcDirIndl d) := of_byte .adcDirIndl rfl rfl rfl
theorem pla : Statement .pla := of_none rfl rfl
theorem adcImm (imm : Word) : Statement (.adcImm imm) := of_immM .adcImm rfl rfl rfl rfl
theorem rorAcc : Statement .rorAcc := of_none rfl rfl
theorem rtl : Statement .rtl := of_none rfl rfl
theorem jmpAbsInd (a : Word) : Statement (.jmpAbsInd a) := of_word .jmpAbsInd rfl rfl rfl
theorem adcAbs (a : Word) : Statement (.adcAbs a) := of_word .adcAbs rfl rfl rfl
theorem rorAbs (a : Word) : Statement (.rorAbs a) := of_word .rorAbs rfl rfl rfl
theorem adcAbsl (al : Address) : Statement (.adcAbsl al) := of_long .adcAbsl rfl rfl rfl
theorem bvs (r : Byte) : Statement (.bvs r) := of_byte .bvs rfl rfl rfl
theorem adcDirIndY (d : Byte) : Statement (.adcDirIndY d) := of_byte .adcDirIndY rfl rfl rfl
theorem adcDirInd (d : Byte) : Statement (.adcDirInd d) := of_byte .adcDirInd rfl rfl rfl
theorem adcSrIndY (d : Byte) : Statement (.adcSrIndY d) := of_byte .adcSrIndY rfl rfl rfl
theorem stzDirX (d : Byte) : Statement (.stzDirX d) := of_byte .stzDirX rfl rfl rfl
theorem adcDirX (d : Byte) : Statement (.adcDirX d) := of_byte .adcDirX rfl rfl rfl
theorem rorDirX (d : Byte) : Statement (.rorDirX d) := of_byte .rorDirX rfl rfl rfl
theorem adcDirIndlY (d : Byte) : Statement (.adcDirIndlY d) := of_byte .adcDirIndlY rfl rfl rfl
theorem sei : Statement .sei := of_none rfl rfl
theorem adcAbsY (a : Word) : Statement (.adcAbsY a) := of_word .adcAbsY rfl rfl rfl
theorem ply : Statement .ply := of_none rfl rfl
theorem tdc : Statement .tdc := of_none rfl rfl
theorem jmpAbsXInd (a : Word) : Statement (.jmpAbsXInd a) := of_word .jmpAbsXInd rfl rfl rfl
theorem adcAbsX (a : Word) : Statement (.adcAbsX a) := of_word .adcAbsX rfl rfl rfl
theorem rorAbsX (a : Word) : Statement (.rorAbsX a) := of_word .rorAbsX rfl rfl rfl
theorem adcAbslX (al : Address) : Statement (.adcAbslX al) := of_long .adcAbslX rfl rfl rfl
theorem bra (r : Byte) : Statement (.bra r) := of_byte .bra rfl rfl rfl
theorem staDirXInd (d : Byte) : Statement (.staDirXInd d) := of_byte .staDirXInd rfl rfl rfl
theorem brl (r : Word) : Statement (.brl r) := of_word .brl rfl rfl rfl
theorem staSr (d : Byte) : Statement (.staSr d) := of_byte .staSr rfl rfl rfl
theorem styDir (d : Byte) : Statement (.styDir d) := of_byte .styDir rfl rfl rfl
theorem staDir (d : Byte) : Statement (.staDir d) := of_byte .staDir rfl rfl rfl
theorem stxDir (d : Byte) : Statement (.stxDir d) := of_byte .stxDir rfl rfl rfl
theorem staDirIndl (d : Byte) : Statement (.staDirIndl d) := of_byte .staDirIndl rfl rfl rfl
theorem dey : Statement .dey := of_none rfl rfl
theorem bitImm (imm : Word) : Statement (.bitImm imm) := of_immM .bitImm rfl rfl rfl rfl
theorem txa : Statement .txa := of_none rfl rfl
theorem phb : Statement .phb := of_none rfl rfl
theorem styAbs (a : Word) : Statement (.styAbs a) := of_word .styAbs rfl rfl rfl
theorem staAbs (a : Word) : Statement (.staAbs a) := of_word .staAbs rfl rfl rfl
theorem stxAbs (a : Word) : Statement (.stxAbs a) := of_word .stxAbs rfl rfl rfl
theorem staAbsl (al : Address) : Statement (.staAbsl al) := of_long .staAbsl rfl rfl rfl
theorem bcc (r : Byte) : Statement (.bcc r) := of_byte .bcc rfl rfl rfl
theorem staDirIndY (d : Byte) : Statement (.staDirIndY d) := of_byte .staDirIndY rfl rfl rfl
theorem staDirInd (d : Byte) : Statement (.staDirInd d) := of_byte .staDirInd rfl rfl rfl
theorem staSrIndY (d : Byte) : Statement (.staSrIndY d) := of_byte .staSrIndY rfl rfl rfl
theorem styDirX (d : Byte) : Statement (.styDirX d) := of_byte .styDirX rfl rfl rfl
theorem staDirX (d : Byte) : Statement (.staDirX d) := of_byte .staDirX rfl rfl rfl
theorem stxDirY (d : Byte) : Statement (.stxDirY d) := of_byte .stxDirY rfl rfl rfl
theorem staDirIndlY (d : Byte) : Statement (.staDirIndlY d) := of_byte .staDirIndlY rfl rfl rfl
theorem tya : Statement .tya := of_none rfl rfl
theorem staAbsY (a : Word) : Statement (.staAbsY a) := of_word .staAbsY rfl rfl rfl
theorem txs : Statement .txs := of_none rfl rfl
theorem txy : Statement .txy := of_none rfl rfl
theorem stzAbs (a : Word) : Statement (.stzAbs a) := of_word .stzAbs rfl rfl rfl
theorem staAbsX (a : Word) : Statement (.staAbsX a) := of_word .staAbsX rfl rfl rfl
theorem stzAbsX (a : Word) : Statement (.stzAbsX a) := of_word .stzAbsX rfl rfl rfl
theorem staAbslX (al : Address) : Statement (.staAbslX al) := of_long .staAbslX rfl rfl rfl
theorem ldyImm (imm : Word) : Statement (.ldyImm imm) := of_immX .ldyImm rfl rfl rfl rfl
theorem ldaDirXInd (d : Byte) : Statement (.ldaDirXInd d) := of_byte .ldaDirXInd rfl rfl rfl
theorem ldxImm (imm : Word) : Statement (.ldxImm imm) := of_immX .ldxImm rfl rfl rfl rfl
theorem ldaSr (d : Byte) : Statement (.ldaSr d) := of_byte .ldaSr rfl rfl rfl
theorem ldyDir (d : Byte) : Statement (.ldyDir d) := of_byte .ldyDir rfl rfl rfl
theorem ldaDir (d : Byte) : Statement (.ldaDir d) := of_byte .ldaDir rfl rfl rfl
theorem ldxDir (d : Byte) : Statement (.ldxDir d) := of_byte .ldxDir rfl rfl rfl
theorem ldaDirIndl (d : Byte) : Statement (.ldaDirIndl d) := of_byte .ldaDirIndl rfl rfl rfl
theorem tay : Statement .tay := of_none rfl rfl
theorem ldaImm (imm : Word) : Statement (.ldaImm imm) := of_immM .ldaImm rfl rfl rfl rfl
theorem tax : Statement .tax := of_none rfl rfl
theorem plb : Statement .plb := of_none rfl rfl
theorem ldyAbs (a : Word) : Statement (.ldyAbs a) := of_word .ldyAbs rfl rfl rfl
theorem ldaAbs (a : Word) : Statement (.ldaAbs a) := of_word .ldaAbs rfl rfl rfl
theorem ldxAbs (a : Word) : Statement (.ldxAbs a) := of_word .ldxAbs rfl rfl rfl
theorem ldaAbsl (al : Address) : Statement (.ldaAbsl al) := of_long .ldaAbsl rfl rfl rfl
theorem bcs (r : Byte) : Statement (.bcs r) := of_byte .bcs rfl rfl rfl
theorem ldaDirIndY (d : Byte) : Statement (.ldaDirIndY d) := of_byte .ldaDirIndY rfl rfl rfl
theorem ldaDirInd (d : Byte) : Statement (.ldaDirInd d) := of_byte .ldaDirInd rfl rfl rfl
theorem ldaSrIndY (d : Byte) : Statement (.ldaSrIndY d) := of_byte .ldaSrIndY rfl rfl rfl
theorem ldyDirX (d : Byte) : Statement (.ldyDirX d) := of_byte .ldyDirX rfl rfl rfl
theorem ldaDirX (d : Byte) : Statement (.ldaDirX d) := of_byte .ldaDirX rfl rfl rfl
theorem ldxDirY (d : Byte) : Statement (.ldxDirY d) := of_byte .ldxDirY rfl rfl rfl
theorem ldaDirIndlY (d : Byte) : Statement (.ldaDirIndlY d) := of_byte .ldaDirIndlY rfl rfl rfl
theorem clv : Statement .clv := of_none rfl rfl
theorem ldaAbsY (a : Word) : Statement (.ldaAbsY a) := of_word .ldaAbsY rfl rfl rfl
theorem tsx : Statement .tsx := of_none rfl rfl
theorem tyx : Statement .tyx := of_none rfl rfl
theorem ldyAbsX (a : Word) : Statement (.ldyAbsX a) := of_word .ldyAbsX rfl rfl rfl
theorem ldaAbsX (a : Word) : Statement (.ldaAbsX a) := of_word .ldaAbsX rfl rfl rfl
theorem ldxAbsY (a : Word) : Statement (.ldxAbsY a) := of_word .ldxAbsY rfl rfl rfl
theorem ldaAbslX (al : Address) : Statement (.ldaAbslX al) := of_long .ldaAbslX rfl rfl rfl
theorem cpyImm (imm : Word) : Statement (.cpyImm imm) := of_immX .cpyImm rfl rfl rfl rfl
theorem cmpDirXInd (d : Byte) : Statement (.cmpDirXInd d) := of_byte .cmpDirXInd rfl rfl rfl
theorem rep (imm : Byte) : Statement (.rep imm) := of_byte .rep rfl rfl rfl
theorem cmpSr (d : Byte) : Statement (.cmpSr d) := of_byte .cmpSr rfl rfl rfl
theorem cpyDir (d : Byte) : Statement (.cpyDir d) := of_byte .cpyDir rfl rfl rfl
theorem cmpDir (d : Byte) : Statement (.cmpDir d) := of_byte .cmpDir rfl rfl rfl
theorem decDir (d : Byte) : Statement (.decDir d) := of_byte .decDir rfl rfl rfl
theorem cmpDirIndl (d : Byte) : Statement (.cmpDirIndl d) := of_byte .cmpDirIndl rfl rfl rfl
theorem iny : Statement .iny := of_none rfl rfl
theorem cmpImm (imm : Word) : Statement (.cmpImm imm) := of_immM .cmpImm rfl rfl rfl rfl
theorem dex : Statement .dex := of_none rfl rfl
theorem wai : Statement .wai := of_none rfl rfl
theorem cpyAbs (a : Word) : Statement (.cpyAbs a) := of_word .cpyAbs rfl rfl rfl
theorem cmpAbs (a : Word) : Statement (.cmpAbs a) := of_word .cmpAbs rfl rfl rfl
theorem decAbs (a : Word) : Statement (.decAbs a) := of_word .decAbs rfl rfl rfl
theorem cmpAbsl (al : Address) : Statement (.cmpAbsl al) := of_long .cmpAbsl rfl rfl rfl
theorem bne (r : Byte) : Statement (.bne r) := of_byte .bne rfl rfl rfl
theorem cmpDirIndY (d : Byte) : Statement (.cmpDirIndY d) := of_byte .cmpDirIndY rfl rfl rfl
theorem cmpDirInd (d : Byte) : Statement (.cmpDirInd d) := of_byte .cmpDirInd rfl rfl rfl
theorem cmpSrIndY (d : Byte) : Statement (.cmpSrIndY d) := of_byte .cmpSrIndY rfl rfl rfl
theorem pei (d : Byte) : Statement (.pei d) := of_byte .pei rfl rfl rfl
theorem cmpDirX (d : Byte) : Statement (.cmpDirX d) := of_byte .cmpDirX rfl rfl rfl
theorem decDirX (d : Byte) : Statement (.decDirX d) := of_byte .decDirX rfl rfl rfl
theorem cmpDirIndlY (d : Byte) : Statement (.cmpDirIndlY d) := of_byte .cmpDirIndlY rfl rfl rfl
theorem cld : Statement .cld := of_none rfl rfl
theorem cmpAbsY (a : Word) : Statement (.cmpAbsY a) := of_word .cmpAbsY rfl rfl rfl
theorem phx : Statement .phx := of_none rfl rfl
theorem stp : Statement .stp := of_none rfl rfl
theorem jml (a : Word) : Statement (.jml a) := of_word .jml rfl rfl rfl
theorem cmpAbsX (a : Word) : Statement (.cmpAbsX a) := of_word .cmpAbsX rfl rfl rfl
theorem decAbsX (a : Word) : Statement (.decAbsX a) := of_word .decAbsX rfl rfl rfl
theorem cmpAbslX (al : Address) : Statement (.cmpAbslX al) := of_long .cmpAbslX rfl rfl rfl
theorem cpxImm (imm : Word) : Statement (.cpxImm imm) := of_immX .cpxImm rfl rfl rfl rfl
theorem sbcDirXInd (d : Byte) : Statement (.sbcDirXInd d) := of_byte .sbcDirXInd rfl rfl rfl
theorem sep (imm : Byte) : Statement (.sep imm) := of_byte .sep rfl rfl rfl
theorem sbcSr (d : Byte) : Statement (.sbcSr d) := of_byte .sbcSr rfl rfl rfl
theorem cpxDir (d : Byte) : Statement (.cpxDir d) := of_byte .cpxDir rfl rfl rfl
theorem sbcDir (d : Byte) : Statement (.sbcDir d) := of_byte .sbcDir rfl rfl rfl
theorem incDir (d : Byte) : Statement (.incDir d) := of_byte .incDir rfl rfl rfl
theorem sbcDirIndl (d : Byte) : Statement (.sbcDirIndl d) := of_byte .sbcDirIndl rfl rfl rfl
theorem inx : Statement .inx := of_none rfl rfl
theorem sbcImm (imm : Word) : Statement (.sbcImm imm) := of_immM .sbcImm rfl rfl rfl rfl
theorem nop : Statement .nop := of_none rfl rfl
theorem xba : Statement .xba := of_none rfl rfl
theorem cpxAbs (a : Word) : Statement (.cpxAbs a) := of_word .cpxAbs rfl rfl rfl
theorem sbcAbs (a : Word) : Statement (.sbcAbs a) := of_word .sbcAbs rfl rfl rfl
theorem incAbs (a : Word) : Statement (.incAbs a) := of_word .incAbs rfl rfl rfl
theorem sbcAbsl (al : Address) : Statement (.sbcAbsl al) := of_long .sbcAbsl rfl rfl rfl
theorem beq (r : Byte) : Statement (.beq r) := of_byte .beq rfl rfl rfl
theorem sbcDirIndY (d : Byte) : Statement (.sbcDirIndY d) := of_byte .sbcDirIndY rfl rfl rfl
theorem sbcDirInd (d : Byte) : Statement (.sbcDirInd d) := of_byte .sbcDirInd rfl rfl rfl
theorem sbcSrIndY (d : Byte) : Statement (.sbcSrIndY d) := of_byte .sbcSrIndY rfl rfl rfl
theorem pea (imm : Word) : Statement (.pea imm) := of_word .pea rfl rfl rfl
theorem sbcDirX (d : Byte) : Statement (.sbcDirX d) := of_byte .sbcDirX rfl rfl rfl
theorem incDirX (d : Byte) : Statement (.incDirX d) := of_byte .incDirX rfl rfl rfl
theorem sbcDirIndlY (d : Byte) : Statement (.sbcDirIndlY d) := of_byte .sbcDirIndlY rfl rfl rfl
theorem sed : Statement .sed := of_none rfl rfl
theorem sbcAbsY (a : Word) : Statement (.sbcAbsY a) := of_word .sbcAbsY rfl rfl rfl
theorem plx : Statement .plx := of_none rfl rfl
theorem xce : Statement .xce := of_none rfl rfl
theorem jsrAbsXInd (a : Word) : Statement (.jsrAbsXInd a) := of_word .jsrAbsXInd rfl rfl rfl
theorem sbcAbsX (a : Word) : Statement (.sbcAbsX a) := of_word .sbcAbsX rfl rfl rfl
theorem incAbsX (a : Word) : Statement (.incAbsX a) := of_word .incAbsX rfl rfl rfl
theorem sbcAbslX (al : Address) : Statement (.sbcAbslX al) := of_long .sbcAbslX rfl rfl rfl

end Sys2Proof.Laws.OpcodeRow
end

