-- ==== Sys2Proof/Tests/Slice0.lean ====
section
/-! SUPPORT. Tests: ill-formed instructions are refused, every row of the opcode map decodes to its instruction,
one step per instruction with the result that 95_test_vectors.md gives it, and for every statement with
hypotheses a state that meets them. -/

namespace Sys2Proof.Tests

open Sys2Proof Sys2Proof.Machine

/-! ## Helpers -/

/-- A state at 00:8000 with E, P and some bytes of memory, everything else as at reset. -/
def start (e : Bool) (p : Byte) (cells : List (Address × Byte)) : State :=
  { State.reset with
    e := e, p := p, pc := 0x8000, mem := cells.foldl (fun m c => Memory.write m c.1 c.2) [] }

/-- Part of the state after one instruction; `none` if it has no next state. -/
def after {α : Type} (i : Instr) (s : State) (f : State → α) : Option α :=
  match exec i s with
  | .next t => some (f t)
  | .fault _ => none
  | .refused _ => none

/-- Part of the state after one step; `none` if it has no next state. -/
def stepped {α : Type} (s : State) (f : State → α) : Option α :=
  match step s with
  | .next t => some (f t)
  | .fault _ => none
  | .refused _ => none

/-- The instruction each list of bytes starts with. -/
def firsts (m8 x8 : Bool) (words : List (List Byte)) : List (Option Instr) :=
  words.map (fun w =>
    match decode m8 x8 w with
    | .ok (i, _) => some i
    | .error _ => none)

/-! ## Well-formedness (30_encoding.md R74) -/

/-- An immediate of a Pm row above $FF is ill-formed at 8 bits. -/
theorem test_wellFormed_refuses_wide_m : Instr.wellFormed true false (.ldaImm 0x0100) = false := by decide

/-- An immediate of a Px row above $FF is ill-formed at 8 bits. -/
theorem test_wellFormed_refuses_wide_x : Instr.wellFormed false true (.ldxImm 0x0100) = false := by decide

theorem test_wellFormed_follows_own_width :
    Instr.wellFormed false true (.ldaImm 0x0100) = true ∧ Instr.wellFormed true false (.ldxImm 0x0100) = true := by
  decide

/-! ## Decoding (30_encoding.md R70 to R78): operand bytes $34 $12 $7E, and $7F $7E of a block move -/

/-- No byte, or fewer bytes than the length: refused by name. -/
theorem test_decode_refuses_short :
    decode true true [] = .error .noOpcode ∧ decode true true [0x22, 0x34, 0x12] = .error .truncated := by
  decide

theorem test_decode_00_to_0F : firsts true true
    [[0x00, 0x34], [0x01, 0x34], [0x02, 0x34], [0x03, 0x34], [0x04, 0x34], [0x05, 0x34], [0x06, 0x34],
      [0x07, 0x34], [0x08], [0x09, 0x34], [0x0A], [0x0B], [0x0C, 0x34, 0x12], [0x0D, 0x34, 0x12],
      [0x0E, 0x34, 0x12], [0x0F, 0x34, 0x12, 0x7E]] =
    [.brk 0x34, .oraDirXInd 0x34, .cop 0x34, .oraSr 0x34, .tsbDir 0x34, .oraDir 0x34, .aslDir 0x34,
      .oraDirIndl 0x34, .php, .oraImm 0x34, .aslAcc, .phd, .tsbAbs 0x1234, .oraAbs 0x1234, .aslAbs 0x1234,
      .oraAbsl 0x7E1234].map some := by decide

theorem test_decode_10_to_1F : firsts true true
    [[0x10, 0x34], [0x11, 0x34], [0x12, 0x34], [0x13, 0x34], [0x14, 0x34], [0x15, 0x34], [0x16, 0x34],
      [0x17, 0x34], [0x18], [0x19, 0x34, 0x12], [0x1A], [0x1B], [0x1C, 0x34, 0x12], [0x1D, 0x34, 0x12],
      [0x1E, 0x34, 0x12], [0x1F, 0x34, 0x12, 0x7E]] =
    [.bpl 0x34, .oraDirIndY 0x34, .oraDirInd 0x34, .oraSrIndY 0x34, .trbDir 0x34, .oraDirX 0x34, .aslDirX 0x34,
      .oraDirIndlY 0x34, .clc, .oraAbsY 0x1234, .incAcc, .tcs, .trbAbs 0x1234, .oraAbsX 0x1234, .aslAbsX 0x1234,
      .oraAbslX 0x7E1234].map some := by decide

theorem test_decode_20_to_2F : firsts true true
    [[0x20, 0x34, 0x12], [0x21, 0x34], [0x22, 0x34, 0x12, 0x7E], [0x23, 0x34], [0x24, 0x34], [0x25, 0x34],
      [0x26, 0x34], [0x27, 0x34], [0x28], [0x29, 0x34], [0x2A], [0x2B], [0x2C, 0x34, 0x12], [0x2D, 0x34, 0x12],
      [0x2E, 0x34, 0x12], [0x2F, 0x34, 0x12, 0x7E]] =
    [.jsrAbs 0x1234, .andDirXInd 0x34, .jsl 0x7E1234, .andSr 0x34, .bitDir 0x34, .andDir 0x34, .rolDir 0x34,
      .andDirIndl 0x34, .plp, .andImm 0x34, .rolAcc, .pld, .bitAbs 0x1234, .andAbs 0x1234, .rolAbs 0x1234,
      .andAbsl 0x7E1234].map some := by decide

theorem test_decode_30_to_3F : firsts true true
    [[0x30, 0x34], [0x31, 0x34], [0x32, 0x34], [0x33, 0x34], [0x34, 0x34], [0x35, 0x34], [0x36, 0x34],
      [0x37, 0x34], [0x38], [0x39, 0x34, 0x12], [0x3A], [0x3B], [0x3C, 0x34, 0x12], [0x3D, 0x34, 0x12],
      [0x3E, 0x34, 0x12], [0x3F, 0x34, 0x12, 0x7E]] =
    [.bmi 0x34, .andDirIndY 0x34, .andDirInd 0x34, .andSrIndY 0x34, .bitDirX 0x34, .andDirX 0x34, .rolDirX 0x34,
      .andDirIndlY 0x34, .sec, .andAbsY 0x1234, .decAcc, .tsc, .bitAbsX 0x1234, .andAbsX 0x1234, .rolAbsX 0x1234,
      .andAbslX 0x7E1234].map some := by decide

theorem test_decode_40_to_4F : firsts true true
    [[0x40], [0x41, 0x34], [0x42, 0x34], [0x43, 0x34], [0x44, 0x7F, 0x7E], [0x45, 0x34], [0x46, 0x34],
      [0x47, 0x34], [0x48], [0x49, 0x34], [0x4A], [0x4B], [0x4C, 0x34, 0x12], [0x4D, 0x34, 0x12],
      [0x4E, 0x34, 0x12], [0x4F, 0x34, 0x12, 0x7E]] =
    [.rti, .eorDirXInd 0x34, .wdm 0x34, .eorSr 0x34, .mvp 0x7F 0x7E, .eorDir 0x34, .lsrDir 0x34,
      .eorDirIndl 0x34, .pha, .eorImm 0x34, .lsrAcc, .phk, .jmpAbs 0x1234, .eorAbs 0x1234, .lsrAbs 0x1234,
      .eorAbsl 0x7E1234].map some := by decide

theorem test_decode_50_to_5F : firsts true true
    [[0x50, 0x34], [0x51, 0x34], [0x52, 0x34], [0x53, 0x34], [0x54, 0x7F, 0x7E], [0x55, 0x34], [0x56, 0x34],
      [0x57, 0x34], [0x58], [0x59, 0x34, 0x12], [0x5A], [0x5B], [0x5C, 0x34, 0x12, 0x7E], [0x5D, 0x34, 0x12],
      [0x5E, 0x34, 0x12], [0x5F, 0x34, 0x12, 0x7E]] =
    [.bvc 0x34, .eorDirIndY 0x34, .eorDirInd 0x34, .eorSrIndY 0x34, .mvn 0x7F 0x7E, .eorDirX 0x34, .lsrDirX 0x34,
      .eorDirIndlY 0x34, .cli, .eorAbsY 0x1234, .phy, .tcd, .jmpAbsl 0x7E1234, .eorAbsX 0x1234, .lsrAbsX 0x1234,
      .eorAbslX 0x7E1234].map some := by decide

theorem test_decode_60_to_6F : firsts true true
    [[0x60], [0x61, 0x34], [0x62, 0x34, 0x12], [0x63, 0x34], [0x64, 0x34], [0x65, 0x34], [0x66, 0x34],
      [0x67, 0x34], [0x68], [0x69, 0x34], [0x6A], [0x6B], [0x6C, 0x34, 0x12], [0x6D, 0x34, 0x12],
      [0x6E, 0x34, 0x12], [0x6F, 0x34, 0x12, 0x7E]] =
    [.rts, .adcDirXInd 0x34, .per 0x1234, .adcSr 0x34, .stzDir 0x34, .adcDir 0x34, .rorDir 0x34,
      .adcDirIndl 0x34, .pla, .adcImm 0x34, .rorAcc, .rtl, .jmpAbsInd 0x1234, .adcAbs 0x1234, .rorAbs 0x1234,
      .adcAbsl 0x7E1234].map some := by decide

theorem test_decode_70_to_7F : firsts true true
    [[0x70, 0x34], [0x71, 0x34], [0x72, 0x34], [0x73, 0x34], [0x74, 0x34], [0x75, 0x34], [0x76, 0x34],
      [0x77, 0x34], [0x78], [0x79, 0x34, 0x12], [0x7A], [0x7B], [0x7C, 0x34, 0x12], [0x7D, 0x34, 0x12],
      [0x7E, 0x34, 0x12], [0x7F, 0x34, 0x12, 0x7E]] =
    [.bvs 0x34, .adcDirIndY 0x34, .adcDirInd 0x34, .adcSrIndY 0x34, .stzDirX 0x34, .adcDirX 0x34, .rorDirX 0x34,
      .adcDirIndlY 0x34, .sei, .adcAbsY 0x1234, .ply, .tdc, .jmpAbsXInd 0x1234, .adcAbsX 0x1234, .rorAbsX 0x1234,
      .adcAbslX 0x7E1234].map some := by decide

theorem test_decode_80_to_8F : firsts true true
    [[0x80, 0x34], [0x81, 0x34], [0x82, 0x34, 0x12], [0x83, 0x34], [0x84, 0x34], [0x85, 0x34], [0x86, 0x34],
      [0x87, 0x34], [0x88], [0x89, 0x34], [0x8A], [0x8B], [0x8C, 0x34, 0x12], [0x8D, 0x34, 0x12],
      [0x8E, 0x34, 0x12], [0x8F, 0x34, 0x12, 0x7E]] =
    [.bra 0x34, .staDirXInd 0x34, .brl 0x1234, .staSr 0x34, .styDir 0x34, .staDir 0x34, .stxDir 0x34,
      .staDirIndl 0x34, .dey, .bitImm 0x34, .txa, .phb, .styAbs 0x1234, .staAbs 0x1234, .stxAbs 0x1234,
      .staAbsl 0x7E1234].map some := by decide

theorem test_decode_90_to_9F : firsts true true
    [[0x90, 0x34], [0x91, 0x34], [0x92, 0x34], [0x93, 0x34], [0x94, 0x34], [0x95, 0x34], [0x96, 0x34],
      [0x97, 0x34], [0x98], [0x99, 0x34, 0x12], [0x9A], [0x9B], [0x9C, 0x34, 0x12], [0x9D, 0x34, 0x12],
      [0x9E, 0x34, 0x12], [0x9F, 0x34, 0x12, 0x7E]] =
    [.bcc 0x34, .staDirIndY 0x34, .staDirInd 0x34, .staSrIndY 0x34, .styDirX 0x34, .staDirX 0x34, .stxDirY 0x34,
      .staDirIndlY 0x34, .tya, .staAbsY 0x1234, .txs, .txy, .stzAbs 0x1234, .staAbsX 0x1234, .stzAbsX 0x1234,
      .staAbslX 0x7E1234].map some := by decide

theorem test_decode_A0_to_AF : firsts true true
    [[0xA0, 0x34], [0xA1, 0x34], [0xA2, 0x34], [0xA3, 0x34], [0xA4, 0x34], [0xA5, 0x34], [0xA6, 0x34],
      [0xA7, 0x34], [0xA8], [0xA9, 0x34], [0xAA], [0xAB], [0xAC, 0x34, 0x12], [0xAD, 0x34, 0x12],
      [0xAE, 0x34, 0x12], [0xAF, 0x34, 0x12, 0x7E]] =
    [.ldyImm 0x34, .ldaDirXInd 0x34, .ldxImm 0x34, .ldaSr 0x34, .ldyDir 0x34, .ldaDir 0x34, .ldxDir 0x34,
      .ldaDirIndl 0x34, .tay, .ldaImm 0x34, .tax, .plb, .ldyAbs 0x1234, .ldaAbs 0x1234, .ldxAbs 0x1234,
      .ldaAbsl 0x7E1234].map some := by decide

theorem test_decode_B0_to_BF : firsts true true
    [[0xB0, 0x34], [0xB1, 0x34], [0xB2, 0x34], [0xB3, 0x34], [0xB4, 0x34], [0xB5, 0x34], [0xB6, 0x34],
      [0xB7, 0x34], [0xB8], [0xB9, 0x34, 0x12], [0xBA], [0xBB], [0xBC, 0x34, 0x12], [0xBD, 0x34, 0x12],
      [0xBE, 0x34, 0x12], [0xBF, 0x34, 0x12, 0x7E]] =
    [.bcs 0x34, .ldaDirIndY 0x34, .ldaDirInd 0x34, .ldaSrIndY 0x34, .ldyDirX 0x34, .ldaDirX 0x34, .ldxDirY 0x34,
      .ldaDirIndlY 0x34, .clv, .ldaAbsY 0x1234, .tsx, .tyx, .ldyAbsX 0x1234, .ldaAbsX 0x1234, .ldxAbsY 0x1234,
      .ldaAbslX 0x7E1234].map some := by decide

theorem test_decode_C0_to_CF : firsts true true
    [[0xC0, 0x34], [0xC1, 0x34], [0xC2, 0x34], [0xC3, 0x34], [0xC4, 0x34], [0xC5, 0x34], [0xC6, 0x34],
      [0xC7, 0x34], [0xC8], [0xC9, 0x34], [0xCA], [0xCB], [0xCC, 0x34, 0x12], [0xCD, 0x34, 0x12],
      [0xCE, 0x34, 0x12], [0xCF, 0x34, 0x12, 0x7E]] =
    [.cpyImm 0x34, .cmpDirXInd 0x34, .rep 0x34, .cmpSr 0x34, .cpyDir 0x34, .cmpDir 0x34, .decDir 0x34,
      .cmpDirIndl 0x34, .iny, .cmpImm 0x34, .dex, .wai, .cpyAbs 0x1234, .cmpAbs 0x1234, .decAbs 0x1234,
      .cmpAbsl 0x7E1234].map some := by decide

theorem test_decode_D0_to_DF : firsts true true
    [[0xD0, 0x34], [0xD1, 0x34], [0xD2, 0x34], [0xD3, 0x34], [0xD4, 0x34], [0xD5, 0x34], [0xD6, 0x34],
      [0xD7, 0x34], [0xD8], [0xD9, 0x34, 0x12], [0xDA], [0xDB], [0xDC, 0x34, 0x12], [0xDD, 0x34, 0x12],
      [0xDE, 0x34, 0x12], [0xDF, 0x34, 0x12, 0x7E]] =
    [.bne 0x34, .cmpDirIndY 0x34, .cmpDirInd 0x34, .cmpSrIndY 0x34, .pei 0x34, .cmpDirX 0x34, .decDirX 0x34,
      .cmpDirIndlY 0x34, .cld, .cmpAbsY 0x1234, .phx, .stp, .jml 0x1234, .cmpAbsX 0x1234, .decAbsX 0x1234,
      .cmpAbslX 0x7E1234].map some := by decide

theorem test_decode_E0_to_EF : firsts true true
    [[0xE0, 0x34], [0xE1, 0x34], [0xE2, 0x34], [0xE3, 0x34], [0xE4, 0x34], [0xE5, 0x34], [0xE6, 0x34],
      [0xE7, 0x34], [0xE8], [0xE9, 0x34], [0xEA], [0xEB], [0xEC, 0x34, 0x12], [0xED, 0x34, 0x12],
      [0xEE, 0x34, 0x12], [0xEF, 0x34, 0x12, 0x7E]] =
    [.cpxImm 0x34, .sbcDirXInd 0x34, .sep 0x34, .sbcSr 0x34, .cpxDir 0x34, .sbcDir 0x34, .incDir 0x34,
      .sbcDirIndl 0x34, .inx, .sbcImm 0x34, .nop, .xba, .cpxAbs 0x1234, .sbcAbs 0x1234, .incAbs 0x1234,
      .sbcAbsl 0x7E1234].map some := by decide

theorem test_decode_F0_to_FF : firsts true true
    [[0xF0, 0x34], [0xF1, 0x34], [0xF2, 0x34], [0xF3, 0x34], [0xF4, 0x34, 0x12], [0xF5, 0x34], [0xF6, 0x34],
      [0xF7, 0x34], [0xF8], [0xF9, 0x34, 0x12], [0xFA], [0xFB], [0xFC, 0x34, 0x12], [0xFD, 0x34, 0x12],
      [0xFE, 0x34, 0x12], [0xFF, 0x34, 0x12, 0x7E]] =
    [.beq 0x34, .sbcDirIndY 0x34, .sbcDirInd 0x34, .sbcSrIndY 0x34, .pea 0x1234, .sbcDirX 0x34, .incDirX 0x34,
      .sbcDirIndlY 0x34, .sed, .sbcAbsY 0x1234, .plx, .xce, .jsrAbsXInd 0x1234, .sbcAbsX 0x1234, .incAbsX 0x1234,
      .sbcAbslX 0x7E1234].map some := by decide

theorem test_decode_wide_immediates : firsts false false
    [[0x09, 0x34, 0x12], [0x29, 0x34, 0x12], [0x49, 0x34, 0x12], [0x69, 0x34, 0x12], [0x89, 0x34, 0x12],
      [0xA0, 0x34, 0x12], [0xA2, 0x34, 0x12], [0xA9, 0x34, 0x12], [0xC0, 0x34, 0x12], [0xC9, 0x34, 0x12],
      [0xE0, 0x34, 0x12], [0xE9, 0x34, 0x12]] =
    [.oraImm 0x1234, .andImm 0x1234, .eorImm 0x1234, .adcImm 0x1234, .bitImm 0x1234, .ldyImm 0x1234,
      .ldxImm 0x1234, .ldaImm 0x1234, .cpyImm 0x1234, .cmpImm 0x1234, .cpxImm 0x1234, .sbcImm 0x1234].map some := by decide

/-! ## One execution of each instruction: vectors of 95_test_vectors.md section 2 -/

theorem test_adc_8_bit_signed_overflow :
    after (.adcImm 0x01) { start false 0x30 [] with a := 0x127F }
      (fun t => (t.a, t.p, t.pc)) = some (0x1280, 0xF0, 0x8002) := by decide

theorem test_sbc_8_bit_c_0_borrow_in :
    after (.sbcImm 0x01) { start false 0x30 [] with a := 0x0005 }
      (fun t => (t.a, t.p, t.pc)) = some (0x0003, 0x31, 0x8002) := by decide

theorem test_adc_dec_8_bit_99_01_carry :
    after (.adcImm 0x01) { start false 0x38 [] with a := 0x0099 }
      (fun t => (t.a, t.pc)) = some (0x0000, 0x8002) := by decide

theorem test_sbc_dec_16_bit_1000_0001 :
    after (.sbcImm 0x0001) { start false 0x09 [] with a := 0x1000 }
      (fun t => (t.a, t.pc)) = some (0x0999, 0x8003) := by decide

theorem test_and_8_bit :
    after (.andImm 0x3C) { start false 0x30 [] with a := 0x55F0 }
      (fun t => (t.a, t.pc)) = some (0x5530, 0x8002) := by decide

theorem test_eor_16_bit :
    after (.eorImm 0xFFFF) { start false 0x00 [] with a := 0x7FFF }
      (fun t => (t.a, t.p, t.pc)) = some (0x8000, 0x80, 0x8003) := by decide

theorem test_ora_16_bit_zero :
    after (.oraImm 0x0000) (start false 0x00 [])
      (fun t => (t.p, t.pc)) = some (0x02, 0x8003) := by decide

theorem test_asl_dir_16_bit_write_order_high :
    after (.aslDir 0x10) (start false 0x00 [(0x000010, 0x80), (0x000011, 0xC0)])
      (fun t => (t.p, t.mem.read 0x000011, t.mem.read 0x000010)) = some (0x81, 0x81, 0x00) := by decide

theorem test_lsr_a_8_bit_to_zero :
    after (.lsrAcc) { start false 0x30 [] with a := 0x0001 }
      (fun t => (t.a, t.p)) = some (0x0000, 0x33) := by decide

theorem test_rol_a_16_bit :
    after (.rolAcc) { start false 0x01 [] with a := 0x8000 }
      (fun t => t.a) = some 0x0001 := by decide

theorem test_ror_abs_8_bit :
    after (.rorAbs 0x2000) { start false 0x31 [(0x7E2000, 0x01)] with db := 0x7E }
      (fun t => (t.p, t.mem.read 0x7E2000)) = some (0xB1, 0x80) := by decide

theorem test_bit_8_n_v_kept_set :
    after (.bitImm 0x01) { start false 0xF2 [] with a := 0x0001 }
      (fun t => (t.p, t.pc)) = some (0xF0, 0x8002) := by decide

theorem test_bit_abs_16 :
    after (.bitAbs 0x2000) { start false 0x80 [(0x002000, 0x01), (0x002001, 0x40)] with a := 0x0001 }
      (fun t => t.p) = some 0x40 := by decide

theorem test_cmp_ignores_c_d_keeps_v :
    after (.cmpImm 0x01) { start false 0x78 [] with a := 0x0002 }
      (fun t => (t.p, t.pc)) = some (0x79, 0x8002) := by decide

theorem test_cpx_16_bit_with_m8_length_by :
    after (.cpxImm 0x0100) { start false 0x20 [] with x := 0x0100 }
      (fun t => (t.p, t.pc)) = some (0x23, 0x8003) := by decide

theorem test_cpy_16_bit :
    after (.cpyImm 0x0200) { start false 0x00 [] with y := 0x0100 }
      (fun t => (t.p, t.pc)) = some (0x80, 0x8003) := by decide

theorem test_inc_dir_8_bit :
    after (.incDir 0x10) (start false 0x30 [(0x000010, 0x7F)])
      (fun t => (t.p, t.mem.read 0x000010)) = some (0xB0, 0x80) := by decide

theorem test_dec_a_16_bit_wrap :
    after (.decAcc) (start false 0x00 [])
      (fun t => (t.a, t.p)) = some (0xFFFF, 0x80) := by decide

theorem test_inx_8_bit_wrap :
    after (.inx) { start false 0x30 [] with x := 0x00FF }
      (fun t => (t.x, t.p)) = some (0x0000, 0x32) := by decide

theorem test_dex_16_bit_wrap :
    after (.dex) (start false 0x00 [])
      (fun t => (t.x, t.p)) = some (0xFFFF, 0x80) := by decide

theorem test_iny_8_bit :
    after (.iny) { start false 0x30 [] with y := 0x007F }
      (fun t => (t.y, t.p)) = some (0x0080, 0xB0) := by decide

theorem test_dey_16_bit :
    after (.dey) { start false 0x00 [] with y := 0x0100 }
      (fun t => t.y) = some 0x00FF := by decide

theorem test_lda_8_bit_ah_kept :
    after (.ldaImm 0x80) { start false 0x30 [] with a := 0x1200 }
      (fun t => (t.a, t.p, t.pc)) = some (0x1280, 0xB0, 0x8002) := by decide

theorem test_ldx_8_bit :
    after (.ldxImm 0x00) { start false 0x30 [] with x := 0x0012 }
      (fun t => (t.x, t.p, t.pc)) = some (0x0000, 0x32, 0x8002) := by decide

theorem test_ldy_16_bit :
    after (.ldyImm 0x1234) (start false 0x00 [])
      (fun t => (t.y, t.pc)) = some (0x1234, 0x8003) := by decide

theorem test_sta_abs_8_bit :
    after (.staAbs 0x2000) { start false 0x20 [] with a := 0x1234, db := 0x7E }
      (fun t => (t.pc, t.mem.read 0x7E2000)) = some (0x8003, 0x34) := by decide

theorem test_stx_dir_8_bit :
    after (.stxDir 0x10) { start false 0x30 [] with x := 0x00AB }
      (fun t => (t.pc, t.mem.read 0x000010)) = some (0x8002, 0xAB) := by decide

theorem test_sty_abs_16_bit :
    after (.styAbs 0x1000) { start false 0x00 [] with y := 0xBEEF }
      (fun t => (t.pc, t.mem.read 0x001000, t.mem.read 0x001001)) = some (0x8003, 0xEF, 0xBE) := by decide

theorem test_stz_dir_x_8_bit :
    after (.stzDirX 0x10) { start false 0x30 [] with x := 0x0005, d := 0x0100 }
      (fun t => (t.pc, t.mem.read 0x000115)) = some (0x8002, 0x00) := by decide

theorem test_tsb_dir_8_bit_z_from_a :
    after (.tsbDir 0x10) { start false 0x30 [(0x000010, 0x30)] with a := 0x000F }
      (fun t => (t.p, t.mem.read 0x000010)) = some (0x32, 0x3F) := by decide

theorem test_trb_abs_16_bit_result_zero_z :
    after (.trbAbs 0x2000) { start false 0x00 [(0x002000, 0x10), (0x002001, 0x00)] with a := 0xFFFF }
      (fun t => (t.pc, t.mem.read 0x002001, t.mem.read 0x002000)) = some (0x8003, 0x00, 0x00) := by decide

theorem test_bcc_taken :
    after (.bcc 0x05) (start false 0x30 [])
      (fun t => t.pc) = some 0x8007 := by decide

theorem test_bcs_taken_backward :
    after (.bcs 0xFC) (start false 0x31 [])
      (fun t => t.pc) = some 0x7FFE := by decide

theorem test_beq_taken_bank_wrap :
    after (.beq 0x10) { start false 0x32 [] with pb := 0x01, pc := 0xFFFE }
      (fun t => t.pc) = some 0x0010 := by decide

theorem test_bne_not_taken :
    after (.bne 0x10) (start false 0x32 [])
      (fun t => t.pc) = some 0x8002 := by decide

theorem test_bmi_taken_max_forward :
    after (.bmi 0x7F) (start false 0xB0 [])
      (fun t => t.pc) = some 0x8081 := by decide

theorem test_bpl_taken_max_backward :
    after (.bpl 0x80) (start false 0x30 [])
      (fun t => t.pc) = some 0x7F82 := by decide

theorem test_bvc_taken :
    after (.bvc 0x02) (start false 0x30 [])
      (fun t => t.pc) = some 0x8004 := by decide

theorem test_bvs_taken :
    after (.bvs 0x02) (start false 0x70 [])
      (fun t => t.pc) = some 0x8004 := by decide

theorem test_bra_backward_wrap_at_bank_start :
    after (.bra 0xFC) { start false 0x30 [] with pb := 0x02, pc := 0x0000 }
      (fun t => t.pc) = some 0xFFFE := by decide

theorem test_brl_r_8000 :
    after (.brl 0x8000) (start false 0x30 [])
      (fun t => t.pc) = some 0x0003 := by decide

theorem test_clc :
    after (.clc) { start false 0xFF [] with x := 0x0012, y := 0x0034 }
      (fun t => t.p) = some 0xFE := by decide

theorem test_sec :
    after (.sec) (start false 0x00 [])
      (fun t => t.p) = some 0x01 := by decide

theorem test_cld :
    after (.cld) { start false 0xFF [] with x := 0x0012, y := 0x0034 }
      (fun t => t.p) = some 0xF7 := by decide

theorem test_sed :
    after (.sed) (start false 0x00 [])
      (fun t => t.p) = some 0x08 := by decide

theorem test_cli :
    after (.cli) { start false 0xFF [] with x := 0x0012, y := 0x0034 }
      (fun t => t.p) = some 0xFB := by decide

theorem test_sei :
    after (.sei) (start false 0x00 [])
      (fun t => t.p) = some 0x04 := by decide

theorem test_clv :
    after (.clv) { start false 0xFF [] with x := 0x0012, y := 0x0034 }
      (fun t => t.p) = some 0xBF := by decide

theorem test_rep_30_emulation_m_x_locked :
    after (.rep 0x30) { start true 0xFF [] with x := 0x0012, y := 0x0034 }
      (fun t => t.pc) = some 0x8002 := by decide

theorem test_sep_10_clears_xh_yh :
    after (.sep 0x10) { start false 0x00 [] with x := 0x1234, y := 0xABCD }
      (fun t => (t.x, t.y, t.p)) = some (0x0034, 0x00CD, 0x10) := by decide

theorem test_pea :
    after (.pea 0x1234) (start false 0x30 [])
      (fun t => (t.sp, t.mem.read 0x0001FF, t.mem.read 0x0001FE)) = some (0x01FD, 0x12, 0x34) := by decide

theorem test_pei_d_fff0_wraps_in_bank_0 :
    after (.pei 0x0F) { start false 0x30 [(0x00FFFF, 0x78), (0x000000, 0x56)] with d := 0xFFF0 }
      (fun t => (t.sp, t.mem.read 0x0001FF, t.mem.read 0x0001FE)) = some (0x01FD, 0x56, 0x78) := by decide

theorem test_per_negative :
    after (.per 0xFFFD) (start false 0x30 [])
      (fun t => (t.sp, t.mem.read 0x0001FF, t.mem.read 0x0001FE)) = some (0x01FD, 0x80, 0x00) := by decide

theorem test_pha_16_bit_s_wraps_at_0000 :
    after (.pha) { start false 0x00 [] with a := 0x1234, sp := 0x0000 }
      (fun t => (t.sp, t.mem.read 0x000000, t.mem.read 0x00FFFF)) = some (0xFFFE, 0x12, 0x34) := by decide

theorem test_phb :
    after (.phb) { start false 0x30 [] with db := 0x7E }
      (fun t => (t.sp, t.mem.read 0x0001FF)) = some (0x01FE, 0x7E) := by decide

theorem test_phd :
    after (.phd) { start false 0x30 [] with d := 0x2100 }
      (fun t => (t.sp, t.mem.read 0x0001FF, t.mem.read 0x0001FE)) = some (0x01FD, 0x21, 0x00) := by decide

theorem test_phk :
    after (.phk) { start false 0x30 [] with pb := 0xC0 }
      (fun t => (t.sp, t.mem.read 0x0001FF)) = some (0x01FE, 0xC0) := by decide

theorem test_php_native :
    after (.php) (start false 0xC3 [])
      (fun t => (t.sp, t.mem.read 0x0001FF)) = some (0x01FE, 0xC3) := by decide

theorem test_phx_16_bit :
    after (.phx) { start false 0x00 [] with x := 0xBEEF }
      (fun t => (t.sp, t.mem.read 0x0001FF, t.mem.read 0x0001FE)) = some (0x01FD, 0xBE, 0xEF) := by decide

theorem test_phy_8_bit :
    after (.phy) { start false 0x30 [] with y := 0x0042 }
      (fun t => (t.sp, t.mem.read 0x0001FF)) = some (0x01FE, 0x42) := by decide

theorem test_pla_emulation_stack_wraps_in_page_1 :
    after (.pla) { start true 0x30 [(0x000100, 0x80)] with a := 0x5500 }
      (fun t => (t.a, t.sp, t.p)) = some (0x5580, 0x0100, 0xB0) := by decide

theorem test_pla_16_bit :
    after (.pla) { start false 0x00 [(0x0001FE, 0x34), (0x0001FF, 0x92)] with sp := 0x01FD }
      (fun t => (t.a, t.sp, t.p)) = some (0x9234, 0x01FF, 0x80) := by decide

theorem test_plb :
    after (.plb) { start false 0x30 [(0x0001FF, 0x80)] with sp := 0x01FE }
      (fun t => (t.sp, t.db, t.p)) = some (0x01FF, 0x80, 0xB0) := by decide

theorem test_pld :
    after (.pld) { start false 0x30 [(0x0001FE, 0x00), (0x0001FF, 0x21)] with sp := 0x01FD }
      (fun t => (t.sp, t.d)) = some (0x01FF, 0x2100) := by decide

theorem test_plp_emulation_bits_5_4_stay :
    after (.plp) { start true 0x34 [(0x0001FF, 0x00)] with sp := 0x01FE }
      (fun t => (t.sp, t.p)) = some (0x01FF, 0x30) := by decide

theorem test_plx_16_bit :
    after (.plx) { start false 0x00 [(0x0001FE, 0x34), (0x0001FF, 0x12)] with sp := 0x01FD }
      (fun t => (t.x, t.sp)) = some (0x1234, 0x01FF) := by decide

theorem test_ply_8_bit :
    after (.ply) { start false 0x30 [(0x0001FF, 0x07)] with sp := 0x01FE }
      (fun t => (t.y, t.sp)) = some (0x0007, 0x01FF) := by decide

theorem test_tax_x8 :
    after (.tax) { start false 0x30 [] with a := 0x12FF }
      (fun t => (t.x, t.p)) = some (0x00FF, 0xB0) := by decide

theorem test_tay_m16_x8 :
    after (.tay) { start false 0x10 [] with a := 0x1200, y := 0x0055 }
      (fun t => (t.y, t.p)) = some (0x0000, 0x12) := by decide

theorem test_tcd :
    after (.tcd) { start false 0x30 [] with a := 0x8000 }
      (fun t => (t.d, t.p)) = some (0x8000, 0xB0) := by decide

theorem test_tcs_emulation :
    after (.tcs) { start true 0x30 [] with a := 0x1FF0 }
      (fun t => t.sp) = some 0x01F0 := by decide

theorem test_tdc_m8_ah_written :
    after (.tdc) { start false 0x30 [] with a := 0x1234 }
      (fun t => (t.a, t.p)) = some (0x0000, 0x32) := by decide

theorem test_tsc_emulation :
    after (.tsc) (start true 0x30 [])
      (fun t => t.a) = some 0x01FF := by decide

theorem test_tsx_x16 :
    after (.tsx) (start false 0x00 [])
      (fun t => t.x) = some 0x01FF := by decide

theorem test_txa_m8_x16_ah_kept :
    after (.txa) { start false 0x20 [] with a := 0x5555, x := 0x1280 }
      (fun t => (t.a, t.p)) = some (0x5580, 0xA0) := by decide

theorem test_tya_m8 :
    after (.tya) { start false 0x30 [] with a := 0x5500, y := 0x0080 }
      (fun t => (t.a, t.p)) = some (0x5580, 0xB0) := by decide

theorem test_txs_native_x8_sh_00 :
    after (.txs) { start false 0x30 [] with x := 0x0080 }
      (fun t => t.sp) = some 0x0080 := by decide

theorem test_txy_x16 :
    after (.txy) { start false 0x00 [] with x := 0x8001 }
      (fun t => (t.y, t.p)) = some (0x8001, 0x80) := by decide

theorem test_tyx_x8 :
    after (.tyx) { start false 0x30 [] with x := 0x0033 }
      (fun t => (t.x, t.p)) = some (0x0000, 0x32) := by decide

theorem test_xce_native_to_emu :
    after (.xce) { start false 0x01 [] with a := 0x9988, x := 0x1234, y := 0xABCD, sp := 0x1FF0 }
      (fun t => (t.e, t.x, t.y)) = some (true, 0x0034, 0x00CD) := by decide

theorem test_xce_emu_to_native :
    after (.xce) { start true 0x34 [] with x := 0x0012, sp := 0x01F0 }
      (fun t => (t.e, t.p)) = some (false, 0x35) := by decide

theorem test_xba :
    after (.xba) { start false 0x00 [] with a := 0x8000 }
      (fun t => (t.a, t.p)) = some (0x0080, 0x80) := by decide

theorem test_jmp_a :
    after (.jmpAbs 0x9000) { start false 0x30 [] with pb := 0x05 }
      (fun t => t.pc) = some 0x9000 := by decide

theorem test_jmp_a_pointer_at_00_ffff_wraps :
    after (.jmpAbsInd 0xFFFF) { start false 0x30 [(0x00FFFF, 0x34), (0x000000, 0x12)] with pb := 0x05 }
      (fun t => t.pc) = some 0x1234 := by decide

theorem test_jmp_a_x :
    after (.jmpAbsXInd 0x8000) { start false 0x00 [(0x028004, 0x00), (0x028005, 0xA0)]
        with x := 0x0004, pb := 0x02, pc := 0x9000 }
      (fun t => t.pc) = some 0xA000 := by decide

theorem test_jmp_al :
    after (.jmpAbsl 0x7E1234) (start false 0x30 [])
      (fun t => (t.pc, t.pb)) = some (0x1234, 0x7E) := by decide

theorem test_jml_a :
    after (.jml 0x1000) (start false 0x30 [(0x001000, 0x34), (0x001001, 0x12), (0x001002, 0x7E)])
      (fun t => (t.pc, t.pb)) = some (0x1234, 0x7E) := by decide

theorem test_jsr_a :
    after (.jsrAbs 0x9000) (start false 0x30 [])
      (fun t => (t.sp, t.pc, t.mem.read 0x0001FF, t.mem.read 0x0001FE)) =
        some (0x01FD, 0x9000, 0x80, 0x02) := by decide

theorem test_jsr_a_x :
    after (.jsrAbsXInd 0x9000) { start false 0x00 [(0x009002, 0x00), (0x009003, 0xA0)] with x := 0x0002 }
      (fun t => (t.sp, t.pc, t.mem.read 0x0001FF, t.mem.read 0x0001FE)) =
        some (0x01FD, 0xA000, 0x80, 0x02) := by decide

theorem test_jsl :
    after (.jsl 0x7E1234) { start false 0x30 [] with pb := 0x01 }
      (fun t => (t.sp, t.pc, t.pb, t.mem.read 0x0001FF, t.mem.read 0x0001FE, t.mem.read 0x0001FD)) =
        some (0x01FC, 0x1234, 0x7E, 0x01, 0x80, 0x03) := by decide

theorem test_rts_pulled_ffff :
    after (.rts) { start false 0x30 [(0x0001FE, 0xFF), (0x0001FF, 0xFF)]
        with sp := 0x01FD, pb := 0x03, pc := 0x9000 }
      (fun t => (t.sp, t.pc)) = some (0x01FF, 0x0000) := by decide

theorem test_rtl :
    after (.rtl) { start false 0x30 [(0x0001FD, 0x03), (0x0001FE, 0x80), (0x0001FF, 0x01)]
        with sp := 0x01FC, pb := 0x7E, pc := 0x1234 }
      (fun t => (t.sp, t.pc, t.pb)) = some (0x01FF, 0x8004, 0x01) := by decide

theorem test_rti_native_sets_x_xh_cleared :
    after (.rti) { start false 0x04 [(0x0001FC, 0x10), (0x0001FD, 0x02), (0x0001FE, 0x80), (0x0001FF, 0x01)]
        with x := 0x1234, sp := 0x01FB, pc := 0x9000 }
      (fun t => (t.x, t.sp, t.p, t.pc, t.pb)) = some (0x0034, 0x01FF, 0x10, 0x8002, 0x01) := by decide

theorem test_rti_emulation_pb_kept_bits_5_4 :
    after (.rti) { start true 0x34 [(0x0001FD, 0x00), (0x0001FE, 0x02), (0x0001FF, 0x03)]
        with sp := 0x01FC, pc := 0xC000 }
      (fun t => (t.sp, t.p, t.pc)) = some (0x01FF, 0x30, 0x0302) := by decide

theorem test_brk_native_d_set :
    after (.brk 0xEA) { start false 0xCB [(0x00FFE6, 0x00), (0x00FFE7, 0x90)] with pb := 0x01 }
      (fun t => (t.sp, t.p, t.pc, t.pb, t.mem.read 0x0001FF, t.mem.read 0x0001FE, t.mem.read 0x0001FD)) =
        some (0x01FB, 0xC7, 0x9000, 0x00, 0x01, 0x80, 0x02) := by decide

theorem test_brk_emulation :
    after (.brk 0x00) { start true 0x30 [(0x00FFFE, 0x00), (0x00FFFF, 0xC0)] with pc := 0x0300 }
      (fun t => (t.sp, t.p, t.pc, t.mem.read 0x0001FF, t.mem.read 0x0001FE, t.mem.read 0x0001FD)) =
        some (0x01FC, 0x34, 0xC000, 0x03, 0x02, 0x30) := by decide

theorem test_cop_native :
    after (.cop 0x55) { start false 0x08 [(0x00FFE4, 0x00), (0x00FFE5, 0xB0)] with sp := 0x1FFF, pb := 0x7E }
      (fun t => (t.sp, t.p, t.pc, t.pb, t.mem.read 0x001FFF, t.mem.read 0x001FFE, t.mem.read 0x001FFD)) =
        some (0x1FFB, 0x04, 0xB000, 0x00, 0x7E, 0x80, 0x02) := by decide

theorem test_mvn_first_byte :
    after (.mvn 0x7F 0x7E) { start false 0x00 [(0x7E1000, 0xAA), (0x7E1001, 0xBB)]
        with a := 0x0001, x := 0x1000, y := 0x2000 }
      (fun t => (t.a, t.x, t.y, t.pc, t.mem.read 0x7F2000)) =
        some (0x0000, 0x1001, 0x2001, 0x8000, 0xAA) := by decide

theorem test_mvp_single_byte :
    after (.mvp 0x00 0x00) { start false 0x00 [(0x001001, 0xCC)] with x := 0x1001, y := 0x2001, db := 0x55 }
      (fun t => (t.a, t.x, t.y, t.mem.read 0x002001)) = some (0xFFFF, 0x1000, 0x2000, 0xCC) := by decide

theorem test_stp :
    after (.stp) (start false 0x30 [])
      (fun t => t.run) = some .stopped := by decide

theorem test_wai_no_input :
    after (.wai) (start false 0x30 [])
      (fun t => t.run) = some .waiting := by decide

theorem test_nop_at_end_of_bank :
    after (.nop) { start false 0x30 [] with pb := 0x12, pc := 0xFFFF }
      (fun t => t.pc) = some 0x0000 := by decide

theorem test_lda_d_16_bit_operand_straddles_00 :
    after (.ldaDir 0xFF) { start false 0x00 [(0x00FFFF, 0x34), (0x000000, 0x12), (0x010000, 0x99)]
        with d := 0xFF00 }
      (fun t => t.a) = some 0x1234 := by decide

theorem test_lda_d_x_emulation_dl_0_page :
    after (.ldaDirX 0xF0) { start true 0x30 [(0x000110, 0x55), (0x000010, 0x44)] with x := 0x0020 }
      (fun t => t.a) = some 0x0044 := by decide

theorem test_lda_d_emulation_dl_0_pointer_at :
    after (.ldaDirInd 0xFF) (start true 0x30 [(0x0000FF, 0x00), (0x000100, 0x20), (0x000000, 0x30),
        (0x002000, 0x42), (0x003000, 0x43)])
      (fun t => t.a) = some 0x0043 := by decide

theorem test_lda_d_x_emulation_dl_0_index :
    after (.ldaDirXInd 0xFE) { start true 0x30 [(0x0000FF, 0x00), (0x000000, 0x30), (0x000100, 0x20),
        (0x002000, 0x42), (0x003000, 0x43)]
        with x := 0x0001 }
      (fun t => t.a) = some 0x0043 := by decide

theorem test_lda_d_y_from_ff_ffff_wraps :
    after (.ldaDirIndlY 0x10) { start false 0x30 [(0x000010, 0xFF), (0x000011, 0xFF), (0x000012, 0xFF),
        (0x000000, 0x42)]
        with y := 0x0001 }
      (fun t => t.a) = some 0x0042 := by decide

theorem test_lda_a_16_bit_at_db_ffff :
    after (.ldaAbs 0xFFFF) { start false 0x00 [(0x7EFFFF, 0x34), (0x7F0000, 0x12), (0x7E0000, 0x99)]
        with db := 0x7E }
      (fun t => t.a) = some 0x1234 := by decide

theorem test_lda_d_s_emulation_not_confined_to :
    after (.ldaSr 0x02) (start true 0x30 [(0x000201, 0x42), (0x000101, 0x43)])
      (fun t => t.a) = some 0x0042 := by decide

/-- Under WDM_POLICY = nop2 (log 7). -/
theorem test_wdm_takes_two_bytes :
    after (.wdm 0x00) (start false 0x30 []) (fun t => (t.p, t.pc)) = some (0x30, 0x8002) := by decide

/-! ## Steps (95_test_vectors.md section 3) -/

/-- A state with one sample of the inputs to come. -/
def given (reset irq nmi abort : Bool) (s : State) : State :=
  { s with inputs := [{ reset := reset, irq := irq, nmi := nmi, abort := abort }] }

theorem test_step_irq_native :
    stepped (given false true false false { start false 0x09 [(0x00FFEF, 0x90)] with pb := 0x12 })
      (fun t => (t.sp, t.p, t.pb, t.pc, t.mem.read 0x0001FF, t.mem.read 0x0001FC)) =
        some (0x01FB, 0x05, 0x00, 0x9000, 0x12, 0x09) := by decide

theorem test_step_irq_emulation :
    stepped (given false true false false (start true 0x39 [(0x00FFFF, 0xC0)]))
      (fun t => (t.sp, t.p, t.pc, t.mem.read 0x0001FD)) = some (0x01FC, 0x35, 0xC000, 0x29) := by decide

theorem test_step_nmi_before_irq :
    stepped (given false true true false (start false 0x00 [(0x00FFEB, 0xA0), (0x00FFEF, 0x90)]))
      (fun t => (t.pc, t.nmiPending)) = some (0xA000, false) := by decide

theorem test_step_masked_irq_runs_nop :
    stepped (given false true false false (start false 0x04 [(0x008000, 0xEA)]))
      (fun t => (t.pc, t.sp)) = some (0x8001, 0x01FF) := by decide

theorem test_step_wai_resumes_masked :
    stepped (given false true false false { start false 0x04 [] with run := .waiting })
      (fun t => (t.pc, t.run, t.sp)) = some (0x8000, .running, 0x01FF) := by decide

theorem test_step_stopped_ignores :
    stepped (given false true true true { start false 0x00 [] with run := .stopped })
      (fun t => (t.pc, t.run, t.nmiPending)) = some (0x8000, .stopped, false) := by decide

theorem test_step_reset_from_stopped :
    stepped (given true true true true { start false 0xF1 [(0x00FFFD, 0x80)] with run := .stopped, d := 0xFDA9 })
      (fun t => (t.e, t.d, t.pc, t.run)) = some (true, 0x0000, 0x8000, .running) := by decide

theorem test_step_straddles_bank_end :
    stepped { start false 0x30 [(0x01FFFE, 0xAD), (0x01FFFF, 0x00), (0x010000, 0x20), (0x002000, 0x42)] with
        pb := 0x01, pc := 0xFFFE } (fun t => (t.a, t.pb, t.pc)) = some (0x0042, 0x01, 0x0001) := by decide

theorem test_fetch_word_runs :
    stepped (State.reset.withFetchWord 16 0x7FA9) (fun t => (t.a, t.pc)) = some (0x007F, 0x0002) := by decide

theorem test_table_word : decodeTableWord 24 0x7F7E54 = some (.mvn 0x7E 0x7F) := by decide

/-! ## Witnesses: for every statement with hypotheses, operands and a state that meet them -/

/-- 16-bit accumulator and index registers, P all clear, E = 0. -/
def native16 : State := start false 0x00 []

/-- 8-bit registers, E = 0. -/
def native8 : State := start false 0x30 []

/-- E = 1. -/
def emulation : State := start true 0x34 []

theorem inv_native16 : native16.Inv where
  lockM := by decide
  lockX := by decide
  lockS := by decide
  xHigh := by decide
  yHigh := by decide
  memory := by decide

theorem inv_emulation : emulation.Inv where
  lockM := by decide
  lockX := by decide
  lockS := by decide
  xHigh := by decide
  yHigh := by decide
  memory := by decide

theorem witness_DecodeEncodeRoundTrip :
    Instr.wellFormed true true (.ldaImm 0x00FF) = true ∧ Instr.wellFormed false true (.ldaImm 0xFFFF) = true ∧
      Instr.wellFormed true false (.ldxImm 0xFFFF) = true ∧ Instr.wellFormed true true (.mvn 0xFF 0x00) = true := by
  decide

theorem witness_EncodeDecodeRoundTrip :
    4 ≤ [0x00, 0x00, 0x00, (0x00 : Byte)].length ∧ decode true true [0xA9, 0xFF] = .ok (.ldaImm 0x00FF, []) := by
  decide

theorem witness_StepRunsDecoded :
    let s := start false 0x00 [(0x008000, 0xEA)]
    s.run = .running ∧ s.sample.reset = false ∧ s.sample.abort = false ∧ s.sample.nmi = false ∧
      s.nmiPending = false ∧ (s.sample.irq = false ∨ s.flag .i = true) ∧
      Instr.wellFormed s.m8 s.x8 .nop = true ∧
      ∀ (k : Nat) (b : Byte), (encode s.m8 s.x8 .nop)[k]? = some b →
        s.mem.read (addressOf s.pb (s.pc + BitVec.ofNat 16 k)) = b := by
  refine ⟨by decide, by decide, by decide, by decide, by decide, by decide, by decide, ?_⟩
  intro k b h
  cases k with
  | zero => cases h; decide
  | succ k => cases h

theorem witness_StepRunsDecoded_masked_irq :
    let s := given false true false false (start true 0x34 [(0x008000, 0xA9), (0x008001, 0xFF)])
    s.sample.irq = true ∧ s.flag .i = true ∧ Instr.wellFormed s.m8 s.x8 (.ldaImm 0x00FF) = true ∧
      ∀ (k : Nat) (b : Byte), (encode s.m8 s.x8 (.ldaImm 0x00FF))[k]? = some b →
        s.mem.read (addressOf s.pb (s.pc + BitVec.ofNat 16 k)) = b := by
  refine ⟨by decide, by decide, by decide, ?_⟩
  intro k b h
  match k with
  | 0 => cases h; decide
  | 1 => cases h; decide
  | _ + 2 => cases h

theorem witness_StopsOnlyOnAbortOrOwnBytes_refused :
    let s := given false false false true native16
    s.sample.abort = true ∧ s.sample.reset = false ∧ s.run ≠ .stopped := by decide

theorem witness_StopsOnlyOnAbortOrOwnBytes_next :
    native16.sample.abort = false ∧ (given true false false true native16).sample.reset = true ∧
      { native16 with run := .stopped }.run = .stopped := by decide

theorem witness_StopsOnlyOnAbortOrOwnBytes_exec :
    ¬OverwritesOwnBytes native16 .nop ∧ ¬OverwritesOwnBytes native16 (.jsrAbs 0x9000) ∧
      OverwritesOwnBytes { native16 with sp := 0x8003 } (.jsrAbs 0x9000) := by decide

theorem witness_ResetTransition :
    (given true false false false { native16 with run := .stopped, nmiPending := true }).sample.reset = true := by
  decide

theorem witness_StepKeepsInv : State.reset.Inv ∧ ∃ t, step State.reset = .next t :=
  ⟨⟨by decide, by decide, by decide, by decide, by decide, by decide⟩, _, rfl⟩

theorem witness_ControlRegisterWriters :
    (∃ t, exec .tcd native16 = .next t) ∧ Instr.tcd ≠ .xce ∧ loadsDataBank .tcd = false ∧
      loadsBank .tcd = false ∧ setsRun .tcd = false ∧ Instr.xce ≠ .tcd ∧ Instr.xce ≠ .pld :=
  ⟨⟨_, rfl⟩, by decide, rfl, rfl, rfl, by decide, by decide⟩

/-- PHK stores one byte, at 00:01FF. -/
theorem witness_StoresOnlyWhereStated :
    (∃ t, exec .phk native16 = .next t) ∧ ¬StoresAt native16 .phk 0x000200 := by
  refine ⟨⟨_, rfl⟩, ?_⟩
  generalize hi : Instr.phk = i
  intro h
  generalize ha : (0x000200 : Address) = a at h
  cases h with
  | sta f => cases f <;> cases hi
  | stx f => cases f <;> cases hi
  | sty f => cases f <;> cases hi
  | rmw f i a h =>
    cases hi
    cases f <;> simp [RmwForm.asl, RmwForm.dec, RmwForm.inc, RmwForm.lsr, RmwForm.rol, RmwForm.ror,
      RmwForm.stz] at h
  | test f i a h => cases hi; cases f <;> simp [TestForm.trb, TestForm.tsb] at h
  | pushX i a h => cases hi; simp at h
  | pushByte i h => revert ha; decide
  | move d s i h => cases hi; simp at h
  | _ => cases hi

theorem witness_MemoryReadsLastWrite :
    Memory.wf [(0x000000, 0x01), (0xFFFFFF, 0xFF)] ∧ Memory.wf [] := by decide

theorem witness_DirectModeAddresses_pointer :
    let s := { emulation with d := 0x00FF, x := 0x0001 }
    ¬(s.e = true ∧ s.d.toNat % 256 ≠ 0 ∧ (s.d.toNat + (0x00 : Byte).toNat + s.x.toNat) % 256 = 255) := by decide

theorem witness_DirectModeAddresses_corner :
    let s := { emulation with d := 0x00FE, x := 0x0001 }
    ¬(s.e = true ∧ s.d.toNat % 256 = 0) ∧
      s.e = true ∧ s.d.toNat % 256 ≠ 0 ∧ (s.d.toNat + (0x00 : Byte).toNat + s.x.toNat) % 256 = 255 := by decide

theorem witness_AdcBinary : native16.flag .d = false := by decide

theorem witness_SbcBinary : native8.flag .d = false := by decide

/-- 99 and 1 in 8 bits. -/
theorem witness_AdcDecimal :
    let s := { start false 0x38 [] with a := 0x0099 }
    let w := s.width .m
    s.flag .d = true ∧ 99 < 10 ^ (w.bits / 4) ∧ 1 < 10 ^ (w.bits / 4) ∧
      lowPart w s.a = BitVec.ofNat w.bits (bcdSpell (w.bits / 4) 99) ∧
      (AccForm.imm 0x0001).source.value w s = BitVec.ofNat w.bits (bcdSpell (w.bits / 4) 1) := by decide

/-- 0 and 9999 in 16 bits. -/
theorem witness_SbcDecimal :
    let s := start false 0x08 []
    let w := s.width .m
    s.flag .d = true ∧ 0 < 10 ^ (w.bits / 4) ∧ 9999 < 10 ^ (w.bits / 4) ∧
      lowPart w s.a = BitVec.ofNat w.bits (bcdSpell (w.bits / 4) 0) ∧
      (AccForm.imm 0x9999).source.value w s = BitVec.ofNat w.bits (bcdSpell (w.bits / 4) 9999) := by decide

theorem witness_DecimalAnyOperand : (start true 0x3C []).flag .d = true := by decide

theorem witness_PushWord :
    ¬(native16.e = true ∧ loByte native16.sp = 0x00) ∧
      ¬({ emulation with sp := 0x0101 }.e = true ∧ loByte { emulation with sp := 0x0101 }.sp = 0x00) := by decide

theorem witness_EmulationPushesStayInPageOne :
    emulation.Inv ∧ emulation.e = true ∧
      Instr.phk ∈ [Instr.pha, .phx, .phy, .phb, .phk, .php] ∧
      (∃ t, exec .phk emulation = .next t) ∧ ¬(0x0100 ≤ (0x000200 : Address).toNat ∧
        (0x000200 : Address).toNat ≤ 0x01FF) ∧ ¬(0x0100 ≤ (0x0000FF : Address).toNat) :=
  ⟨inv_emulation, rfl, by decide, ⟨_, rfl⟩, by decide, by decide⟩

theorem witness_PullRegister :
    native8.m8 = true ∧ native16.m8 = false ∧ native8.x8 = true ∧ native16.x8 = false := by decide

theorem witness_PullBankAndDirect :
    let s := { emulation with sp := 0x01FE }
    let t := { emulation with sp := 0x01FD }
    ¬(s.e = true ∧ loByte s.sp = 0xFF) ∧ ¬(t.e = true ∧ 0xFE#8 ≤ loByte t.sp) := by decide

theorem witness_ExchangeCarryEmulation :
    native16.flag .c = false ∧ (start false 0x01 []).flag .c = true := by decide

theorem witness_Calls :
    let s := { emulation with sp := 0x0101 }
    let t := { emulation with sp := 0x0102 }
    ¬(s.e = true ∧ loByte s.sp = 0x00) ∧ ¬(t.e = true ∧ loByte t.sp ≤ 0x01#8) ∧
      ¬OverwritesOwnBytes s (.jsrAbs 0x9000) ∧ ¬OverwritesOwnBytes s (.jsrAbsXInd 0x9000) ∧
      ¬OverwritesOwnBytes t (.jsl 0x7E1234) := by decide

/-- The lowest and the highest S whose pushes land on the call, and those next to them, which do not. -/
theorem witness_Calls_own_bytes :
    let at' (sp : Word) : State := { native16 with sp := sp }
    OverwritesOwnBytes (at' 0x8000) (.jsrAbs 0x9000) ∧ OverwritesOwnBytes (at' 0x8003) (.jsrAbs 0x9000) ∧
      ¬OverwritesOwnBytes (at' 0x7FFF) (.jsrAbs 0x9000) ∧ ¬OverwritesOwnBytes (at' 0x8004) (.jsrAbs 0x9000) ∧
      OverwritesOwnBytes (at' 0x8005) (.jsl 0x7E1234) ∧ ¬OverwritesOwnBytes (at' 0x8006) (.jsl 0x7E1234) ∧
      OverwritesOwnBytes (at' 0x9002) (.jsrAbsXInd 0x9000) ∧
      ¬OverwritesOwnBytes (at' 0x9003) (.jsrAbsXInd 0x9000) := by decide

theorem witness_SubroutineReturns :
    let s := { emulation with sp := 0x01FC }
    ¬(s.e = true ∧ 0xFD#8 ≤ loByte s.sp) := by decide

theorem witness_HardwareInterrupts_nmi :
    let s := { given false true false false { native16 with run := .waiting } with nmiPending := true }
    let t := given false true true false emulation
    s.run ≠ .stopped ∧ s.sample.reset = false ∧ s.sample.abort = false ∧ s.nmiPending = true ∧
      t.run ≠ .stopped ∧ t.sample.reset = false ∧ t.sample.abort = false ∧ t.sample.nmi = true := by decide

theorem witness_HardwareInterrupts_irq :
    let s := given false true false false native16
    s.run ≠ .stopped ∧ s.sample.reset = false ∧ s.sample.abort = false ∧ s.nmiPending = false ∧
      s.sample.nmi = false ∧ s.sample.irq = true ∧ s.flag .i = false := by decide

theorem witness_WaitingAndStoppedSteps_stopped :
    let s := given false true true true { native16 with run := .stopped }
    s.sample.reset = false ∧ s.run = .stopped := by decide

theorem witness_WaitingAndStoppedSteps_waiting :
    let s := { native16 with run := .waiting }
    let t := given false true false false { emulation with run := .waiting }
    s.sample.reset = false ∧ s.run = .waiting ∧ s.sample.abort = false ∧ s.sample.nmi = false ∧
      s.nmiPending = false ∧ s.sample.irq = false ∧
      t.sample.reset = false ∧ t.run = .waiting ∧ t.sample.abort = false ∧ t.sample.nmi = false ∧
      t.nmiPending = false ∧ t.sample.irq = true ∧ t.flag .i = true := by decide

theorem witness_CallThenReturn :
    native16.Inv ∧ ¬(native16.e = true ∧ loByte native16.sp < 0x03#8) ∧
      ¬OverwritesOwnBytes native16 (.jsrAbs 0x9000) ∧ ¬OverwritesOwnBytes native16 (.jsl 0x7E1234) :=
  ⟨inv_native16, by decide, by decide, by decide⟩

/-- With E = 1, at the lowest SL of the second clause. -/
theorem witness_CallThenReturn_emulation :
    let s := { emulation with sp := 0x0103 }
    s.Inv ∧ ¬(s.e = true ∧ loByte s.sp < 0x03#8) ∧ ¬OverwritesOwnBytes s (.jsl 0x7E1234) :=
  ⟨⟨by decide, by decide, by decide, by decide, by decide, by decide⟩, by decide, by decide⟩

theorem witness_InterruptThenReturn :
    let s := given false true false false native16
    s.Inv ∧ s.run ≠ .stopped ∧ s.sample.reset = false ∧ s.sample.abort = false ∧
      (s.nmiPending = true ∨ s.sample.nmi = true ∨ (s.sample.irq = true ∧ s.flag .i = false)) :=
  ⟨⟨by decide, by decide, by decide, by decide, by decide, by decide⟩, by decide, by decide, by decide, by decide⟩

/-- With E = 1 and I = 1, by an NMI edge. -/
theorem witness_InterruptThenReturn_nmi :
    let s := given false false true false emulation
    s.Inv ∧ s.run ≠ .stopped ∧ s.sample.reset = false ∧ s.sample.abort = false ∧ s.sample.nmi = true :=
  ⟨⟨by decide, by decide, by decide, by decide, by decide, by decide⟩, by decide, by decide, by decide, by decide⟩

/-- At 16-bit index registers, with A = $FFFF: 65536 bytes. -/
theorem witness_WholeBlockMove :
    let s := { native16 with a := 0xFFFF, x := 0xFFFF }
    (0x7F : Byte) ≠ 0x7E ∧ (s.width .x = .w8 → hiByte s.x = 0x00 ∧ hiByte s.y = 0x00) := by decide

/-- At 8-bit index registers. -/
theorem witness_WholeBlockMove_narrow :
    let s := { native8 with a := 0x0100, x := 0x00FF }
    (0x7F : Byte) ≠ 0x7E ∧ s.width .x = .w8 ∧ hiByte s.x = 0x00 ∧ hiByte s.y = 0x00 := by decide

/-! ## Calls that push onto bytes they obtain (93_implementation_defined.md U9) -/

/-- Whether an instruction is refused for its own bytes. -/
def refusesOwnBytes (i : Instr) (s : State) : Bool :=
  match exec i s with
  | .next _ => false
  | .fault _ => false
  | .refused r => decide (r = .ownBytesOverwritten)

theorem test_jsr_onto_itself :
    refusesOwnBytes (.jsrAbs 0x9000) { native16 with sp := 0x8002 } = true ∧
      refusesOwnBytes (.jsrAbs 0x9000) { native16 with sp := 0x8002, pb := 0x01 } = false := by decide

theorem test_jsl_onto_itself :
    refusesOwnBytes (.jsl 0x7E1234) { native16 with sp := 0x8003 } = true ∧
      refusesOwnBytes (.jsl 0x7E1234) { native16 with sp := 0x8006 } = false := by decide

theorem test_jsr_onto_its_pointer :
    refusesOwnBytes (.jsrAbsXInd 0x9000) { native16 with x := 0x0010, sp := 0x9011 } = true ∧
      refusesOwnBytes (.jsrAbsXInd 0x9000) { native16 with x := 0x0010, sp := 0x900F } = false := by decide

/-! ## Memory maps other than the default -/

/-- RAM in 00:0000 to 00:1FFF, shown again in the rest of bank 00 below ROM at 00:8000; nothing in bank 01. -/
def console : MemoryMap :=
  [⟨0x2000, 0x6000, .mirror 0x0000 0x2000⟩, ⟨0x8000, 0x8000, .rom⟩, ⟨0x10000, 0x10000, .unpopulated⟩]

theorem test_map_mirror_reads_target :
    (Memory.writeIn console [] 0x000010 0x42).readIn console 0x006010 = 0x42 := by decide

theorem test_map_mirror_writes_target :
    (Memory.writeIn console [] 0x007FFF 0x42).readIn console 0x001FFF = 0x42 := by decide

theorem test_map_rom_ignores_write : Memory.writeIn console [(0x8000, 0x99)] 0x008000 0x42 = [(0x8000, 0x99)] := by
  decide

theorem test_map_unpopulated (v : Byte) :
    (Memory.writeIn console [] 0x01FFFF v).readIn console 0x01FFFF = Config.unpopulatedByte 0x01FFFF := rfl

theorem test_map_past_last_region :
    (Memory.writeIn console [] 0x020000 0x42).readIn console 0x020000 = 0x42 := by decide

/-- Each kind of region at its first or last address, and a mirror whose target is memory. -/
theorem witness_MemoryMapAccess :
    (0x8000 ≤ (0x00FFFF : Address).toNat ∧ (0x00FFFF : Address).toNat < 0x8000 + 0x8000) ∧
      (0x10000 ≤ (0x010000 : Address).toNat ∧ (0x010000 : Address).toNat < 0x10000 + 0x10000) ∧
      (0x2000 ≤ (0x007FFF : Address).toNat ∧ (0x007FFF : Address).toNat < 0x2000 + 0x6000) ∧
      (0x001FFF : Address).toNat = (0x0000 + ((0x007FFF : Address).toNat - 0x2000) % 0x2000) % 2 ^ 24 ∧
      backing console (0x001FFF : Address).toNat ≠ .nothing ∧ Memory.wf [(0x8000, 0x99)] := by decide

end Sys2Proof.Tests
end

section
/-! PROOFS. The statements of 00_scope.md: the widths that E, P.M and P.X select and the writes of half registers
(R7, R8), and the plain pushes, which stay in page $01 while E = 1 (R11). -/

namespace Sys2Proof.Machine

/-! ## Widths and halves -/

/-- `m8` in the terms of E and P (00_scope.md R8). -/
theorem m8_iff (s : State) : s.m8 = true ↔ s.e = true ∨ s.p.getLsbD 5 = true := by
  rw [State.m8, Bool.or_eq_true]; rfl

/-- `x8` in the terms of E and P (00_scope.md R8). -/
theorem x8_iff (s : State) : s.x8 = true ↔ s.e = true ∨ s.p.getLsbD 4 = true := by
  rw [State.x8, Bool.or_eq_true]; rfl

/-- A write at 8 bits replaces the low byte (00_scope.md R7). -/
@[simp] theorem loByte_putLow_w8 (r : Word) (v : Byte) : loByte (putLow .w8 r v) = v := loByte_word16 v _

/-- A write at 8 bits keeps the high byte (00_scope.md R7). -/
@[simp] theorem hiByte_putLow_w8 (r : Word) (v : Byte) : hiByte (putLow .w8 r v) = hiByte r := hiByte_word16 v _

/-- A write at 16 bits replaces all of a register. -/
@[simp] theorem putLow_w16 (r v : Word) : putLow .w16 r v = v := rfl

/-! ## The plain pushes -/

/-- From `s` to `t` memory has changed by one push of some bytes under the lock per byte, and by nothing else. -/
def PushedPlain (s t : State) : Prop := ∃ vs : List Byte, t.mem = (s.pushAll .perByte vs).mem

theorem pushedPlain_pushByte {v : Byte} {s t : State} (h : pushByte v s = .next t) : PushedPlain s t := by
  cases h
  exact ⟨[v], rfl⟩

theorem pushedPlain_pushReg {w : Width} {r : Word} {s t : State} (h : pushReg w r s = .next t) :
    PushedPlain s t := by
  cases w with
  | w8 => cases h; exact ⟨[loByte r], rfl⟩
  | w16 => cases h; exact ⟨wordBytes r, rfl⟩

theorem pushedPlain_enter (kind : InterruptKind) (ret : Word) (s : State) : PushedPlain s (enter kind ret s) :=
  ⟨entryFrame kind ret s, by rw [enter_eq]⟩

theorem pushedPlain_execJsrAbs {a : Word} {s t : State} (h : execJsrAbs a s = .next t) : PushedPlain s t := by
  rw [execJsrAbs_eq] at h
  split at h
  · cases h
  · cases h; exact ⟨wordBytes (s.pc + 2), by dsimp only⟩

/-- PHA, PHX, PHY, PHB, PHK and PHP change memory by a plain push alone (43_table6_push_pull.md R183 to R189). -/
theorem pushedPlain_exec_push {i : Instr} {s t : State} (hi : i ∈ [Instr.pha, .phx, .phy, .phb, .phk, .php])
    (h : exec i s = .next t) : PushedPlain s t := by
  simp only [List.mem_cons, List.not_mem_nil, or_false] at hi
  rcases hi with rfl | rfl | rfl | rfl | rfl | rfl
  · exact pushedPlain_pushReg h
  · exact pushedPlain_pushReg h
  · exact pushedPlain_pushReg h
  · exact pushedPlain_pushByte h
  · exact pushedPlain_pushByte h
  · exact pushedPlain_pushByte h

/-- With E = 1 a plain push leaves every byte outside page $01 as it was (00_scope.md R11, 20_memory.md R58). -/
theorem PushedPlain.read_outside_page {s t : State} (h : PushedPlain s t) (hs : s.Inv) (he : s.e = true)
    {a : Address} (ha : ¬(0x0100 ≤ a.toNat ∧ a.toNat ≤ 0x01FF)) : t.mem.read a = s.mem.read a := by
  obtain ⟨vs, hmem⟩ := h
  rw [hmem]
  exact pushAll_perByte_page vs s he (hs.lockS he) a ha

/-! ## The statements -/

/-- Settles O39: each of the instructions changes memory by one plain push, whose bytes all land in page $01. -/
theorem emulationPushesStayInPageOne : Obligations.EmulationPushesStayInPageOne := by
  intro i s t hs he hi h a ha
  have hpush : PushedPlain s t := by
    rcases hi with ⟨v, rfl⟩ | ⟨sig, rfl | rfl⟩ | hi
    · exact pushedPlain_execJsrAbs h
    · cases h; exact pushedPlain_enter .brk (s.pc + 2) s
    · cases h; exact pushedPlain_enter .cop (s.pc + 2) s
    · exact pushedPlain_exec_push hi h
  exact hpush.read_outside_page hs he ha

/-- Settles O13, from what `m8`, `x8` and a write of a half register are. -/
theorem widthsAndHalves : Obligations.WidthsAndHalves := by
  refine ⟨fun s => ⟨?_, ?_⟩, fun r v => ⟨loByte_putLow_w8 r v, hiByte_putLow_w8 r v⟩, putLow_w16⟩
  · simp only [width_m, m8_iff]
  · simp only [width_x, x8_iff]

end Sys2Proof.Machine
end

section
/-! PROOFS. The statements of 10_state.md: the state after reset (R42), who writes the control registers (R26, R27,
R32, R39, R40), and the invariant of R44, which every step keeps. -/

namespace Sys2Proof.Machine

/-! ## The invariant -/

/-- The state after reset meets the invariant (10_state.md R42, R44). -/
theorem inv_reset : State.reset.Inv where
  lockM _ := rfl
  lockX _ := rfl
  lockS _ := rfl
  xHigh _ := rfl
  yHigh _ := rfl
  memory := wf_nil

/-- What leaves the control registers alone keeps the invariant. -/
theorem SameControl.inv {s t : State} (g : SameControl s t) (hs : s.Inv) : t.Inv where
  lockM he := by rw [g.m]; exact hs.lockM (g.e ▸ he)
  lockX he := by rw [g.fx]; exact hs.lockX (g.e ▸ he)
  lockS he := by rw [g.sp]; exact hs.lockS (g.e ▸ he)
  xHigh hx := by rw [g.fx] at hx; rw [g.x (.inr hx)]; exact hs.xHigh hx
  yHigh hx := by rw [g.fx] at hx; rw [g.y (.inr hx)]; exact hs.yHigh hx
  memory := by rw [g.mem]; exact hs.memory

/-- With E = 1 the byte that `WriteP` leaves has M and X set (10_state.md R37). -/
theorem statusAfter_locked {e : Bool} (v : Byte) (he : e = true) :
    (statusAfter e v).getLsbD 5 = true ∧ (statusAfter e v).getLsbD 4 = true := by
  simp [statusAfter, he]

/-- An index register as `WriteP` leaves it has a clear high byte while P.X is 1 (10_state.md R34, R37). -/
theorem hiByte_indexAfter {q : Byte} (r : Word) (hq : q.getLsbD 4 = true) : hiByte (indexAfter q r) = 0x00 := by
  rw [indexAfter, if_pos hq, hiByte_word16]

/-- `WriteP` keeps the invariant (10_state.md R37). -/
theorem State.Inv.writeP {s : State} (hs : s.Inv) (v : Byte) : (s.writeP v).Inv := by
  rw [writeP_spec]
  exact
    { hs with
      lockM := fun he => (statusAfter_locked v he).1
      lockX := fun he => (statusAfter_locked v he).2
      xHigh := hiByte_indexAfter s.x
      yHigh := hiByte_indexAfter s.y }

/-- Taking an interrupt keeps the invariant (60_exceptions.md R256). -/
theorem State.Inv.enter {s : State} (hs : s.Inv) (kind : InterruptKind) (ret : Word) :
    (enter kind ret s).Inv := by
  have hflags : SameControl s ((s.setFlag .i true).setFlag .d false) :=
    ((SameControl.refl s).setFlag .i true (by decide) (by decide)).setFlag .d false (by decide) (by decide)
  rw [enter_eq]
  exact
    { hflags.inv hs with
      lockS := hiByte_movedStack s.sp _
      memory := pushAll_wf _ _ s hs.memory }

/-- Reset() establishes the locks, and memory stays as it was (70_reset_and_hazards.md R280). -/
theorem State.Inv.resetSequence {s : State} (hs : s.Inv) : (resetSequence s).Inv where
  lockM _ := by simp [Machine.resetSequence, State.flag, Flag.bit]
  lockX _ := by simp [Machine.resetSequence, State.flag, Flag.bit]
  lockS _ := hiByte_word16 _ _
  xHigh _ := hiByte_word16 _ _
  yHigh _ := hiByte_word16 _ _
  memory := hs.memory

/-- Taking the sample of the inputs keeps the invariant (60_exceptions.md R254). -/
theorem State.Inv.latch {s : State} (hs : s.Inv) : s.latch.Inv := { hs with }

/-- The locks that XCE establishes when the new E is 1 give the invariant (44_table6_transfer.md R212). -/
theorem inv_enterEmulation {s : State} (hmem : s.mem.wf) : (enterEmulation s).Inv where
  lockM _ := by simp [enterEmulation, State.lockStack, State.clearIndexHigh, State.flag]
  lockX _ := by simp [enterEmulation, State.lockStack, State.clearIndexHigh, State.flag]
  lockS := hiByte_lockPage _
  xHigh _ := hiByte_word16 _ _
  yHigh _ := hiByte_word16 _ _
  memory := hmem

/-- E = 0 locks nothing (44_table6_transfer.md R212). -/
theorem State.Inv.withNative {s : State} (hs : s.Inv) {b : Bool} (hb : ¬b = true) :
    State.Inv { s with e := b } :=
  { hs with
    lockM := fun he => absurd he hb
    lockX := fun he => absurd he hb
    lockS := fun he => absurd he hb }

/-- While P.X is 1 the index registers are 8 bits wide (00_scope.md R8). -/
theorem width_x_of_flag {s : State} (hx : s.flag .x = true) : s.width .x = .w8 := by
  rw [width_x, if_pos]
  rw [State.x8, hx, Bool.or_true]

/-! ## What an instruction may write

`ExecFrame i s t` says of two states what 10_state.md lets the instruction `i` change between them. It is carried
through one operation of the state at a time. -/

/-- From `s` to `t` only the control registers that `i` writes have changed, and the invariant is kept. -/
structure ExecFrame (i : Instr) (s t : State) : Prop where
  e : i ≠ .xce → t.e = s.e
  d : i ≠ .tcd ∧ i ≠ .pld → t.d = s.d
  db : loadsDataBank i = false → t.db = s.db
  pb : loadsBank i = false → t.pb = s.pb
  run : setsRun i = false → t.run = s.run
  nmiPending : t.nmiPending = s.nmiPending
  inputs : t.inputs = s.inputs
  draws : t.draws = s.draws
  inv : s.Inv → t.Inv

namespace ExecFrame

variable {i : Instr} {s t u : State}

theorem refl (i : Instr) (s : State) : ExecFrame i s s :=
  ⟨fun _ => rfl, fun _ => rfl, fun _ => rfl, fun _ => rfl, fun _ => rfl, rfl, rfl, rfl, id⟩

/-- An effect on A, PC, the arithmetic flags and unlocked index bytes. -/
theorem same (g : ExecFrame i s t) (h : SameControl t u) : ExecFrame i s u where
  e hi := h.e.trans (g.e hi)
  d hi := h.d.trans (g.d hi)
  db hi := h.db.trans (g.db hi)
  pb hi := h.pb.trans (g.pb hi)
  run hi := h.run.trans (g.run hi)
  nmiPending := h.nmiPending.trans g.nmiPending
  inputs := h.inputs.trans g.inputs
  draws := h.draws.trans g.draws
  inv hs := h.inv (g.inv hs)

theorem ofSame (i : Instr) (h : SameControl s t) : ExecFrame i s t := (refl i s).same h

theorem setPc (g : ExecFrame i s t) (v : Word) : ExecFrame i s { t with pc := v } :=
  { g with inv := fun hs => { g.inv hs with } }

theorem advance (g : ExecFrame i s t) (len : Word) : ExecFrame i s (t.advance len) := g.setPc _

theorem setD (g : ExecFrame i s t) (v : Word) (hi : ¬(i ≠ .tcd ∧ i ≠ .pld)) :
    ExecFrame i s { t with d := v } :=
  { g with d := fun h => absurd h hi, inv := fun hs => { g.inv hs with } }

theorem setDb (g : ExecFrame i s t) (v : Byte) (hi : loadsDataBank i = true) : ExecFrame i s { t with db := v } :=
  { g with db := fun h => absurd h (by rw [hi]; decide), inv := fun hs => { g.inv hs with } }

theorem setPb (g : ExecFrame i s t) (v : Byte) (hi : loadsBank i = true) : ExecFrame i s { t with pb := v } :=
  { g with pb := fun h => absurd h (by rw [hi]; decide), inv := fun hs => { g.inv hs with } }

/-- A long jump writes PC and PB. -/
theorem jump (g : ExecFrame i s t) (v : Word) (b : Byte) (hi : loadsBank i = true) :
    ExecFrame i s { t with pc := v, pb := b } := (g.setPc v).setPb b hi

theorem setRun (g : ExecFrame i s t) (v : RunState) (hi : setsRun i = true) : ExecFrame i s { t with run := v } :=
  { g with run := fun h => absurd h (by rw [hi]; decide), inv := fun hs => { g.inv hs with } }

theorem setMem (g : ExecFrame i s t) {m : Memory} (hm : t.mem.wf → m.wf) : ExecFrame i s { t with mem := m } :=
  { g with inv := fun hs => { g.inv hs with memory := hm (g.inv hs).memory } }

/-- S written under the lock of E (10_state.md R33). -/
theorem setSp (g : ExecFrame i s t) (v : Word) : ExecFrame i s { t with sp := lockPage t.e v } :=
  { g with inv := fun hs => { g.inv hs with lockS := hiByte_lockPage v } }

theorem writeP (g : ExecFrame i s t) (v : Byte) : ExecFrame i s (t.writeP v) where
  e hi := (writeP_e t v).trans (g.e hi)
  d hi := (writeP_d t v).trans (g.d hi)
  db hi := (writeP_db t v).trans (g.db hi)
  pb hi := (writeP_pb t v).trans (g.pb hi)
  run hi := (writeP_run t v).trans (g.run hi)
  nmiPending := (writeP_nmiPending t v).trans g.nmiPending
  inputs := (writeP_inputs t v).trans g.inputs
  draws := (writeP_draws t v).trans g.draws
  inv hs := (g.inv hs).writeP v

/-! ### The stack -/

theorem push (g : ExecFrame i s t) (v : Byte) : ExecFrame i s (t.push .perByte v) :=
  (g.setMem (wf_write _ v)).setSp _

theorem pushAll (g : ExecFrame i s t) (vs : List Byte) : ExecFrame i s (t.pushAll .perByte vs) := by
  induction vs generalizing t with
  | nil => exact g
  | cons v vs ih => exact ih (g.push v)

/-- A push under either lock and the lock at the instruction's end (93_implementation_defined.md U6). -/
theorem pushAll_lockStack (g : ExecFrame i s t) (lock : StackLock) (vs : List Byte) :
    ExecFrame i s (t.pushAll lock vs).lockStack := by
  rw [State.lockStack, pushAll_e, pushAll_eq]
  exact (g.setMem (pushAll_wf lock vs t)).setSp _

theorem pull8 (g : ExecFrame i s t) : ExecFrame i s (t.pull8 .perByte).2 := g.setSp _

theorem pull16 (g : ExecFrame i s t) : ExecFrame i s (t.pull16 .perByte).2 := g.setSp _

theorem pull8_lockStack (g : ExecFrame i s t) (lock : StackLock) :
    ExecFrame i s (t.pull8 lock).2.lockStack := g.setSp _

theorem pull16_lockStack (g : ExecFrame i s t) (lock : StackLock) :
    ExecFrame i s (t.pull16 lock).2.lockStack := g.setSp _

/-! ### The shared meanings of instructions -/

theorem readInstr {sel : Selector} {f : (w : Width) → BitVec w.bits → State → State} {addr : Addr}
    (hf : ∀ m, SameControl s (f (s.width sel) m s)) (h : readInstr sel f addr s = .next t) : ExecFrame i s t := by
  cases h; exact (ofSame i (hf _)).advance _

theorem immInstr {sel : Selector} {f : (w : Width) → BitVec w.bits → State → State} {imm : Word}
    (hf : ∀ m, SameControl s (f (s.width sel) m s)) (h : immInstr sel f imm s = .next t) : ExecFrame i s t := by
  cases h; exact (ofSame i (hf _)).advance _

theorem storeInstr {sel : Selector} {v : Word} {addr : Addr} (h : storeInstr sel v addr s = .next t) :
    ExecFrame i s t := by
  cases h; exact ((refl i s).setMem (writeOp_wf _ _ _)).advance _

theorem modifyInstr {f : (w : Width) → BitVec w.bits → State → BitVec w.bits × State} {addr : Addr}
    (hf : ∀ b, SameControl s (f (s.width .m) b s).2) (h : modifyInstr f addr s = .next t) : ExecFrame i s t := by
  cases h
  have hmem := (hf (s.operand addr (s.width .m))).mem
  exact ((ofSame i (hf _)).setMem (fun hm => writeBack_wf _ _ _ (hmem ▸ hm))).advance _

theorem modifyAcc {f : (w : Width) → BitVec w.bits → State → BitVec w.bits × State}
    (hf : ∀ b, SameControl s (f (s.width .m) b s).2) (h : modifyAcc f s = .next t) : ExecFrame i s t := by
  cases h; exact (ofSame i ((hf _).setA _)).advance _

theorem branchIf {c : Bool} {r : Byte} (h : branchIf c r s = .next t) : ExecFrame i s t := by
  cases h
  split
  · exact (refl i s).setPc _
  · exact (refl i s).advance 2

theorem flagInstr {f : Flag} {b : Bool} (hm : f ≠ .m) (hx : f ≠ .x) (h : flagInstr f b s = .next t) :
    ExecFrame i s t := by
  cases h; exact (ofSame i ((SameControl.refl s).setFlag f b hm hx)).advance 1

theorem pushReg {w : Width} {r : Word} (h : pushReg w r s = .next t) : ExecFrame i s t := by
  cases w with
  | w8 => cases h; exact ((refl i s).push _).advance 1
  | w16 => cases h; exact ((refl i s).pushAll _).advance 1

theorem pushByte {v : Byte} (h : pushByte v s = .next t) : ExecFrame i s t := by
  cases h; exact ((refl i s).push v).advance 1

theorem pushNewWord {op : NewStackOp} {v len : Word} (h : pushNewWord op v len s = .next t) :
    ExecFrame i s t := by
  cases h; exact ((refl i s).pushAll_lockStack _ _).advance len

theorem pullReg {sel : Selector} {f : (w : Width) → BitVec w.bits → State → State}
    (hf : ∀ (u : State) (m : BitVec (u.width sel).bits), SameControl u (f (u.width sel) m u))
    (h : pullReg sel f s = .next t) : ExecFrame i s t := by
  rw [Machine.pullReg] at h
  split at h
  · next hw =>
    have hf := hf (s.pull8 .perByte).2
    rw [width_congr (pull8_p s _) (pull8_e s _), hw] at hf
    cases h; exact ((refl i s).pull8.same (hf _)).advance 1
  · next hw =>
    have hf := hf (s.pull16 .perByte).2
    rw [width_congr (pull16_p s _) (pull16_e s _), hw] at hf
    cases h; exact ((refl i s).pull16.same (hf _)).advance 1

/-- A call that is not refused ends in the state it was given (93_implementation_defined.md U9). -/
theorem callTo {cells : List (Address × Byte)} {bytes : List Address} (h : callTo cells bytes u = .next t)
    (g : ExecFrame i s u) : ExecFrame i s t := by
  rw [Machine.callTo] at h
  split at h
  · cases h
  · cases h; exact g

/-- MVN and MVP: the index registers keep their width, so a forced high byte stays $00 (R231, R232). -/
theorem moveByte {dst src : Byte} {delta : Word} (hi : loadsDataBank i = true)
    (h : moveByte dst src delta s = .next t) : ExecFrame i s t := by
  rw [moveByte_eq] at h
  cases h
  have hhigh (r : Word) (hx : s.flag .x = true) : hiByte (steppedIndex (s.width .x) r delta 1) = 0x00 := by
    rw [width_x_of_flag hx]; exact hiByte_steppedIndex r delta 1
  exact
    { (refl i s).setDb dst hi with
      inv := fun hs =>
        { hs with xHigh := hhigh s.x, yHigh := hhigh s.y, memory := wf_write _ _ hs.memory } }

/-- BRK and COP (60_exceptions.md R256). -/
theorem enter {kind : InterruptKind} {ret : Word} (hk : kind ≠ .nmi) (hb : loadsBank i = true)
    (hr : setsRun i = true) : ExecFrame i s (enter kind ret s) :=
  have hpushed := (refl i s).pushAll (entryFrame kind ret s)
  { (hpushed.setPb 0x00 hb).setRun .running hr with
    nmiPending := if_neg hk
    inv := fun hs => hs.enter kind ret }

/-- RTI (60_exceptions.md R261). -/
theorem returnFromInterrupt (hi : loadsBank i = true) : ExecFrame i s (returnFromInterrupt s) := by
  have g := ((refl i s).pull8.writeP (s.pull8 .perByte).1).pull16
  rw [Machine.returnFromInterrupt]
  split
  · exact g.setPc _
  · exact (g.setPc _).pull8.setPb _ hi

/-- XCE (44_table6_transfer.md R212). -/
theorem xce (h : execXce s = .next t) : ExecFrame .xce s t := by
  cases h
  split
  · exact
      { refl .xce s with
        e := fun h => absurd rfl h
        inv := fun hs => SameControl.inv ((SameControl.refl _).advance 1) (inv_enterEmulation hs.memory) }
  · next he =>
    exact
      { refl .xce s with
        e := fun h => absurd rfl h
        inv := fun hs => SameControl.inv (((SameControl.refl _).setFlag .c _ (by decide) (by decide)).advance 1)
          (hs.withNative he) }

/-- Every instruction writes only the control registers that are its own to write, and keeps the invariant: each
case is one of the shared meanings above, or the operations of the state that the instruction performs, in order.
A step of an index register or a transfer into a register writes it and sets N and Z as its load does. -/
theorem of_exec (h : exec i s = .next t) : ExecFrame i s t := by
  cases i with
  | adcImm => exact .immInstr (SameControl.adcWith s _) h
  | adcDirXInd | adcSr | adcDir | adcDirIndl | adcAbs | adcAbsl | adcDirIndY | adcDirInd | adcSrIndY | adcDirX
  | adcDirIndlY | adcAbsY | adcAbsX | adcAbslX => exact .readInstr (SameControl.adcWith s _) h
  | sbcImm => exact .immInstr (SameControl.sbcWith s _) h
  | sbcDirXInd | sbcSr | sbcDir | sbcDirIndl | sbcAbs | sbcAbsl | sbcDirIndY | sbcDirInd | sbcSrIndY | sbcDirX
  | sbcDirIndlY | sbcAbsY | sbcAbsX | sbcAbslX => exact .readInstr (SameControl.sbcWith s _) h
  | andImm | oraImm | eorImm => exact .immInstr (SameControl.logicWith _ s _) h
  | andDirXInd | andSr | andDir | andDirIndl | andAbs | andAbsl | andDirIndY | andDirInd | andSrIndY | andDirX
  | andDirIndlY | andAbsY | andAbsX | andAbslX | oraDirXInd | oraSr | oraDir | oraDirIndl | oraAbs | oraAbsl
  | oraDirIndY | oraDirInd | oraSrIndY | oraDirX | oraDirIndlY | oraAbsY | oraAbsX | oraAbslX | eorDirXInd
  | eorSr | eorDir | eorDirIndl | eorAbs | eorAbsl | eorDirIndY | eorDirInd | eorSrIndY | eorDirX
  | eorDirIndlY | eorAbsY | eorAbsX | eorAbslX => exact .readInstr (SameControl.logicWith _ s _) h
  | ldaImm => exact .immInstr (SameControl.ldaWith s _) h
  | ldaDirXInd | ldaSr | ldaDir | ldaDirIndl | ldaAbs | ldaAbsl | ldaDirIndY | ldaDirInd | ldaSrIndY | ldaDirX
  | ldaDirIndlY | ldaAbsY | ldaAbsX | ldaAbslX => exact .readInstr (SameControl.ldaWith s _) h
  | cmpImm | cpxImm | cpyImm => exact .immInstr (SameControl.compareWith _ s _) h
  | cmpDirXInd | cmpSr | cmpDir | cmpDirIndl | cmpAbs | cmpAbsl | cmpDirIndY | cmpDirInd | cmpSrIndY | cmpDirX
  | cmpDirIndlY | cmpAbsY | cmpAbsX | cmpAbslX | cpxDir | cpxAbs | cpyDir | cpyAbs =>
    exact .readInstr (SameControl.compareWith _ s _) h
  | ldxImm => exact .immInstr (SameControl.ldxWith s) h
  | ldxDir | ldxDirY | ldxAbs | ldxAbsY => exact .readInstr (SameControl.ldxWith s) h
  | ldyImm => exact .immInstr (SameControl.ldyWith s) h
  | ldyDir | ldyDirX | ldyAbs | ldyAbsX => exact .readInstr (SameControl.ldyWith s) h
  | bitImm => exact .immInstr (SameControl.bitZero s _) h
  | bitDir | bitDirX | bitAbs | bitAbsX => exact .readInstr (SameControl.bitMemory s _) h
  | staDirXInd | staSr | staDir | staDirIndl | staAbs | staAbsl | staDirIndY | staDirInd | staSrIndY | staDirX
  | staDirIndlY | staAbsY | staAbsX | staAbslX | stxDir | stxDirY | stxAbs | styDir | styDirX | styAbs
  | stzDir | stzDirX | stzAbs | stzAbsX => exact .storeInstr h
  | aslDir | aslDirX | aslAbs | aslAbsX | lsrDir | lsrDirX | lsrAbs | lsrAbsX | rolDir | rolDirX | rolAbs
  | rolAbsX | rorDir | rorDirX | rorAbs | rorAbsX =>
    exact .modifyInstr (fun _ => SameControl.shiftResult s _ _) h
  | aslAcc | lsrAcc | rolAcc | rorAcc => exact .modifyAcc (fun _ => SameControl.shiftResult s _ _) h
  | incDir | incDirX | incAbs | incAbsX => exact .modifyInstr (SameControl.incValue s _) h
  | incAcc => exact .modifyAcc (SameControl.incValue s _) h
  | decDir | decDirX | decAbs | decAbsX => exact .modifyInstr (SameControl.decValue s _) h
  | decAcc => exact .modifyAcc (SameControl.decValue s _) h
  | trbDir | trbAbs | tsbDir | tsbAbs => exact .modifyInstr (SameControl.bitZero s _) h
  | bcc | bcs | beq | bmi | bne | bpl | bra | bvc | bvs => exact .branchIf h
  | clc | cld | cli | clv | sec | sed | sei => exact .flagInstr (by decide) (by decide) h
  | txa | tya => cases h; exact (ofSame _ (SameControl.ldaWith s _ _)).advance 1
  | dex | inx | tax | tsx | tyx => cases h; exact (ofSame _ (SameControl.ldxWith s _)).advance 1
  | dey | iny | tay | txy => cases h; exact (ofSame _ (SameControl.ldyWith s _)).advance 1
  | tdc | tsc | xba => cases h; exact (ofSame _ (((SameControl.refl s).setA _).setNZ _)).advance 1
  | pha | phx | phy => exact .pushReg h
  | phb | phk | php => exact .pushByte h
  | pea | pei | per | phd => exact .pushNewWord h
  | pla => exact .pullReg (fun u => SameControl.ldaWith u _) h
  | plx => exact .pullReg SameControl.ldxWith h
  | ply => exact .pullReg SameControl.ldyWith h
  | tcs | txs => cases h; exact ((refl _ s).setSp _).advance 1
  | nop => cases h; exact (refl _ s).advance 1
  | wdm => cases h; exact (refl _ s).advance 2
  | brl | jmpAbs | jmpAbsInd | jmpAbsXInd => cases h; exact (refl _ s).setPc _
  | rep | sep => cases h; exact ((refl _ s).writeP _).advance 2
  | plp => cases h; exact ((refl _ s).pull8.writeP _).advance 1
  | rts => cases h; exact (refl _ s).pull16.setPc _
  | jsrAbs => exact .callTo h (((refl _ s).pushAll _).setPc _)
  | jsrAbsXInd => exact .callTo h (((refl _ s).pushAll_lockStack _ _).setPc _)
  | jsl => exact .callTo h (((refl _ s).pushAll_lockStack _ _).jump _ _ rfl)
  | jml | jmpAbsl => cases h; exact (refl _ s).jump _ _ rfl
  | rtl => cases h; exact ((refl _ s).setSp _).jump _ _ rfl
  | rti => cases h; exact .returnFromInterrupt rfl
  | brk | cop => cases h; exact .enter (by decide) rfl rfl
  | stp | wai => cases h; exact ((refl _ s).advance 1).setRun _ rfl
  | mvn | mvp => exact .moveByte rfl h
  | tcd =>
    cases h
    exact (((refl _ s).setD s.a (by simp)).same ((SameControl.refl _).setNZ s.a)).advance 1
  | plb =>
    cases h
    exact ((((refl _ s).pull8_lockStack _).setDb _ rfl).same ((SameControl.refl _).setNZ _)).advance 1
  | pld =>
    cases h
    exact ((((refl _ s).pull16_lockStack _).setD _ (by simp)).same ((SameControl.refl _).setNZ _)).advance 1
  | xce => exact .xce h

end ExecFrame

/-- An instruction keeps the invariant. -/
theorem State.Inv.exec {i : Instr} {s t : State} (hs : s.Inv) (h : exec i s = .next t) : t.Inv :=
  (ExecFrame.of_exec h).inv hs

/-! ## The statements -/

/-- Settles O9: whatever the boundary says (60_exceptions.md R259, R263, R264), what is done there keeps the
invariant. -/
theorem stepKeepsInv : Obligations.StepKeepsInv := by
  intro s t hs h
  have hl := hs.latch
  rw [step] at h
  cases hb : boundary s.sample s.latch with rw [hb] at h
  | reset => cases h; exact hl.resetSequence
  | abort => cases h
  | enter kind => cases h; exact hl.enter kind _
  | resume => cases h; exact { hl with }
  | idle => cases h; exact hl
  | execute => exact hl.exec h

/-- Settles O10, from what each instruction may write. -/
theorem controlRegisterWriters : Obligations.ControlRegisterWriters := by
  intro i s t h
  have g := ExecFrame.of_exec h
  exact ⟨g.e, g.d, g.db, g.pb, g.run, g.nmiPending, g.inputs, g.draws⟩

/-- Settles O7: the values of the table (R42), field by field. -/
theorem resetState : Obligations.ResetState :=
  ⟨rfl, rfl, rfl, rfl, rfl, rfl, rfl, rfl, rfl, rfl, rfl, rfl, rfl, rfl, inv_reset⟩

end Sys2Proof.Machine
end

section
/-! PROOFS. The statements of 20_memory.md: memory in canonical form and what its bytes read as (R50, R61), memory
maps region by region (R59), and which bytes an instruction can change (R66). -/

namespace Sys2Proof.Machine

/-! ## The canonical form (20_memory.md R50) -/

/-- A key that is not listed reads as an unlisted address does. -/
theorem lookup_of_notMem {m : Memory} {k : Nat} (h : ∀ c ∈ m, c.1 ≠ k) : m.lookup k = Config.unlistedByte := by
  induction m with
  | nil => rfl
  | cons c m ih =>
    rw [Memory.lookup, if_neg (h c (by simp))]
    exact ih fun c' hc' => h c' (by simp [hc'])

/-- In canonical form the entries are the bytes that differ from an unlisted one. -/
theorem mem_iff_lookup {m : Memory} (h : m.wf) (k : Nat) (b : Byte) :
    (k, b) ∈ m ↔ m.lookup k = b ∧ b ≠ Config.unlistedByte := by
  obtain ⟨hsorted, hentries⟩ := h
  induction m with
  | nil => simpa [Memory.lookup] using Eq.symm
  | cons c m ih =>
    obtain ⟨k', b'⟩ := c
    obtain ⟨hhead, htail⟩ := List.pairwise_cons.mp hsorted
    have ih := ih htail fun c hc => hentries c (by simp [hc])
    have hb' : b' ≠ Config.unlistedByte := (hentries (k', b') (by simp)).2
    rw [List.mem_cons, Memory.lookup]
    by_cases hk : k' = k
    · subst hk
      have hnot : (k', b) ∉ m := fun hm => lt_irrefl k' (hhead _ hm)
      simp only [hnot, or_false, if_true, Prod.mk.injEq, true_and]
      exact ⟨fun e => ⟨e.symm, e ▸ hb'⟩, fun e => e.1.symm⟩
    · simp [hk, Ne.symm hk, ih]

/-- The entry of a canonical memory at an address is what a read there gives, unless that is the unlisted byte. -/
theorem mem_iff_read {m : Memory} (h : m.wf) (c : Host.Cell) :
    c ∈ m ↔ c.1 < 2 ^ 24 ∧ m.read (BitVec.ofNat 24 c.1) = c.2 ∧ c.2 ≠ Config.unlistedByte := by
  rw [read_eq, BitVec.toNat_ofNat]
  constructor
  · intro hc
    have hlt := (h.2 c hc).1
    rw [Nat.mod_eq_of_lt hlt]
    exact ⟨hlt, (mem_iff_lookup h c.1 c.2).mp hc⟩
  · rintro ⟨hlt, hread⟩
    rw [Nat.mod_eq_of_lt hlt] at hread
    exact (mem_iff_lookup h c.1 c.2).mpr hread

/-- Memories in canonical form that read alike have the same entries in the same order. -/
theorem memory_ext {m m' : Memory} (h : m.wf) (h' : m'.wf) (hread : ∀ a : Address, m.read a = m'.read a) :
    m = m' := by
  have hanti : Std.Antisymm fun c c' : Host.Cell => c.1 < c'.1 := ⟨fun _ _ hlt hgt => absurd hgt hlt.asymm⟩
  have hirrefl : Std.Irrefl fun c c' : Host.Cell => c.1 < c'.1 := ⟨fun c => lt_irrefl c.1⟩
  exact h.1.eq_of_mem_iff h'.1 fun c => by rw [mem_iff_read h, mem_iff_read h', hread]

/-! ## Memory maps (20_memory.md R59)

What the first region of a map decides, by its kind, and that an access depends on what answers it alone. -/

section MapLaws

variable {map map' : MemoryMap} {base size k : Nat} {a t : Address} {v : Byte}

theorem backing_cons_ram (h : base ≤ k ∧ k < base + size) : backing (⟨base, size, .ram⟩ :: map) k = .ram k := by
  simp [backing, covers, h]

theorem backing_cons_rom (h : base ≤ k ∧ k < base + size) : backing (⟨base, size, .rom⟩ :: map) k = .rom k := by
  simp [backing, covers, h]

theorem backing_cons_unpopulated (h : base ≤ k ∧ k < base + size) :
    backing (⟨base, size, .unpopulated⟩ :: map) k = .nothing := by
  simp [backing, covers, h]

/-- A mirror has what the regions after it have at the address it shows. -/
theorem backing_cons_mirror {target period : Nat} (h : base ≤ k ∧ k < base + size) :
    backing (⟨base, size, .mirror target period⟩ :: map) k =
      backing map ((target + (k - base) % period) % 2 ^ 24) := by
  simp [backing, covers, h]

/-- Outside a region the next ones decide. -/
theorem backing_cons_outside {r : Region} (h : ¬(r.base ≤ k ∧ k < r.base + r.size)) :
    backing (r :: map) k = backing map k := by
  rw [backing, if_neg (by simpa [covers] using h)]

theorem writeIn_ram (m : Memory) (h : backing map a.toNat = .ram k) : m.writeIn map a v = m.store k v := by
  rw [Memory.writeIn, h]

theorem writeIn_rom (m : Memory) (h : backing map a.toNat = .rom k) : m.writeIn map a v = m := by
  rw [Memory.writeIn, h]

theorem writeIn_nothing (m : Memory) (h : backing map a.toNat = .nothing) : m.writeIn map a v = m := by
  rw [Memory.writeIn, h]

theorem readIn_ram (m : Memory) (h : backing map a.toNat = .ram k) : m.readIn map a = m.lookup k := by
  rw [Memory.readIn, h]

theorem readIn_rom (m : Memory) (h : backing map a.toNat = .rom k) : m.readIn map a = m.lookup k := by
  rw [Memory.readIn, h]

theorem readIn_nothing (m : Memory) (h : backing map a.toNat = .nothing) :
    m.readIn map a = Config.unpopulatedByte a := by
  rw [Memory.readIn, h]

/-- Two writes that the same backing answers leave the same memory. -/
theorem writeIn_congr (m : Memory) (h : backing map a.toNat = backing map' t.toNat) :
    m.writeIn map a v = m.writeIn map' t v := by
  rw [Memory.writeIn, h]; rfl

/-- Two reads of memory that the same backing answers give the same byte. -/
theorem readIn_congr (m : Memory) (h : backing map a.toNat = backing map' t.toNat)
    (ht : backing map' t.toNat = .nothing → a = t) : m.readIn map a = m.readIn map' t := by
  cases hb : backing map' t.toNat with
  | ram k => rw [readIn_ram m hb, readIn_ram m (h.trans hb)]
  | rom k => rw [readIn_rom m hb, readIn_rom m (h.trans hb)]
  | nothing => rw [readIn_nothing m hb, readIn_nothing m (h.trans hb), ht hb]

/-- RAM gives back what was written. -/
theorem readIn_writeIn_ram (m : Memory) (h : backing map a.toNat = .ram k) :
    (m.writeIn map a v).readIn map a = v := by
  rw [writeIn_ram m h, readIn_ram _ h, lookup_store, if_pos rfl]

end MapLaws

/-! ## Which bytes an instruction changes (20_memory.md R66)

`StoresOnly i s t` is carried from the shared meanings of Machine/Operands.lean, Stack.lean and Control.lean to the
instructions: memory is kept, or it is written at addresses that `StoresAt` names. -/

/-- From `s` to `t` every byte of memory that `i` does not store to reads as before. -/
def StoresOnly (i : Instr) (s t : State) : Prop := ∀ a : Address, ¬StoresAt s i a → t.mem.read a = s.mem.read a

/-- A push under either lock leaves every byte that it does not store to as it was (00_scope.md R11). -/
theorem pushAll_read_of_notMem {lock : StackLock} {vs : List Byte} {s : State} {a : Address}
    (ha : a ∉ pushAddresses lock vs s) : (s.pushAll lock vs).mem.read a = s.mem.read a := by
  induction vs generalizing s with
  | nil => rfl
  | cons v vs ih =>
    obtain ⟨hne, hnotMem⟩ := List.ne_and_not_mem_of_not_mem_cons ha
    calc ((s.push lock v).pushAll lock vs).mem.read a
        = (s.push lock v).mem.read a := ih hnotMem
      _ = s.mem.read a := read_write_ne _ _ hne

/-- The instructions that read, modify and write, or clear, the operand of a form, as `StoresAt.rmw` lists them. -/
def RmwForm.writers (f : RmwForm) : List Instr := [f.asl, f.dec, f.inc, f.lsr, f.rol, f.ror, f.stz]

/-- The instructions that test and modify the operand of a form, as `StoresAt.test` lists them. -/
def TestForm.writers (f : TestForm) : List Instr := [f.trb, f.tsb]

@[simp] theorem RmwForm.writers_dir (d : Byte) :
    (RmwForm.dir d).writers = [.aslDir d, .decDir d, .incDir d, .lsrDir d, .rolDir d, .rorDir d, .stzDir d] := rfl

@[simp] theorem RmwForm.writers_dirX (d : Byte) :
    (RmwForm.dirX d).writers =
      [.aslDirX d, .decDirX d, .incDirX d, .lsrDirX d, .rolDirX d, .rorDirX d, .stzDirX d] := rfl

@[simp] theorem RmwForm.writers_abs (v : Word) :
    (RmwForm.abs v).writers = [.aslAbs v, .decAbs v, .incAbs v, .lsrAbs v, .rolAbs v, .rorAbs v, .stzAbs v] := rfl

@[simp] theorem RmwForm.writers_absX (v : Word) :
    (RmwForm.absX v).writers =
      [.aslAbsX v, .decAbsX v, .incAbsX v, .lsrAbsX v, .rolAbsX v, .rorAbsX v, .stzAbsX v] := rfl

@[simp] theorem TestForm.writers_dir (d : Byte) : (TestForm.dir d).writers = [.trbDir d, .tsbDir d] := rfl

@[simp] theorem TestForm.writers_abs (v : Word) : (TestForm.abs v).writers = [.trbAbs v, .tsbAbs v] := rfl

namespace StoresOnly

variable {i : Instr} {s t u : State}

/-- An instruction that keeps memory. -/
theorem of_mem_eq (h : t.mem = s.mem) : StoresOnly i s t := fun a _ => by rw [h]

/-- An instruction that writes some cells at addresses it stores to. -/
theorem of_cells {cells : List (Address × Byte)} (h : CellsWritten t.mem s.mem cells)
    (hi : ∀ c ∈ cells, StoresAt s i c.1) : StoresOnly i s t :=
  fun a ha => h.2 a fun c hc hac => ha (hac ▸ hi c hc)

/-- An instruction that pushes some bytes. -/
theorem of_push {lock : StackLock} {vs : List Byte} (h : t.mem = (s.pushAll lock vs).mem)
    (hi : ∀ a ∈ pushAddresses lock vs s, StoresAt s i a) : StoresOnly i s t :=
  fun a ha => by rw [h]; exact pushAll_read_of_notMem fun hmem => ha (hi a hmem)

/-! ### The meanings that keep memory -/

theorem readInstr {sel : Selector} {f : (w : Width) → BitVec w.bits → State → State} {addr : Addr}
    (h : readInstr sel f addr s = .next t) (hf : ∀ m, (f (s.width sel) m s).mem = s.mem) : StoresOnly i s t := by
  cases h; exact of_mem_eq (hf _)

theorem immInstr {sel : Selector} {f : (w : Width) → BitVec w.bits → State → State} {imm : Word}
    (h : immInstr sel f imm s = .next t) (hf : ∀ m, (f (s.width sel) m s).mem = s.mem) : StoresOnly i s t := by
  cases h; exact of_mem_eq (hf _)

theorem modifyAcc {f : (w : Width) → BitVec w.bits → State → BitVec w.bits × State}
    (h : modifyAcc f s = .next t) (hf : ∀ b, (f (s.width .m) b s).2.mem = s.mem) : StoresOnly i s t := by
  cases h; exact of_mem_eq (hf _)

theorem branchIf {c : Bool} {r : Byte} (h : branchIf c r s = .next t) : StoresOnly i s t := by
  cases h; split <;> exact of_mem_eq rfl

theorem pullReg {sel : Selector} {f : (w : Width) → BitVec w.bits → State → State}
    (h : pullReg sel f s = .next t) (hf : ∀ w m u, (f w m u).mem = u.mem) : StoresOnly i s t := by
  rw [Machine.pullReg] at h
  split at h
  · cases h; exact of_mem_eq (hf _ _ _)
  · cases h; exact of_mem_eq (hf _ _ _)

/-- XCE (44_table6_transfer.md R212). -/
theorem xce (h : execXce s = .next t) : StoresOnly i s t := by
  cases h; split <;> exact of_mem_eq rfl

/-! ### Operands in memory -/

/-- The cells of an operand lie at the operand's addresses. -/
theorem fst_mem_operandAddresses {l : Loc} {w : Width} {v : BitVec w.bits} {c : Address × Byte}
    (hc : c ∈ operandCells l w v) : c.1 ∈ operandAddresses l w := by
  cases w with
  | w8 => exact List.mem_map_of_mem (f := Prod.fst) hc
  | w16 => exact List.mem_map_of_mem (f := Prod.fst) hc

theorem storeInstr {sel : Selector} {v : Word} {addr : Addr} (h : storeInstr sel v addr s = .next t)
    (hi : ∀ a ∈ operandAddresses (addr.loc s) (s.width sel), StoresAt s i a) : StoresOnly i s t := by
  cases h; exact of_cells (writeOp_cells _ _ _ _) fun c hc => hi c.1 (fst_mem_operandAddresses hc)

theorem modifyInstr {f : (w : Width) → BitVec w.bits → State → BitVec w.bits × State} {addr : Addr}
    (h : modifyInstr f addr s = .next t)
    (hi : ∀ a ∈ operandAddresses (addr.loc s) (s.width .m), StoresAt s i a) : StoresOnly i s t := by
  cases h; exact of_cells (writeBack_cells _ _ _ _) fun c hc => hi c.1 (fst_mem_operandAddresses hc)

theorem sta (f : StaForm) (h : Machine.storeInstr .m s.a f.addr s = .next t) : StoresOnly f.sta s t :=
  storeInstr h (.sta f)

theorem stx (f : StxForm) (h : Machine.storeInstr .x s.x f.addr s = .next t) : StoresOnly f.stx s t :=
  storeInstr h (.stx f)

theorem sty (f : StyForm) (h : Machine.storeInstr .x s.y f.addr s = .next t) : StoresOnly f.sty s t :=
  storeInstr h (.sty f)

/-- ASL, DEC, INC, LSR, ROL, ROR on memory and STZ. -/
theorem rmw (f : RmwForm) (hi : i ∈ f.writers) (h : exec i s = .next t) : StoresOnly i s t := by
  have hat (a : Address) (ha : a ∈ operandAddresses (f.addr.loc s) (s.width .m)) : StoresAt s i a :=
    .rmw f i a hi ha
  simp only [RmwForm.writers, List.mem_cons, List.not_mem_nil, or_false] at hi
  rcases hi with rfl | rfl | rfl | rfl | rfl | rfl | rfl
  · rw [exec_asl] at h; exact modifyInstr h hat
  · rw [exec_dec] at h; exact modifyInstr h hat
  · rw [exec_inc] at h; exact modifyInstr h hat
  · rw [exec_lsr] at h; exact modifyInstr h hat
  · rw [exec_rol] at h; exact modifyInstr h hat
  · rw [exec_ror] at h; exact modifyInstr h hat
  · rw [exec_stz] at h; exact storeInstr h hat

/-- TRB and TSB. -/
theorem test (f : TestForm) (hi : i ∈ f.writers) (h : exec i s = .next t) : StoresOnly i s t := by
  have hat (a : Address) (ha : a ∈ operandAddresses (f.addr.loc s) (s.width .m)) : StoresAt s i a :=
    .test f i a hi ha
  simp only [TestForm.writers, List.mem_cons, List.not_mem_nil, or_false] at hi
  rcases hi with rfl | rfl
  · rw [exec_trb] at h; exact modifyInstr h hat
  · rw [exec_tsb] at h; exact modifyInstr h hat

/-! ### Pushes, calls and block moves -/

/-- A push of the low byte of a register or of all of it, as `narrow` says. Its addresses do not depend on the value
`r` pushed, and may be given with another one, `q`. -/
theorem pushReg {narrow : Bool} {r q : Word} (h : pushReg (if narrow then .w8 else .w16) r s = .next t)
    (hi : ∀ a ∈ pushAddresses .perByte (if narrow then [loByte q] else wordBytes q) s, StoresAt s i a) :
    StoresOnly i s t := by
  cases narrow with
  | true => cases h; exact of_push (vs := [loByte r]) rfl hi
  | false => cases h; exact of_push (vs := wordBytes r) rfl hi

theorem pushByte {v : Byte} (hi : i ∈ [Instr.phb, .phk, .php]) (h : pushByte v s = .next t) :
    StoresOnly i s t := by
  cases h; exact of_cells (cellsWritten_one _ _ v) (by simpa using StoresAt.pushByte i hi)

theorem pushNewWord {op : NewStackOp} {v len : Word} (h : pushNewWord op v len s = .next t)
    (hi : ∀ a ∈ pushAddresses (newPushLock op 2 s) (wordBytes v) s, StoresAt s i a) : StoresOnly i s t := by
  cases h; exact of_push rfl hi

/-- A call that is not refused leaves the memory that its pushes leave (93_implementation_defined.md U9). -/
theorem callTo {cells : List (Address × Byte)} {bytes : List Address} {lock : StackLock} {vs : List Byte}
    (h : callTo cells bytes u = .next t) (hu : u.mem = (s.pushAll lock vs).mem)
    (hi : ∀ a ∈ pushAddresses lock vs s, StoresAt s i a) : StoresOnly i s t := by
  rw [Machine.callTo] at h
  split at h
  · cases h
  · cases h; exact of_push hu hi

theorem enter {kind : InterruptKind} {ret : Word}
    (hi : ∀ a ∈ pushAddresses .perByte (entryFrame kind ret s) s, StoresAt s i a) :
    StoresOnly i s (enter kind ret s) := of_push (by rw [enter_eq]) hi

theorem moveByte {dst src : Byte} {delta : Word} (hi : i ∈ [Instr.mvn dst src, .mvp dst src])
    (h : moveByte dst src delta s = .next t) : StoresOnly i s t := by
  cases h; exact of_cells (cellsWritten_one _ _ _) (by simpa using StoresAt.move dst src i hi)

/-- Every instruction: those that store, each with its addresses, then those that keep memory. -/
theorem of_exec (h : exec i s = .next t) : StoresOnly i s t := by
  cases i with
  | staDirXInd d => exact sta (.dirXInd d) h
  | staSr d => exact sta (.sr d) h
  | staDir d => exact sta (.dir d) h
  | staDirIndl d => exact sta (.dirIndl d) h
  | staAbs v => exact sta (.abs v) h
  | staAbsl v => exact sta (.absl v) h
  | staDirIndY d => exact sta (.dirIndY d) h
  | staDirInd d => exact sta (.dirInd d) h
  | staSrIndY d => exact sta (.srIndY d) h
  | staDirX d => exact sta (.dirX d) h
  | staDirIndlY d => exact sta (.dirIndlY d) h
  | staAbsY v => exact sta (.absY v) h
  | staAbsX v => exact sta (.absX v) h
  | staAbslX v => exact sta (.abslX v) h
  | stxDir d => exact stx (.dir d) h
  | stxDirY d => exact stx (.dirY d) h
  | stxAbs v => exact stx (.abs v) h
  | styDir d => exact sty (.dir d) h
  | styDirX d => exact sty (.dirX d) h
  | styAbs v => exact sty (.abs v) h
  | aslDir d | decDir d | incDir d | lsrDir d | rolDir d | rorDir d | stzDir d =>
    exact rmw (.dir d) (by simp) h
  | aslDirX d | decDirX d | incDirX d | lsrDirX d | rolDirX d | rorDirX d | stzDirX d =>
    exact rmw (.dirX d) (by simp) h
  | aslAbs v | decAbs v | incAbs v | lsrAbs v | rolAbs v | rorAbs v | stzAbs v =>
    exact rmw (.abs v) (by simp) h
  | aslAbsX v | decAbsX v | incAbsX v | lsrAbsX v | rolAbsX v | rorAbsX v | stzAbsX v =>
    exact rmw (.absX v) (by simp) h
  | trbDir d | tsbDir d => exact test (.dir d) (by simp) h
  | trbAbs v | tsbAbs v => exact test (.abs v) (by simp) h
  | pha => exact pushReg h .pushM
  | phx | phy => exact pushReg h fun a ha => .pushX _ a (by simp) ha
  | phb | phk | php => exact pushByte (by simp) h
  | pea v => exact pushNewWord h (.pea v)
  | pei d => exact pushNewWord h (.pei d)
  | per r => exact pushNewWord h (.per r)
  | phd => exact pushNewWord h .phd
  | jsrAbs v => exact callTo h rfl (.jsrAbs v)
  | jsrAbsXInd v => exact callTo h rfl (.jsrAbsXInd v)
  | jsl v => exact callTo h rfl (.jsl v)
  | brk sig => cases h; exact enter (.brk sig)
  | cop sig => cases h; exact enter (.cop sig)
  | mvn dst src | mvp dst src => exact moveByte (by simp) h
  | adcImm | sbcImm | andImm | oraImm | eorImm | ldaImm | cmpImm | cpxImm | cpyImm | ldxImm | ldyImm | bitImm =>
    exact immInstr h fun _ => rfl
  | adcDirXInd | adcSr | adcDir | adcDirIndl | adcAbs | adcAbsl | adcDirIndY | adcDirInd | adcSrIndY | adcDirX
  | adcDirIndlY | adcAbsY | adcAbsX | adcAbslX | sbcDirXInd | sbcSr | sbcDir | sbcDirIndl | sbcAbs | sbcAbsl
  | sbcDirIndY | sbcDirInd | sbcSrIndY | sbcDirX | sbcDirIndlY | sbcAbsY | sbcAbsX | sbcAbslX | andDirXInd | andSr
  | andDir | andDirIndl | andAbs | andAbsl | andDirIndY | andDirInd | andSrIndY | andDirX | andDirIndlY | andAbsY
  | andAbsX | andAbslX | oraDirXInd | oraSr | oraDir | oraDirIndl | oraAbs | oraAbsl | oraDirIndY | oraDirInd
  | oraSrIndY | oraDirX | oraDirIndlY | oraAbsY | oraAbsX | oraAbslX | eorDirXInd | eorSr | eorDir | eorDirIndl
  | eorAbs | eorAbsl | eorDirIndY | eorDirInd | eorSrIndY | eorDirX | eorDirIndlY | eorAbsY | eorAbsX | eorAbslX
  | ldaDirXInd | ldaSr | ldaDir | ldaDirIndl | ldaAbs | ldaAbsl | ldaDirIndY | ldaDirInd | ldaSrIndY | ldaDirX
  | ldaDirIndlY | ldaAbsY | ldaAbsX | ldaAbslX | cmpDirXInd | cmpSr | cmpDir | cmpDirIndl | cmpAbs | cmpAbsl
  | cmpDirIndY | cmpDirInd | cmpSrIndY | cmpDirX | cmpDirIndlY | cmpAbsY | cmpAbsX | cmpAbslX | cpxDir | cpxAbs
  | cpyDir | cpyAbs | ldxDir | ldxDirY | ldxAbs | ldxAbsY | ldyDir | ldyDirX | ldyAbs | ldyAbsX | bitDir | bitDirX
  | bitAbs | bitAbsX => exact readInstr h fun _ => rfl
  | aslAcc | lsrAcc | rolAcc | rorAcc | incAcc | decAcc => exact modifyAcc h fun _ => rfl
  | bcc | bcs | beq | bmi | bne | bpl | bra | bvc | bvs => exact branchIf h
  | pla | plx | ply => exact pullReg h fun _ _ _ => rfl
  | xce => exact xce h
  | rti => cases h; exact of_mem_eq (by rw [returnFromInterrupt_eq])
  | rep | sep => cases h; exact of_mem_eq (writeP_mem _ _)
  | plp => cases h; exact of_mem_eq (writeP_mem _ _)
  | clc | cld | cli | clv | sec | sed | sei | dex | dey | inx | iny | tax | tay | tsx | txa | txy | tya | tyx | tdc
  | tsc | tcd | tcs | txs | xba | nop | wdm | stp | wai | brl | jmpAbs | jmpAbsInd | jmpAbsXInd | jmpAbsl | jml | rts
  | rtl | plb | pld => cases h; exact of_mem_eq rfl

end StoresOnly

/-! ## The statements -/

/-- Settles O11, from what each instruction may change of memory. -/
theorem storesOnlyWhereStated : Obligations.StoresOnlyWhereStated :=
  fun _ _ _ h => StoresOnly.of_exec h

/-- Settles O12, from the laws of a write and the entries of a memory in canonical form. -/
theorem memoryReadsLastWrite : Obligations.MemoryReadsLastWrite :=
  ⟨read_write, fun _ a v h => wf_write a v h, fun _ _ h h' => memory_ext h h'⟩

/-- Settles O60: an access of an address is decided by what the first region that covers it has there, kind by
kind. -/
theorem memoryMapAccess : Obligations.MemoryMapAccess := by
  refine ⟨fun m a b v => ⟨rfl, rfl, read_write m a b v⟩,
    fun map m a b v => ⟨readIn_writeIn map m a b v, wf_writeIn map a v⟩, fun r map m a v => ?_⟩
  obtain ⟨base, size, kind⟩ := r
  split
  · next hin =>
    cases kind with
    | ram => exact readIn_writeIn_ram m (backing_cons_ram hin)
    | rom =>
      have hb : backing (⟨base, size, .rom⟩ :: map) a.toNat = .rom a.toNat := backing_cons_rom hin
      exact ⟨writeIn_rom m hb, readIn_rom m hb⟩
    | unpopulated =>
      have hb : backing (⟨base, size, .unpopulated⟩ :: map) a.toNat = .nothing := backing_cons_unpopulated hin
      exact ⟨writeIn_nothing m hb, readIn_nothing m hb⟩
    | mirror target period =>
      intro t ht
      have hb : backing (⟨base, size, .mirror target period⟩ :: map) a.toNat = backing map t.toNat := by
        rw [ht]; exact backing_cons_mirror hin
      exact ⟨writeIn_congr m hb, fun hmem => readIn_congr m hb fun hnone => absurd hnone hmem⟩
  · next hout =>
    have hb := backing_cons_outside (map := map) hout
    exact ⟨writeIn_congr m hb, readIn_congr m hb fun _ => rfl⟩

end Sys2Proof.Machine
end

section
/-! PROOFS. The statements of 30_encoding.md: what an encoding decodes to and what is decoded encodes to (R70 to R74,
R78, R83), and the lengths (R72, R74). Both round trips go through the operand fields of an instruction: `Statement`
of Laws/PerInstr.lean reads them back from an encoding, `assemble_build` finds them in what a row makes. -/

namespace Sys2Proof

/-! ## Bytes of words and long addresses (30_encoding.md R73, R74) -/

@[simp] theorem loByte_setWidth_byte (b : Byte) : loByte (b.setWidth 16) = b := by
  apply BitVec.eq_of_toNat_eq; rw [Machine.loByte_toNat, BitVec.toNat_setWidth]; omega

@[simp] theorem offsetOf_long24 (lo hi bank : Byte) : offsetOf (long24 lo hi bank) = word16 lo hi :=
  BitVec.extractLsb'_append_eq_right

@[simp] theorem bankOf_long24 (lo hi bank : Byte) : bankOf (long24 lo hi bank) = bank :=
  BitVec.extractLsb'_append_eq_left

/-! ## Operand fields -/

/-- The selector and the value of an immediate that follows M or X; `none` for every other operand. -/
def Operand.immediate : Operand → Option (Selector × Word)
  | .imm sel v => some (sel, v)
  | _ => Option.none

/-- An instruction is immediate as its operand is. -/
theorem Instr.immediate_eq (i : Instr) : i.immediate = i.assemble.2.immediate := by
  cases i <;> rfl

theorem Operand.length_bytes_le (m8 x8 : Bool) (o : Operand) : (o.bytes m8 x8).length ≤ 3 := by
  cases o with
  | imm sel v => rw [Operand.bytes]; split <;> simp
  | none | byte | word | long | banks => simp [Operand.bytes]

/-- An immediate has one byte at 8 bits and two at 16 (30_encoding.md R74). -/
theorem Operand.length_bytes_of_immediate {o : Operand} {sel : Selector} {v : Word} (h : o.immediate = some (sel, v))
    (m8 x8 : Bool) : (o.bytes m8 x8).length = if sel.is8 m8 x8 then 1 else 2 := by
  cases o with
  | imm => cases h; rw [Operand.bytes, apply_ite List.length]; rfl
  | none | byte | word | long | banks => cases h

/-- Only the bytes of an immediate follow the widths (30_encoding.md R74). -/
theorem Operand.bytes_congr {o : Operand} (h : o.immediate = .none) (m8 x8 m8' x8' : Bool) :
    o.bytes m8' x8' = o.bytes m8 x8 := by
  cases o with
  | imm sel v => cases h
  | none | byte | word | long | banks => rfl

theorem length_encode (m8 x8 : Bool) (i : Instr) :
    (encode m8 x8 i).length = (i.assemble.2.bytes m8 x8).length + 1 := rfl

theorem encode_append (m8 x8 : Bool) (i : Instr) (rest : List Byte) :
    encode m8 x8 i ++ rest = i.assemble.1 :: (i.assemble.2.bytes m8 x8 ++ rest) := rfl

/-- Well-formedness in the terms of the immediate and the width it is read at (30_encoding.md R74). -/
theorem Instr.wellFormed_iff (m8 x8 : Bool) (i : Instr) :
    i.wellFormed m8 x8 = true ↔
      ∀ sel v, i.immediate = some (sel, v) → sel.is8 m8 x8 = true → v.toNat < 256 := by
  rw [Instr.wellFormed]
  rcases i.immediate with _ | ⟨_ | _, v⟩ <;> simp [Selector.is8, or_iff_not_imp_left]

/-! ## What a row makes of the bytes after its opcode (30_encoding.md R71 to R74, R76) -/

/-- An immediate as a row reads it from two bytes. -/
def readImm (is8 : Bool) (b1 b2 : Byte) : Word := if is8 then b1.setWidth 16 else word16 b1 b2

/-- The operand fields that a row reads from three bytes. -/
def Row.operand (m8 x8 : Bool) (b1 b2 b3 : Byte) : Row → Operand
  | .none _ => .none
  | .byte _ => .byte b1
  | .word _ => .word (word16 b1 b2)
  | .long _ => .long (long24 b1 b2 b3)
  | .immM _ => .imm .m (readImm (Selector.is8 m8 x8 .m) b1 b2)
  | .immX _ => .imm .x (readImm (Selector.is8 m8 x8 .x) b1 b2)
  | .banks _ => .banks b1 b2

/-- The immediate of a row is read at the width of its own selector. -/
theorem Row.immediate_operand {m8 x8 : Bool} {b1 b2 b3 : Byte} {row : Row} {sel : Selector} {v : Word}
    (h : (row.operand m8 x8 b1 b2 b3).immediate = some (sel, v)) : v = readImm (sel.is8 m8 x8) b1 b2 := by
  cases row with
  | immM | immX => cases h; rfl
  | none | byte | word | long | banks => cases h

theorem readImm_lt (b1 b2 : Byte) : (readImm true b1 b2).toNat < 256 := by
  rw [readImm, if_pos rfl, BitVec.toNat_setWidth]; omega

/-- The instruction that an opcode's row makes has that opcode and the operand fields that the row reads. -/
theorem assemble_build (op : Byte) (m8 x8 : Bool) (b1 b2 b3 : Byte) :
    ((opcodeRow op).build m8 x8 b1 b2 b3).assemble = (op, (opcodeRow op).operand m8 x8 b1 b2 b3) := by
  obtain ⟨n, hn⟩ := op
  interval_cases n <;> rfl

theorem Row.size_le (m8 x8 : Bool) (row : Row) : row.size m8 x8 ≤ 3 := by
  cases row with
  | immM | immX => rw [Row.size]; split <;> simp
  | none | byte | word | long | banks => simp [Row.size]

theorem take_eq_map_getD {bytes : List Byte} {n : Nat} (h : n ≤ bytes.length) :
    bytes.take n = (List.range n).map (bytes.getD · 0) := by
  apply List.ext_getElem
  · simpa using h
  · intro k hk _
    have hlt : k < bytes.length := hk.trans_le (List.length_take_le' n bytes)
    simp [hlt]

/-- What a row reads has the bytes that it was read from. -/
theorem Row.bytes_operand {m8 x8 : Bool} {row : Row} {rest : List Byte} (h : row.size m8 x8 ≤ rest.length) :
    (row.operand m8 x8 (rest.getD 0 0) (rest.getD 1 0) (rest.getD 2 0)).bytes m8 x8 =
      rest.take (row.size m8 x8) := by
  rw [take_eq_map_getD h]
  cases row with
  | none | byte | banks => rfl
  | word | long => simp [Row.operand, Operand.bytes, Row.size, List.range_succ]
  | immM => cases m8 <;> simp [Row.operand, Operand.bytes, Row.size, readImm, Selector.is8, List.range_succ]
  | immX => cases x8 <;> simp [Row.operand, Operand.bytes, Row.size, readImm, Selector.is8, List.range_succ]

/-- What a row reads at 8 bits is below $100 (30_encoding.md R74). -/
theorem wellFormed_build (op : Byte) (m8 x8 : Bool) (b1 b2 b3 : Byte) :
    ((opcodeRow op).build m8 x8 b1 b2 b3).wellFormed m8 x8 = true := by
  rw [Instr.wellFormed_iff, Instr.immediate_eq, assemble_build]
  intro sel v hv h8
  rw [Row.immediate_operand hv, h8]
  exact readImm_lt b1 b2

/-! ## The decoder -/

/-- When the decoder reads an instruction, and which (30_encoding.md R70). -/
theorem decode_cons_eq_ok_iff {m8 x8 : Bool} {op : Byte} {bytes rest : List Byte} {i : Instr} :
    decode m8 x8 (op :: bytes) = .ok (i, rest) ↔
      (opcodeRow op).size m8 x8 ≤ bytes.length ∧
        (opcodeRow op).build m8 x8 (bytes.getD 0 0) (bytes.getD 1 0) (bytes.getD 2 0) = i ∧
        bytes.drop ((opcodeRow op).size m8 x8) = rest := by
  rw [decode]
  split
  · next h => simp [h]
  · next h => simp [not_lt.mp h]

end Sys2Proof

namespace Sys2Proof.Laws.OpcodeRow

/-- Every instruction's row reads its encoding back: the laws of the constructors, in the order of `Instr`. -/
theorem statement (i : Instr) : Statement i :=
  Instr.casesOn i
    adcDirXInd adcSr adcDir adcDirIndl adcImm adcAbs adcAbsl adcDirIndY adcDirInd adcSrIndY adcDirX adcDirIndlY
    adcAbsY adcAbsX adcAbslX andDirXInd andSr andDir andDirIndl andImm andAbs andAbsl andDirIndY andDirInd
    andSrIndY andDirX andDirIndlY andAbsY andAbsX andAbslX aslDir aslAbs aslDirX aslAbsX bitDir bitAbs bitDirX
    bitAbsX bitImm cmpDirXInd cmpSr cmpDir cmpDirIndl cmpImm cmpAbs cmpAbsl cmpDirIndY cmpDirInd cmpSrIndY
    cmpDirX cmpDirIndlY cmpAbsY cmpAbsX cmpAbslX cpxImm cpxDir cpxAbs cpyImm cpyDir cpyAbs decDir decAbs
    decDirX decAbsX eorDirXInd eorSr eorDir eorDirIndl eorImm eorAbs eorAbsl eorDirIndY eorDirInd eorSrIndY
    eorDirX eorDirIndlY eorAbsY eorAbsX eorAbslX incDir incAbs incDirX incAbsX ldaDirXInd ldaSr ldaDir
    ldaDirIndl ldaImm ldaAbs ldaAbsl ldaDirIndY ldaDirInd ldaSrIndY ldaDirX ldaDirIndlY ldaAbsY ldaAbsX
    ldaAbslX ldxImm ldxDir ldxAbs ldxDirY ldxAbsY ldyImm ldyDir ldyAbs ldyDirX ldyAbsX lsrDir lsrAbs lsrDirX
    lsrAbsX oraDirXInd oraSr oraDir oraDirIndl oraImm oraAbs oraAbsl oraDirIndY oraDirInd oraSrIndY oraDirX
    oraDirIndlY oraAbsY oraAbsX oraAbslX rolDir rolAbs rolDirX rolAbsX rorDir rorAbs rorDirX rorAbsX sbcDirXInd
    sbcSr sbcDir sbcDirIndl sbcImm sbcAbs sbcAbsl sbcDirIndY sbcDirInd sbcSrIndY sbcDirX sbcDirIndlY sbcAbsY
    sbcAbsX sbcAbslX staDirXInd staSr staDir staDirIndl staAbs staAbsl staDirIndY staDirInd staSrIndY staDirX
    staDirIndlY staAbsY staAbsX staAbslX stxDir stxAbs stxDirY styDir styAbs styDirX stzDir stzDirX stzAbs
    stzAbsX trbDir trbAbs tsbDir tsbAbs bcc bcs beq bmi bne bpl bra bvc bvs pea pei per brk brl cop jml jmpAbs
    jmpAbsInd jmpAbsXInd jmpAbsl jsl jsrAbs jsrAbsXInd mvn mvp rep sep wdm aslAcc decAcc incAcc lsrAcc rolAcc
    rorAcc clc cld cli clv dex dey inx iny nop sec sed sei pha phb phd phk php phx phy pla plb pld plp plx ply
    tax tay tcd tcs tdc tsc tsx txa txs txy tya tyx xce rti rtl rts stp wai xba

end Sys2Proof.Laws.OpcodeRow

namespace Sys2Proof

/-! ## The statements -/

/-- Settles O2: the row at the opcode takes the operand's bytes and makes the instruction of them. -/
theorem decodeEncodeRoundTrip : Obligations.DecodeEncodeRoundTrip := by
  intro m8 x8 i rest hwf
  obtain ⟨hsize, hbuild⟩ := Laws.OpcodeRow.statement i
  rw [encode_append, decode_cons_eq_ok_iff, hsize]
  exact ⟨by simp, hbuild m8 x8 rest hwf, List.drop_left⟩

/-- Settles O3: no operand has more than three bytes, and what a row reads is written back as it stood. -/
theorem encodeDecodeRoundTrip : Obligations.EncodeDecodeRoundTrip := by
  intro m8 x8 bytes
  cases bytes with
  | nil => exact ⟨by simp, fun i rest h => by cases h⟩
  | cons op bytes =>
    constructor
    · intro hlen
      have hsize : (opcodeRow op).size m8 x8 ≤ bytes.length :=
        (Row.size_le m8 x8 _).trans (Nat.le_of_succ_le_succ hlen)
      exact ⟨_, _, decode_cons_eq_ok_iff.mpr ⟨hsize, rfl, rfl⟩⟩
    · intro i rest h
      obtain ⟨hsize, rfl, rfl⟩ := decode_cons_eq_ok_iff.mp h
      refine ⟨wellFormed_build op m8 x8 _ _ _, ?_⟩
      rw [encode_append, assemble_build, Row.bytes_operand hsize, List.take_append_drop]

/-- Settles O4: only an immediate's bytes follow the widths. -/
theorem lengthFollowsWidths : Obligations.LengthFollowsWidths := by
  intro i m8 x8
  refine ⟨Nat.succ_pos _, Nat.succ_le_succ (Operand.length_bytes_le m8 x8 _), ?_⟩
  rw [Instr.immediate_eq]
  split
  · next sel v h => rw [length_encode, Operand.length_bytes_of_immediate h]; split <;> rfl
  · next h =>
    intro m8' x8'
    rw [encode, encode, Operand.bytes_congr h]

/-- Settles O1, by running the decoder. -/
theorem decodesSpecWords : Obligations.DecodesSpecWords := by
  unfold Obligations.DecodesSpecWords
  decide

end Sys2Proof
end

section
/-! PROOFS. The statements of 40_addressing_modes.md: the bytes of an operand through its locator (R90), and the
address of the low byte in every memory mode as a number (R94 to R108). -/

namespace Sys2Proof.Machine

/-! ## Bytes and addresses as numbers -/

/-- The high byte of a word, by a shift. -/
theorem shiftRight_setWidth_eq_hiByte (v : Word) : (v >>> 8).setWidth 8 = hiByte v := by
  have := v.isLt
  apply BitVec.eq_of_toNat_eq
  rw [hiByte_toNat, BitVec.toNat_setWidth, BitVec.toNat_ushiftRight, Nat.shiftRight_eq_div_pow]
  omega

/-- The low byte of a word, by truncation. -/
theorem setWidth_eq_loByte (v : Word) : v.setWidth 8 = loByte v := by
  apply BitVec.eq_of_toNat_eq
  rw [loByte_toNat, BitVec.toNat_setWidth]

theorem bankOf_toNat (a : Address) : (bankOf a).toNat = a.toNat / 2 ^ 16 := by
  have := a.isLt
  rw [bankOf, BitVec.extractLsb'_toNat, Nat.shiftRight_eq_div_pow]
  omega

theorem offsetOf_toNat (a : Address) : (offsetOf a).toNat = a.toNat % 2 ^ 16 := by
  rw [offsetOf, BitVec.extractLsb'_toNat, Nat.shiftRight_zero]

/-- The next address with bank wrap (20_memory.md R52). -/
theorem nextInBank_toNat (a : Address) :
    (nextInBank a).toNat = a.toNat / 2 ^ 16 * 2 ^ 16 + (a.toNat % 2 ^ 16 + 1) % 2 ^ 16 := by
  rw [nextInBank, addressOf_toNat, BitVec.toNat_add, bankOf_toNat, offsetOf_toNat]
  rfl

/-- The next address, linearly (20_memory.md R51). -/
theorem address_succ_toNat (a : Address) : (a + 1).toNat = (a.toNat + 1) % 2 ^ 24 := BitVec.toNat_add a 1

/-- An address in bank 00 is its offset. -/
theorem addressOf_zero_toNat (o : Word) : (addressOf 0 o).toNat = o.toNat := by
  rw [addressOf_toNat]; simp

/-- An index is added to an address over 24 bits, with a carry into the bank. -/
theorem add_index_toNat (a : Address) (r : Word) : (a + r.setWidth 24).toNat = (a.toNat + r.toNat) % 2 ^ 24 := by
  rw [BitVec.toNat_add, BitVec.toNat_setWidth, Nat.add_mod_mod]

/-- An index is added to `bank:offset` with a carry into the bank (R99, R103, R104, R108). -/
theorem addressOf_add_index_toNat (b : Byte) (o r : Word) :
    (addressOf b o + r.setWidth 24).toNat = (b.toNat * 2 ^ 16 + o.toNat + r.toNat) % 2 ^ 24 := by
  rw [add_index_toNat, addressOf_toNat]; rfl

/-- An offset counts modulo 2^16. -/
theorem byteAt0_mod (m : Memory) (n : Nat) : byteAt0 m (n % 2 ^ 16) = byteAt0 m n := by
  rw [byteAt0, byteAt0, Nat.mod_mod]

/-! ## The pointers of the direct modes -/

/-- The offset of `d,x`, `d,y` and of the pointer of `(d,x)`, before it is taken modulo 2^16 (R95, R96, R98). -/
def State.indexedOffset (d : Byte) (r : Word) (s : State) : Nat :=
  if s.e = true ∧ s.d.toNat % 256 = 0 then s.d.toNat / 256 * 256 + (d.toNat + r.toNat % 256) % 256
  else s.d.toNat + d.toNat + r.toNat

/-- The offset of a pointer's high byte, from that of its low byte: in the same page where the page wraps (R97 to
R99). -/
def State.pointerNext (o : Nat) (s : State) : Nat :=
  if s.e = true ∧ s.d.toNat % 256 = 0 then s.d.toNat / 256 * 256 + (o + 1) % 256 else o + 1

theorem indexedOffset_of_wraps {s : State} (h : s.pageWraps = true) (d : Byte) (r : Word) :
    s.indexedOffset d r = s.d.toNat / 256 * 256 + (d.toNat + r.toNat % 256) % 256 :=
  if_pos ((pageWraps_iff s).mp h)

theorem indexedOffset_of_not_wraps {s : State} (h : ¬s.pageWraps = true) (d : Byte) (r : Word) :
    s.indexedOffset d r = s.d.toNat + d.toNat + r.toNat :=
  if_neg (mt (pageWraps_iff s).mpr h)

theorem pointerNext_of_wraps {s : State} (h : s.pageWraps = true) (o : Nat) :
    s.pointerNext o = s.d.toNat / 256 * 256 + (o + 1) % 256 :=
  if_pos ((pageWraps_iff s).mp h)

theorem pointerNext_of_not_wraps {s : State} (h : ¬s.pageWraps = true) (o : Nat) : s.pointerNext o = o + 1 :=
  if_neg (mt (pageWraps_iff s).mpr h)

/-- The corner of U7 in terms of the pointer's offset (R98). -/
theorem pointerCorner_iff_indexedOffset (s : State) (d : Byte) :
    s.pointerCorner d = true ↔ s.e = true ∧ s.d.toNat % 256 ≠ 0 ∧ s.indexedOffset d s.x % 256 = 255 := by
  rw [pointerCorner_iff]
  refine and_congr_right fun _ => and_congr_right fun hd => ?_
  rw [State.indexedOffset, if_neg fun hw => hd hw.2]

theorem not_pageWraps_of_pointerCorner {s : State} {d : Byte} (h : s.pointerCorner d = true) :
    ¬s.pageWraps = true :=
  fun hw => ((pointerCorner_iff s d).mp h).2.1 ((pageWraps_iff s).mp hw).2

/-- The offset of the pointer of `(d,x)` where the page does not wrap. -/
theorem direct_add_toNat (s : State) (d : Byte) (r : Word) :
    (s.direct d + r).toNat = (s.d.toNat + d.toNat + r.toNat) % 2 ^ 16 := by
  rw [BitVec.toNat_add, direct_toNat, Nat.mod_add_mod]

/-- `MemReadP` of a pointer by its own offset (00_scope.md R9): the high byte comes from the same page. -/
theorem readWordP_halves_toNat (m : Memory) (o : Word) (n : Nat) (h : o.toNat = n % 2 ^ 16) :
    (m.readWordP (hiByte o) (loByte o)).toNat =
      byteAt0 m n + 256 * byteAt0 m (n % 2 ^ 16 / 256 * 256 + (n + 1) % 256) := by
  have hlow : n % 2 ^ 16 / 256 * 256 + n % 256 = n % 2 ^ 16 := by omega
  rw [readWordP_toNat m o (loByte o) n (by rw [loByte_toNat, h]; omega), h, hlow, byteAt0_mod]

/-- The pointer of `(d,x)` outside the corner of U7 (R98). -/
theorem indexedPointer_toNat {s : State} {d : Byte} (h : ¬s.pointerCorner d = true) :
    (s.indexedPointer d).toNat =
      byteAt0 s.mem (s.indexedOffset d s.x) + 256 * byteAt0 s.mem (s.pointerNext (s.indexedOffset d s.x)) := by
  rw [State.indexedPointer]
  split
  · next hw =>
    have hlow : (d + loByte s.x).toNat = (d.toNat + s.x.toNat % 256) % 256 := by
      rw [BitVec.toNat_add, loByte_toNat]
    rw [pointerNext_of_wraps hw, indexedOffset_of_wraps hw, readWordP_toNat _ _ _ _ (by rw [hlow, Nat.mod_mod])]
    congr 3 <;> omega
  · next hw =>
    rw [pointerNext_of_not_wraps hw, indexedOffset_of_not_wraps hw]
    simp only [h, Bool.false_and]
    exact readWordB_toNat _ _ _ (direct_add_toNat s d s.x)

/-- The pointer of `(d,x)` in the corner of U7: its high byte comes from the next byte or from the start of the
page (R98). -/
theorem indexedPointer_toNat_of_corner {s : State} {d : Byte} (h : s.pointerCorner d = true) :
    let o := s.indexedOffset d s.x
    (s.indexedPointer d).toNat = byteAt0 s.mem o + 256 * byteAt0 s.mem (o + 1) ∨
    (s.indexedPointer d).toNat = byteAt0 s.mem o + 256 * byteAt0 s.mem (o % 2 ^ 16 / 256 * 256) := by
  have hw := not_pageWraps_of_pointerCorner h
  have hend : (s.d.toNat + d.toNat + s.x.toNat + 1) % 256 = 0 := by
    have := ((pointerCorner_iff s d).mp h).2.2
    omega
  have ho := direct_add_toNat s d s.x
  simp only [State.indexedPointer, if_neg hw, h, Bool.true_and, indexedOffset_of_not_wraps hw]
  split
  · right; rw [readWordP_halves_toNat _ _ _ ho, hend, Nat.add_zero]
  · left; exact readWordB_toNat _ _ _ ho

/-- The pointer of `[d]` and `[d],y`: three bytes, with no page wrap (R100, R101). -/
theorem longPointer_toNat (s : State) (d : Byte) :
    (s.longPointer d).toNat = byteAt0 s.mem (s.d.toNat + d.toNat) +
      256 * byteAt0 s.mem (s.d.toNat + d.toNat + 1) + 65536 * byteAt0 s.mem (s.d.toNat + d.toNat + 2) :=
  readLongB_toNat _ _ _ (direct_toNat s d)

/-! ## The statements -/

/-- Settles O14: the high byte's address by the locator's step, the stored bytes from `writeOp_cells` and
`writeBack_cells`. -/
theorem operandAccess : Obligations.OperandAccess := by
  intro m l
  refine ⟨rfl, rfl, ?_, fun v => ⟨writeOp_cells m l .w8 v, rfl⟩, fun v => ?_⟩
  · obtain ⟨a, st⟩ := l
    cases st with
    | linear => exact address_succ_toNat a
    | bank => exact nextInBank_toNat a
  · rw [setWidth_eq_loByte, shiftRight_setWidth_eq_hiByte]
    exact ⟨writeOp_cells m l .w16 v, writeBack_cells m l .w16 v⟩

/-- Settles O15, mode by mode: an address is an offset in bank 00, a pointer in bank DB or a long pointer, with an
index added over 24 bits; for `(d,x)` the states outside the corner of U7 and those inside it. -/
theorem directModeAddresses : Obligations.DirectModeAddresses := by
  intro s d
  refine ⟨?dir, ?dirX, ?dirY, ?dirInd, ?dirIndY, longPointer_toNat s d, ?dirIndlY, fun h => ?dirXInd,
    fun h => ?corner, by simp [Addr.loc], by simp [Addr.loc]⟩
  case dir => exact (addressOf_zero_toNat _).trans (direct_toNat s d)
  case dirX => exact (addressOf_zero_toNat _).trans (directIndexed_toNat s d s.x)
  case dirY => exact (addressOf_zero_toNat _).trans (directIndexed_toNat s d s.y)
  case dirInd => rw [Addr.loc, addressOf_toNat, directPointer_toNat]; rfl
  case dirIndY => rw [Addr.loc, addressOf_add_index_toNat, directPointer_toNat]; rfl
  case dirIndlY => rw [Addr.loc, add_index_toNat, longPointer_toNat]; rfl
  case dirXInd =>
    have hcorner := mt (pointerCorner_iff_indexedOffset s d).mp h
    rw [Addr.loc, addressOf_toNat, indexedPointer_toNat hcorner]; rfl
  case corner =>
    have hcorner := (pointerCorner_iff_indexedOffset s d).mpr h
    rw [Addr.loc, addressOf_toNat]
    exact (indexedPointer_toNat_of_corner hcorner).imp (congrArg (s.db.toNat * 2 ^ 16 + ·))
      (congrArg (s.db.toNat * 2 ^ 16 + ·))

/-- Settles O16, mode by mode: an address in bank DB, a long address or an offset in bank 00, with an index added
over 24 bits. -/
theorem absoluteAndStackModeAddresses : Obligations.AbsoluteAndStackModeAddresses := by
  intro s a al d
  refine ⟨addressOf_toNat s.db a, addressOf_add_index_toNat s.db a s.x, addressOf_add_index_toNat s.db a s.y, rfl,
    add_index_toNat al s.x, ?sr, ?srIndY, rfl, by simp [Addr.loc]⟩
  case sr => exact (addressOf_zero_toNat _).trans (stackOffset_toNat s d)
  case srIndY =>
    rw [Addr.loc, addressOf_add_index_toNat, readWordB_toNat _ _ _ (stackOffset_toNat s d)]; rfl

end Sys2Proof.Machine
end

section
/-! PROOFS. The statements of 41_table5_arithmetic_logical.md: what ADC and SBC (R144 to R148), the logical
instructions, the comparisons, the shifts, loads and stores (R121 to R143) leave in every operand form. Each proof goes
through the frame of the instruction's kind: an operand read, a value stored, or a value written back. -/

namespace Sys2Proof.Machine

/-- What holds of every element of a list of two or more holds of the first and of the rest, which is not empty. -/
theorem forall_mem_cons_cons {α : Type} {P : α → Prop} {a b : α} {l : List α} :
    (∀ c ∈ a :: b :: l, P c) ↔ P a ∧ ∀ c ∈ b :: l, P c :=
  List.forall_mem_cons

/-! ## The frames, with P as a list of changes -/

/-- What an instruction with an operand to read leaves, from its effect: `t`, which is the state with the register it
loads, if any, and over it P and PC. -/
theorem readSource_status {sel : Selector} {f : (w : Width) → BitVec w.bits → State → State} {src : Source}
    {p : Byte} {changes : List (Flag × Bool)} (s t : State)
    (heffect : f (s.width sel) (src.value (s.width sel) s) s = { t with p := p }) (hp : StatusIs p s.p changes) :
    ∃ p, readSource sel f src s = .next { t with p := p, pc := t.pc + src.length (s.width sel) } ∧
      StatusIs p s.p changes :=
  ⟨p, by rw [readSource, heffect]; rfl, hp⟩

/-- What an instruction with an operand to read leaves, where its effect ends with N and Z by a result. -/
theorem readSource_setNZ {sel : Selector} {f : (w : Width) → BitVec w.bits → State → State} {src : Source}
    (s t : State) {n : Nat} (r : BitVec n)
    (heffect : f (s.width sel) (src.value (s.width sel) s) s = t.setNZ r) (hp : t.p = s.p) :
    ∃ p, readSource sel f src s = .next { t with p := p, pc := t.pc + src.length (s.width sel) } ∧
      StatusIs p s.p [(.n, r.msb), (.z, r == 0#n)] :=
  readSource_status s t heffect (hp ▸ statusIs_setNZ t r)

/-- What a store leaves. -/
theorem storeInstr_cells (sel : Selector) (v : Word) (addr : Addr) (s : State) :
    ∃ mem, storeInstr sel v addr s = .next { s with mem := mem, pc := s.pc + addr.length } ∧
      CellsWritten mem s.mem (operandCells (addr.loc s) (s.width sel) (lowPart (s.width sel) v)) :=
  ⟨_, rfl, writeOp_cells _ _ _ _⟩

/-- What a read-modify-write instruction on memory leaves, from the value it writes back and its flags. -/
theorem modifyInstr_status {v : (w : Width) → BitVec w.bits → State → BitVec w.bits × State} {addr : Addr}
    {s : State} {r : BitVec (s.width .m).bits} {p : Byte} {changes : List (Flag × Bool)}
    (hvalue : v (s.width .m) (s.operand addr (s.width .m)) s = (r, { s with p := p })) (hp : StatusIs p s.p changes) :
    ∃ p mem, modifyInstr v addr s = .next { s with p := p, mem := mem, pc := s.pc + addr.length } ∧
      CellsWritten mem s.mem (operandCells (addr.loc s) (s.width .m) r) ∧ StatusIs p s.p changes := by
  simp only [modifyInstr, hvalue]
  exact ⟨p, _, rfl, writeBack_cells _ _ _ _, hp⟩

/-- What a read-modify-write instruction on the accumulator leaves, from its value and its flags. -/
theorem modifyAcc_status {v : (w : Width) → BitVec w.bits → State → BitVec w.bits × State} {s : State}
    {r : BitVec (s.width .m).bits} {p : Byte} {changes : List (Flag × Bool)}
    (hvalue : v (s.width .m) (lowPart (s.width .m) s.a) s = (r, { s with p := p })) (hp : StatusIs p s.p changes) :
    ∃ p, modifyAcc v s = .next { s with a := putLow (s.width .m) s.a r, p := p, pc := s.pc + 1 } ∧
      StatusIs p s.p changes := by
  simp only [modifyAcc, hvalue]
  exact ⟨p, rfl, hp⟩

/-! ## ADC and SBC (R120, R137, R144 to R148) -/

/-- What ADC takes from the adder: the binary or the decimal sum by P.D (R120). -/
def State.sumOut (w : Width) (m : BitVec w.bits) (s : State) : AluOut w.bits :=
  if s.flag .d then addDec w (lowPart w s.a) m (s.flag .c) else addBin (lowPart w s.a) m (s.flag .c)

/-- What SBC takes from the adder: the binary or the decimal difference by P.D (R137). -/
def State.differenceOut (w : Width) (m : BitVec w.bits) (s : State) : AluOut w.bits :=
  if s.flag .d then subDec w (lowPart w s.a) m (s.flag .c) else subBin (lowPart w s.a) m (s.flag .c)

theorem sumOut_of_binary {s : State} (h : s.flag .d = false) (w : Width) (m : BitVec w.bits) :
    s.sumOut w m = addBin (lowPart w s.a) m (s.flag .c) := by
  simp [State.sumOut, h]

theorem sumOut_of_decimal {s : State} (h : s.flag .d = true) (w : Width) (m : BitVec w.bits) :
    s.sumOut w m = addDec w (lowPart w s.a) m (s.flag .c) := by
  simp [State.sumOut, h]

theorem differenceOut_of_binary {s : State} (h : s.flag .d = false) (w : Width) (m : BitVec w.bits) :
    s.differenceOut w m = subBin (lowPart w s.a) m (s.flag .c) := by
  simp [State.differenceOut, h]

theorem differenceOut_of_decimal {s : State} (h : s.flag .d = true) (w : Width) (m : BitVec w.bits) :
    s.differenceOut w m = subDec w (lowPart w s.a) m (s.flag .c) := by
  simp [State.differenceOut, h]

/-- `i` leaves in `s` what the adder gives: the result in the accumulator at its width, C, V, N and Z by it, PC past
an operand `src`, and nothing else changed. -/
def LeavesAluOut (i : Instr) (src : Source) (s : State) (out : AluOut (s.width .m).bits) : Prop :=
  ∃ p, exec i s = .next
      { s with a := putLow (s.width .m) s.a out.r, p := p, pc := s.pc + src.length (s.width .m) } ∧
    StatusIs p s.p [(.n, out.r.msb), (.v, out.v), (.z, out.r == 0#_), (.c, out.c)]

/-- ADC in every form leaves the sum. -/
theorem leavesAluOut_adc (f : AccForm) (s : State) :
    LeavesAluOut f.adc f.source s (s.sumOut (s.width .m) (f.source.value (s.width .m) s)) := by
  rw [LeavesAluOut, exec_adc]
  exact readSource_status s { s with a := _ } rfl (statusIs_arith _ _ _ _)

/-- SBC in every form leaves the difference. -/
theorem leavesAluOut_sbc (f : AccForm) (s : State) :
    LeavesAluOut f.sbc f.source s (s.differenceOut (s.width .m) (f.source.value (s.width .m) s)) := by
  rw [LeavesAluOut, exec_sbc]
  exact readSource_status s { s with a := _ } rfl (statusIs_arith _ _ _ _)

/-- What the adder gives is left by an instruction that completes. -/
theorem LeavesAluOut.completes {i : Instr} {src : Source} {s : State} {out : AluOut (s.width .m).bits}
    (h : LeavesAluOut i src s out) :
    ∃ (r : BitVec (s.width .m).bits) (v c : Bool) (p : Byte), exec i s = .next
        { s with a := putLow (s.width .m) s.a r, p := p, pc := s.pc + src.length (s.width .m) } ∧
      StatusIs p s.p [(.n, r.msb), (.v, v), (.z, r == 0#_), (.c, c)] :=
  let ⟨p, hexec, hp⟩ := h
  ⟨out.r, out.v, out.c, p, hexec, hp⟩

/-- The decimal sum of two spelled numbers spells their sum, with the decimal carry (R147). -/
theorem addDec_spell (w : Width) {x y : Nat} (hx : x < 10 ^ (w.bits / 4)) (hy : y < 10 ^ (w.bits / 4)) (cin : Bool) :
    ∃ v, addDec w (BitVec.ofNat w.bits (bcdSpell (w.bits / 4) x)) (BitVec.ofNat w.bits (bcdSpell (w.bits / 4) y))
        cin =
      { r := BitVec.ofNat w.bits (bcdSpell (w.bits / 4) ((x + y + cin.toNat) % 10 ^ (w.bits / 4)))
        c := decide (10 ^ (w.bits / 4) ≤ x + y + cin.toNat)
        v := v } := by
  simp only [addDec, bothBcd_spell, if_true, digits_eq, bcdSpell_toNat, bcdValue_bcdSpell _ _ hx,
    bcdValue_bcdSpell _ _ hy]
  exact ⟨_, rfl⟩

/-- A difference with borrow, modulo a bound of both numbers, in the natural numbers. -/
theorem sub_borrow_emod {n x y borrow : Nat} (hy : y < n) (hb : borrow ≤ 1) :
    (((x : Int) - y - borrow) % n).toNat = (n + x - (y + borrow)) % n := by
  have hle : y + borrow ≤ n + x := by omega
  have h : ((n + x - (y + borrow) : Nat) : Int) = (x : Int) - y - borrow + n := by push_cast [Nat.cast_sub hle]; ring
  rw [← Int.toNat_natCast ((n + x - (y + borrow)) % n), Int.natCast_emod, h, Int.add_emod_right]

/-- The decimal difference of two spelled numbers spells their difference, with the borrow (R148). -/
theorem subDec_spell (w : Width) {x y : Nat} (hx : x < 10 ^ (w.bits / 4)) (hy : y < 10 ^ (w.bits / 4)) (cin : Bool) :
    ∃ v, subDec w (BitVec.ofNat w.bits (bcdSpell (w.bits / 4) x)) (BitVec.ofNat w.bits (bcdSpell (w.bits / 4) y))
        cin =
      { r := BitVec.ofNat w.bits
          (bcdSpell (w.bits / 4) ((10 ^ (w.bits / 4) + x - (y + (1 - cin.toNat))) % 10 ^ (w.bits / 4)))
        c := decide (y + (1 - cin.toNat) ≤ x)
        v := v } := by
  have hcin : (1 : Int) - cin.toNat = (1 - cin.toNat : Nat) := by cases cin <;> rfl
  have hmod := sub_borrow_emod (x := x) hy (Nat.sub_le 1 cin.toNat)
  have hc : (0 ≤ (x : Int) - y - (1 - cin.toNat : Nat)) ↔ y + (1 - cin.toNat) ≤ x := by omega
  push_cast only [Nat.cast_pow, Nat.cast_ofNat] at hmod
  simp only [subDec, bothBcd_spell, if_true, digits_eq, bcdSpell_toNat, bcdValue_bcdSpell _ _ hx,
    bcdValue_bcdSpell _ _ hy, hcin, hmod, hc]
  exact ⟨_, rfl⟩

/-- Settles O17: the adder's sum, with V as the range of the signed sum. -/
theorem adcBinary : Obligations.AdcBinary := by
  intro f s hd
  refine ⟨by cases f <;> rfl, ?_⟩
  have h := leavesAluOut_adc f s
  rw [sumOut_of_binary hd, LeavesAluOut, addBin_v] at h
  exact h

/-- Settles O18: the sum with the complement is the difference less the borrow. -/
theorem sbcBinary : Obligations.SbcBinary := by
  intro f s hd
  refine ⟨by cases f <;> rfl, ?_⟩
  have h := leavesAluOut_sbc f s
  rw [differenceOut_of_binary hd, LeavesAluOut, subBin_r, subBin_v, subBin_c] at h
  exact h

/-- Settles O19: the decimal adder on spelled numbers. -/
theorem adcDecimal : Obligations.AdcDecimal := by
  intro f s x y hd w k n r hx hy ha hm
  obtain ⟨v, hout⟩ := addDec_spell w hx hy (s.flag .c)
  have h := leavesAluOut_adc f s
  rw [sumOut_of_decimal hd, ha, hm, hout] at h
  obtain ⟨p, hexec, hp⟩ := h
  exact ⟨p, v, hexec, hp⟩

/-- Settles O20: the decimal subtraction on spelled numbers. -/
theorem sbcDecimal : Obligations.SbcDecimal := by
  intro f s x y hd w k borrow r hx hy ha hm
  obtain ⟨v, hout⟩ := subDec_spell w hx hy (s.flag .c)
  have h := leavesAluOut_sbc f s
  rw [differenceOut_of_decimal hd, ha, hm, hout] at h
  obtain ⟨p, hexec, hp⟩ := h
  exact ⟨p, v, hexec, hp⟩

/-- Settles O21: ADC and SBC leave what the adder gives, whatever it is. -/
theorem decimalAnyOperand : Obligations.DecimalAnyOperand := by
  intro f s _ w
  simp only [forall_mem_cons_cons, List.forall_mem_singleton]
  exact ⟨(leavesAluOut_adc f s).completes, (leavesAluOut_sbc f s).completes⟩

/-! ## Logic and tests of bits (R121, R123, R128, R134, R142, R143) -/

/-- What an instruction of the logical kind leaves: the result in the accumulator, N and Z by it. -/
theorem readSource_logic (op : (w : Width) → BitVec w.bits → BitVec w.bits → BitVec w.bits) (src : Source)
    (s : State) :
    let r := op (s.width .m) (lowPart (s.width .m) s.a) (src.value (s.width .m) s)
    ∃ p, readSource .m (logicWith op) src s = .next
        { s with a := putLow (s.width .m) s.a r, p := p, pc := s.pc + src.length (s.width .m) } ∧
      StatusIs p s.p [(.n, r.msb), (.z, r == 0#_)] :=
  readSource_setNZ s { s with a := _ } _ rfl rfl

/-- P after Z alone has been written, from A AND the operand (R123, note 8). -/
theorem statusIs_bitZero (w : Width) (m : BitVec w.bits) (s : State) :
    StatusIs (bitZero w m s).p s.p [(.z, lowPart w s.a &&& m == 0#w.bits)] :=
  statusIs_put .z _ (statusIs_refl s.p)

/-- P after BIT of a memory operand (R123). -/
theorem statusIs_bitMemory (w : Width) (m : BitVec w.bits) (s : State) :
    StatusIs (bitMemory w m s).p s.p
      [(.n, m.getLsbD (w.bits - 1)), (.v, m.getLsbD (w.bits - 2)), (.z, lowPart w s.a &&& m == 0#w.bits)] := by
  rw [← BitVec.msb_eq_getLsbD_last]
  exact statusIs_congr (statusIs_put .v _ (statusIs_put .n _ (statusIs_bitZero w m s)))
    (by intro f; cases f <;> rfl)

/-- What BIT of a memory operand leaves. -/
theorem readSource_bitMemory (src : Source) (s : State) :
    let m := src.value (s.width .m) s
    ∃ p, readSource .m bitMemory src s = .next { s with p := p, pc := s.pc + src.length (s.width .m) } ∧
      StatusIs p s.p [(.n, m.getLsbD ((s.width .m).bits - 1)), (.v, m.getLsbD ((s.width .m).bits - 2)),
        (.z, lowPart (s.width .m) s.a &&& m == 0#_)] :=
  readSource_status s s rfl (statusIs_bitMemory _ _ _)

/-- Settles O22: AND, ORA and EOR are the logical kind at three operations. -/
theorem logicResult : Obligations.LogicResult := by
  intro f s w a m
  refine ⟨by cases f <;> rfl, by cases f <;> rfl, by cases f <;> rfl, ?_⟩
  simp only [forall_mem_cons_cons, List.forall_mem_singleton, exec_and, exec_ora, exec_eor]
  exact ⟨readSource_logic andOp f.source s, readSource_logic oraOp f.source s, readSource_logic eorOp f.source s⟩

/-- Settles O23: the immediate form writes Z alone, the memory forms N, V and Z. -/
theorem bitTest : Obligations.BitTest := by
  intro f s w m z
  refine ⟨by cases f <;> rfl, ?_⟩
  rw [exec_bit]
  cases f with
  | imm => exact readSource_status s s rfl (statusIs_bitZero _ _ s)
  | dir | dirX | abs | absX => exact readSource_bitMemory _ s

/-- Settles O29: TRB and TSB write back the changed operand and set Z alone. -/
theorem testAndChangeBits : Obligations.TestAndChangeBits := by
  intro f s w a m
  refine ⟨by cases f <;> rfl, by cases f <;> rfl, ?_⟩
  simp only [forall_mem_cons_cons, List.forall_mem_singleton, exec_trb, exec_tsb]
  exact ⟨modifyInstr_status rfl (statusIs_bitZero w m s), modifyInstr_status rfl (statusIs_bitZero w m s)⟩

/-! ## Comparisons (R124 to R126, R145) -/

/-- What a comparison leaves. -/
theorem readSource_compare (sel : Selector) (reg : State → Word) (src : Source) (s : State) :
    let r := lowPart (s.width sel) (reg s)
    let m := src.value (s.width sel) s
    ∃ p, readSource sel (compareWith reg) src s = .next { s with p := p, pc := s.pc + src.length (s.width sel) } ∧
      StatusIs p s.p [(.n, (r - m).msb), (.z, r == m), (.c, decide (m.toNat ≤ r.toNat))] :=
  readSource_status s s rfl (statusIs_compare s _ _ _)

/-- Settles O24: CMP, CPX and CPY are comparisons with A, X and Y. -/
theorem compareResult : Obligations.CompareResult := by
  refine fun s => ⟨fun f => ⟨by cases f <;> rfl, ?_⟩, fun f => ⟨by cases f <;> rfl, by cases f <;> rfl, ?_⟩⟩
  · rw [exec_cmp]
    exact readSource_compare .m State.a f.source s
  · simp only [forall_mem_cons_cons, List.forall_mem_singleton, exec_cpx, exec_cpy]
    exact ⟨readSource_compare .x State.x f.source s, readSource_compare .x State.y f.source s⟩

/-! ## Increments, decrements, shifts and rotations (R122, R127, R129, R133, R135, R136) -/

/-- Settles O25: one more or one less is written back, with N and Z by it. -/
theorem incrementDecrement : Obligations.IncrementDecrement := by
  refine fun s => ⟨rfl, rfl, ?_, fun f => ⟨by cases f <;> rfl, by cases f <;> rfl, ?_⟩⟩
  · simp only [forall_mem_cons_cons, List.forall_mem_singleton]
    exact ⟨modifyAcc_status (v := incValue) rfl (statusIs_setNZ s _),
      modifyAcc_status (v := decValue) rfl (statusIs_setNZ s _)⟩
  · simp only [forall_mem_cons_cons, List.forall_mem_singleton, exec_inc, exec_dec]
    exact ⟨modifyInstr_status rfl (statusIs_setNZ s _), modifyInstr_status rfl (statusIs_setNZ s _)⟩

/-- ASL by arithmetic on the operand (R122). -/
theorem aslValue_eq (w : Width) (b : BitVec w.bits) (s : State) :
    aslValue w b s = shiftResult (BitVec.ofNat w.bits (2 * b.toNat)) (b.getLsbD (w.bits - 1)) s := by
  rw [ofNat_shl, ← BitVec.msb_eq_getLsbD_last, aslValue]

/-- LSR by arithmetic on the operand (R133). -/
theorem lsrValue_eq (w : Width) (b : BitVec w.bits) (s : State) :
    lsrValue w b s = shiftResult (BitVec.ofNat w.bits (b.toNat / 2)) (b.getLsbD 0) s := by
  rw [ofNat_shr, lsrValue]

/-- ROL by arithmetic on the operand and C (R135). -/
theorem rolValue_eq (w : Width) (b : BitVec w.bits) (s : State) :
    rolValue w b s =
      shiftResult (BitVec.ofNat w.bits (2 * b.toNat + (s.flag .c).toNat)) (b.getLsbD (w.bits - 1)) s := by
  rw [ofNat_rol, ← BitVec.msb_eq_getLsbD_last, rolValue]

/-- ROR by arithmetic on the operand and C (R136). -/
theorem rorValue_eq (w : Width) (b : BitVec w.bits) (s : State) :
    rorValue w b s =
      shiftResult (BitVec.ofNat w.bits ((s.flag .c).toNat * 2 ^ (w.bits - 1) + b.toNat / 2)) (b.getLsbD 0) s := by
  rw [ofNat_ror, rorValue]

/-- Settles O26: each shift or rotation by its arithmetic, on memory and on the accumulator. -/
theorem shiftsAndRotations : Obligations.ShiftsAndRotations := by
  refine fun s =>
    ⟨fun f => ⟨by cases f <;> rfl, by cases f <;> rfl, by cases f <;> rfl, by cases f <;> rfl, ?_⟩, ?_⟩
  · simp only [forall_mem_cons_cons, List.forall_mem_singleton, exec_asl, exec_lsr, exec_rol, exec_ror]
    exact ⟨modifyInstr_shift _ _ _ _ _ (aslValue_eq _ _ s), modifyInstr_shift _ _ _ _ _ (lsrValue_eq _ _ s),
      modifyInstr_shift _ _ _ _ _ (rolValue_eq _ _ s), modifyInstr_shift _ _ _ _ _ (rorValue_eq _ _ s)⟩
  · simp only [forall_mem_cons_cons, List.forall_mem_singleton]
    exact ⟨⟨rfl, modifyAcc_shift aslValue _ _ _ (aslValue_eq _ _ s)⟩,
      ⟨rfl, modifyAcc_shift lsrValue _ _ _ (lsrValue_eq _ _ s)⟩,
      ⟨rfl, modifyAcc_shift rolValue _ _ _ (rolValue_eq _ _ s)⟩,
      ⟨rfl, modifyAcc_shift rorValue _ _ _ (rorValue_eq _ _ s)⟩⟩

/-! ## Loads and stores (R130 to R132, R138 to R141) -/

/-- Settles O27: a load writes one register and sets N and Z by the operand. -/
theorem loadRegister : Obligations.LoadRegister := by
  refine fun s => ⟨fun f => ⟨by cases f <;> rfl, ?_⟩, fun f => ⟨by cases f <;> rfl, ?_⟩,
    fun f => ⟨by cases f <;> rfl, ?_⟩⟩
  · rw [exec_lda]; exact readSource_setNZ s { s with a := putLow _ s.a _ } _ rfl rfl
  · rw [exec_ldx]; exact readSource_setNZ s { s with x := putLow _ s.x _ } _ rfl rfl
  · rw [exec_ldy]; exact readSource_setNZ s { s with y := putLow _ s.y _ } _ rfl rfl

/-- The low part of zero, which STZ stores. -/
theorem lowPart_zero (w : Width) : lowPart w 0 = 0 := BitVec.setWidth_zero _ _

/-- Settles O28: STA, STX, STY and STZ are stores of A, X, Y and zero. -/
theorem storeRegister : Obligations.StoreRegister := by
  refine fun s => ⟨fun f => ⟨by cases f <;> rfl, ?_⟩, fun f => ⟨by cases f <;> rfl, ?_⟩,
    fun f => ⟨by cases f <;> rfl, ?_⟩, fun f => ⟨by cases f <;> rfl, ?_⟩⟩
  · rw [exec_sta]; exact storeInstr_cells .m s.a f.addr s
  · rw [exec_stx]; exact storeInstr_cells .x s.x f.addr s
  · rw [exec_sty]; exact storeInstr_cells .x s.y f.addr s
  · rw [exec_stz, ← lowPart_zero]; exact storeInstr_cells .m 0 f.addr s

end Sys2Proof.Machine
end

section
/-! PROOFS. The statements of 42_table6_branch_flag_index.md: the short branches (R150 to R159), the flag instructions
(R160 to R163, R169 to R171), the index steps (R164 to R167) and NOP (R168). Each group runs one shared operation, whose
law is said once and taken at the conditions, flags and differences of the table. -/

namespace Sys2Proof.Machine

/-! ## Branches (R150 to R159) -/

/-- A signed offset added to the offset of the next instruction, as arithmetic modulo 2^16 (R113). -/
theorem add_eq_ofInt (pc len offset : Word) :
    pc + len + offset = BitVec.ofInt 16 (pc.toNat + len.toNat + offset.toInt) := by
  simp only [BitVec.ofInt_add, BitVec.ofInt_natCast, BitVec.ofNat_toNat, BitVec.setWidth_eq, BitVec.ofInt_toInt]

/-- An 8-bit offset is extended by its sign (R150). -/
theorem toInt_signExtend_byte (r : Byte) : (r.signExtend 16).toInt = r.toInt :=
  BitVec.toInt_signExtend_of_le (by decide)

/-- The common rule of the short branches, with the target as a number (R150). -/
theorem branchIf_eq (cond : Bool) (r : Byte) (s : State) :
    branchIf cond r s =
      .next { s with pc := if cond then BitVec.ofInt 16 (s.pc.toNat + 2 + r.toInt) else s.pc + 2 } := by
  cases cond with
  | false => rfl
  | true =>
    have htarget : s.pc + 2 + r.signExtend 16 = BitVec.ofInt 16 (s.pc.toNat + 2 + r.toInt) := by
      rw [← toInt_signExtend_byte]
      exact add_eq_ofInt s.pc 2 (r.signExtend 16)
    simp only [branchIf, htarget, if_true]

/-- Settles O30: each short branch is the common rule at its condition. -/
theorem shortBranches : Obligations.ShortBranches := by
  intro r s
  simp only [forall_mem_cons_cons, List.forall_mem_singleton]
  exact ⟨⟨rfl, branchIf_eq _ r s⟩, ⟨rfl, branchIf_eq _ r s⟩, ⟨rfl, branchIf_eq _ r s⟩, ⟨rfl, branchIf_eq _ r s⟩,
    ⟨rfl, branchIf_eq _ r s⟩, ⟨rfl, branchIf_eq _ r s⟩, ⟨rfl, branchIf_eq _ r s⟩, ⟨rfl, branchIf_eq _ r s⟩,
    ⟨rfl, branchIf_eq _ r s⟩⟩

/-! ## Flags (R160 to R163, R169 to R171) -/

/-- What a flag instruction leaves: one flag of P is written, and PC is past its one byte. -/
theorem flagInstr_status (f : Flag) (b : Bool) (s : State) :
    ∃ p, flagInstr f b s = .next { s with p := p, pc := s.pc + 1 } ∧ StatusIs p s.p [(f, b)] :=
  ⟨_, rfl, statusIs_put f b (statusIs_refl s.p)⟩

/-- Settles O32: each flag instruction writes its flag. -/
theorem flagInstructions : Obligations.FlagInstructions := by
  intro s
  simp only [forall_mem_cons_cons, List.forall_mem_singleton]
  exact ⟨⟨rfl, flagInstr_status .c false s⟩, ⟨rfl, flagInstr_status .d false s⟩, ⟨rfl, flagInstr_status .i false s⟩,
    ⟨rfl, flagInstr_status .v false s⟩, ⟨rfl, flagInstr_status .c true s⟩, ⟨rfl, flagInstr_status .d true s⟩,
    ⟨rfl, flagInstr_status .i true s⟩⟩

/-! ## Index steps and NOP (R164 to R168) -/

/-- The low part of one more. -/
theorem lowPart_add_one (w : Width) (r : Word) : lowPart w (r + 1) = lowPart w r + 1#w.bits := by
  rw [lowPart_add]
  cases w <;> rfl

/-- The low part of one less, which DEX and DEY take as an addition of $FFFF. -/
theorem lowPart_add_neg_one (w : Width) (r : Word) : lowPart w (r + 0xFFFF) = lowPart w r - 1#w.bits := by
  rw [lowPart_add, BitVec.sub_eq_add_neg]
  cases w <;> rfl

/-- What a step of X leaves, from the low part it steps to. -/
theorem stepX_status {delta : Word} {s : State} {r : BitVec (s.width .x).bits}
    (hr : lowPart (s.width .x) (s.x + delta) = r) :
    ∃ p, stepX delta s = .next { s with x := putLow (s.width .x) s.x r, p := p, pc := s.pc + 1 } ∧
      StatusIs p s.p [(.n, r.msb), (.z, r == 0#_)] := by
  subst hr
  exact ⟨_, rfl, statusIs_setNZ s _⟩

/-- What a step of Y leaves, from the low part it steps to. -/
theorem stepY_status {delta : Word} {s : State} {r : BitVec (s.width .x).bits}
    (hr : lowPart (s.width .x) (s.y + delta) = r) :
    ∃ p, stepY delta s = .next { s with y := putLow (s.width .x) s.y r, p := p, pc := s.pc + 1 } ∧
      StatusIs p s.p [(.n, r.msb), (.z, r == 0#_)] := by
  subst hr
  exact ⟨_, rfl, statusIs_setNZ s _⟩

/-- Settles O33: the four are steps of X or Y by one more or one less. -/
theorem indexSteps : Obligations.IndexSteps := by
  refine fun s => ⟨rfl, rfl, rfl, rfl, ?_, ?_⟩
  · simp only [forall_mem_cons_cons, List.forall_mem_singleton]
    exact ⟨stepX_status (lowPart_add_one _ s.x), stepX_status (lowPart_add_neg_one _ s.x)⟩
  · simp only [forall_mem_cons_cons, List.forall_mem_singleton]
    exact ⟨stepY_status (lowPart_add_one _ s.y), stepY_status (lowPart_add_neg_one _ s.y)⟩

/-- Settles O34: NOP is the advance of PC past its one byte. -/
theorem nopAdvances : Obligations.NopAdvances := fun _ => ⟨rfl, rfl⟩

end Sys2Proof.Machine
end

section
/-! PROOFS. The statements of 43_table6_push_pull.md: the pushes (R180 to R189) and the pulls (R190 to R195). Each
instruction runs one shared operation, a push or a pull of a byte or of a word, whose law says the whole next state;
where 93_implementation_defined.md U6 leaves the lock of SH open, the law holds under either lock. -/

namespace Sys2Proof.Machine

/-! ## Pushes (R180 to R189) -/

/-- What an instruction that pushes one byte leaves (R184, R186, R187). -/
theorem pushByte_cells (v : Byte) (s : State) :
    ∃ mem, pushByte v s = .next { s with mem := mem, pc := s.pc + 1, sp := movedStack s.e s.sp 0xFFFF } ∧
      CellsWritten mem s.mem [(addressOf 0 s.sp, v)] :=
  ⟨_, by rw [← push_perByte_sp v s]; rfl, cellsWritten_one _ _ _⟩

/-- What a push of a register leaves: its low byte where it is `narrow`, and else its bytes, high byte first (R183,
R188, R189). -/
theorem pushReg_cells (narrow : Bool) (r : Word) (s : State) :
    ∃ mem, pushReg (if narrow then .w8 else .w16) r s = .next
        { s with mem := mem, pc := s.pc + 1,
                 sp := movedStack s.e s.sp (if narrow then 0xFFFF else 0xFFFE) } ∧
      CellsWritten mem s.mem
        (pushedCells .perByte s.e (if narrow then [loByte r] else [hiByte r, loByte r]) s.sp) := by
  cases narrow with
  | true => exact pushByte_cells (loByte r) s
  | false =>
    refine ⟨_, ?_, pushAll_written .perByte (wordBytes r) s (by simp [wordBytes])⟩
    change pushReg .w16 r s = _
    rw [pushReg, wordBytes, pushAll_perByte_eq]
    rfl

/-- What a push of one word by an instruction that the 6502 lacks leaves: the lock is per byte but with E = 1 and
SL = $00 (R180 to R182, R185; U6, log 8). -/
theorem pushNewWord_cells (op : NewStackOp) (v len : Word) (s : State) :
    ∃ (lock : StackLock) (mem : Memory), pushNewWord op v len s = .next
        { s with mem := mem, pc := s.pc + len, sp := movedStack s.e s.sp 0xFFFE } ∧
      CellsWritten mem s.mem (pushedCells lock s.e [hiByte v, loByte v] s.sp) ∧
      (¬(s.e = true ∧ loByte s.sp = 0x00) → lock = .perByte) := by
  refine ⟨newPushLock op 2 s, _, ?_, pushAll_written _ (wordBytes v) s (by simp [wordBytes]), fun h => ?_⟩
  · rw [pushNewWord, wordBytes, pushAll_lockStack_eq]
    rfl
  · refine newPushLock_perByte op 2 s fun ⟨he, hlow⟩ => h ⟨he, ?_⟩
    exact BitVec.eq_of_toNat_eq (show (loByte s.sp).toNat = 0 by omega)

/-- Settles O36: the three are pushes of A at the accumulator's width and of X and Y at the index width. -/
theorem pushRegister : Obligations.PushRegister := by
  intro s
  simp only [forall_mem_cons_cons, List.forall_mem_singleton]
  exact ⟨⟨rfl, pushReg_cells s.m8 s.a s⟩, ⟨rfl, pushReg_cells s.x8 s.x s⟩, ⟨rfl, pushReg_cells s.x8 s.y s⟩⟩

/-- Settles O37: the three are pushes of the byte DB, PB or P. -/
theorem pushOneByte : Obligations.PushOneByte := by
  intro s
  simp only [forall_mem_cons_cons, List.forall_mem_singleton]
  exact ⟨⟨rfl, pushByte_cells s.db s⟩, ⟨rfl, pushByte_cells s.pb s⟩, ⟨rfl, pushByte_cells s.p s⟩⟩

/-- Settles O38: the four are pushes of one word by new instructions; PER's is a sum modulo 2^16. -/
theorem pushWord : Obligations.PushWord := by
  intro v r d s o
  have hper : s.pc + 3 + r = BitVec.ofInt 16 (s.pc.toNat + 3 + r.toInt) := add_eq_ofInt s.pc 3 r
  simp only [forall_mem_cons_cons, List.forall_mem_singleton]
  exact ⟨⟨rfl, pushNewWord_cells .pea v 3 s⟩, ⟨rfl, pushNewWord_cells .pei (s.mem.readWordB 0 o) 2 s⟩,
    ⟨rfl, hper ▸ pushNewWord_cells .per (s.pc + 3 + r) 3 s⟩, ⟨rfl, pushNewWord_cells .phd s.d 1 s⟩⟩

/-! ## Pulls (R190 to R195) -/

/-- A pull of a register at 8 bits: the byte above S (R190, R194, R195). -/
theorem pullReg_w8 {sel : Selector} {s : State} (f : (w : Width) → BitVec w.bits → State → State)
    (hw : s.width sel = .w8) :
    pullReg sel f s = .next ((f .w8 (pulled s 1) { s with sp := movedStack s.e s.sp 1 }).advance 1) := by
  rw [pulled, ← pull8_fst, ← pull8_eq, pullReg, hw]

/-- A pull of a register at 16 bits: the two bytes above S, low byte first (R190, R194, R195). -/
theorem pullReg_w16 {sel : Selector} {s : State} (f : (w : Width) → BitVec w.bits → State → State)
    (hw : s.width sel = .w16) :
    pullReg sel f s =
      .next ((f .w16 (pulled s 2 ++ pulled s 1) { s with sp := movedStack s.e s.sp 2 }).advance 1) := by
  rw [pulled, pulled, ← pull16_fst, ← pull16_eq, pullReg, hw]

/-- Settles O40: each pull at a width puts the value in its register and sets N and Z by it. -/
theorem pullRegister : Obligations.PullRegister := by
  refine fun s => ⟨rfl, rfl, rfl, fun h => ?_, fun h => ?_, fun h => ?_, fun h => ?_⟩
  · exact ⟨_, pullReg_w8 pulledA (by rw [width_m, h]; rfl), statusIs_setNZ s _⟩
  · exact ⟨_, pullReg_w16 pulledA (by rw [width_m, h]; rfl), statusIs_setNZ s _⟩
  · have hw : s.width .x = .w8 := by rw [width_x, h]; rfl
    exact ⟨_, pullReg_w8 pulledX hw, pullReg_w8 pulledY hw, statusIs_setNZ s _⟩
  · have hw : s.width .x = .w16 := by rw [width_x, h]; rfl
    exact ⟨_, pullReg_w16 pulledX hw, pullReg_w16 pulledY hw, statusIs_setNZ s _⟩

/-- A pull of one byte and the lock at the instruction's end, whole, under either lock. -/
theorem pull8_lockStack_eq (s : State) (lock : StackLock) :
    (s.pull8 lock).2.lockStack = { s with sp := movedStack s.e s.sp 1 } := by
  rw [← pull8_locked s lock]; rfl

/-- A pull of one word and the lock at the instruction's end, whole, under either lock. -/
theorem pull16_lockStack_eq (s : State) (lock : StackLock) :
    (s.pull16 lock).2.lockStack = { s with sp := movedStack s.e s.sp 2 } := by
  rw [← pull16_locked s lock]; rfl

/-- Outside SL = $FF with E = 1 a pull of one byte is under the lock per byte (U6, log 8). -/
theorem newPullLock_byte {s : State} (op : NewStackOp) (h : ¬(s.e = true ∧ loByte s.sp = 0xFF)) :
    newPullLock op 1 s = .perByte := by
  refine newPullLock_perByte op 1 s fun ⟨he, hlow⟩ => h ⟨he, ?_⟩
  have hlt := (loByte s.sp).isLt
  exact BitVec.eq_of_toNat_eq (show (loByte s.sp).toNat = 255 by omega)

/-- Outside SL = $FE and $FF with E = 1 a pull of one word is under the lock per byte (U6, log 8). -/
theorem newPullLock_word {s : State} (op : NewStackOp) (h : ¬(s.e = true ∧ 0xFE#8 ≤ loByte s.sp)) :
    newPullLock op 2 s = .perByte := by
  refine newPullLock_perByte op 2 s fun ⟨he, hlow⟩ => h ⟨he, ?_⟩
  exact BitVec.le_def.mpr (show 254 ≤ (loByte s.sp).toNat by omega)

/-- PLB, whole (R191). -/
theorem execPlb_eq (s : State) :
    let b := s.mem.read (pullAddress (newPullLock .plb 1 s) s.e s.sp 1)
    execPlb s = .next
      { s with db := b, p := (s.setNZ b).p, pc := s.pc + 1, sp := movedStack s.e s.sp 1 } := by
  simp only [execPlb, pull8_lockStack_eq, pull8_fst]
  rfl

/-- PLD, whole (R192). -/
theorem execPld_eq (s : State) :
    let lock := newPullLock .pld 2 s
    let v := s.mem.read (pullAddress lock s.e s.sp 2) ++ s.mem.read (pullAddress lock s.e s.sp 1)
    execPld s = .next
      { s with d := v, p := (s.setNZ v).p, pc := s.pc + 1, sp := movedStack s.e s.sp 2 } := by
  simp only [execPld, pull16_lockStack_eq, pull16_fst]
  rfl

/-- Settles O41: the byte or the word is pulled under the lock of the instruction, which is open only where U6 says. -/
theorem pullBankAndDirect : Obligations.PullBankAndDirect := fun s =>
  ⟨rfl, rfl,
    ⟨newPullLock .plb 1 s, _, execPlb_eq s, statusIs_setNZ s _, newPullLock_byte .plb⟩,
    ⟨newPullLock .pld 2 s, _, execPld_eq s, statusIs_setNZ s _, newPullLock_word .pld⟩⟩

/-- Settles O42: P is the byte above S, written by `WriteP` (10_state.md R37). -/
theorem pullStatus : Obligations.PullStatus := by
  refine fun s => ⟨rfl, ?_⟩
  have hpull : exec .plp s = .next (((s.pull8 .perByte).2.writeP (s.pull8 .perByte).1).advance 1) := rfl
  rw [hpull, pull8_eq, pull8_fst, writeP_spec]
  rfl

end Sys2Proof.Machine
end

section
/-! PROOFS. The statements of 44_table6_transfer.md: the transfers at the width of their destination (R200, R201, R206,
R207, R209 to R211), the transfers of 16 bits (R202 to R205, R208) and XCE (R212). The sized transfers
run one shared operation for each destination, whose law says the whole next state; XCE has a law for each mode it can
enter. -/

namespace Sys2Proof.Machine

/-! ## Transfers -/

/-- What a transfer into A at the accumulator width leaves (R207, R210). -/
theorem toA_status (v : Word) (s : State) :
    let low := lowPart (s.width .m) v
    ∃ p, toA v s = .next { s with a := putLow (s.width .m) s.a low, p := p, pc := s.pc + 1 } ∧
      StatusIs p s.p [(.n, low.msb), (.z, low == 0#_)] :=
  ⟨_, rfl, statusIs_setNZ s _⟩

/-- What a transfer into X at the index width leaves (R200, R206, R211). -/
theorem toX_status (v : Word) (s : State) :
    let low := lowPart (s.width .x) v
    ∃ p, toX v s = .next { s with x := putLow (s.width .x) s.x low, p := p, pc := s.pc + 1 } ∧
      StatusIs p s.p [(.n, low.msb), (.z, low == 0#_)] :=
  ⟨_, rfl, statusIs_setNZ s _⟩

/-- What a transfer into Y at the index width leaves (R201, R209). -/
theorem toY_status (v : Word) (s : State) :
    let low := lowPart (s.width .x) v
    ∃ p, toY v s = .next { s with y := putLow (s.width .x) s.y low, p := p, pc := s.pc + 1 } ∧
      StatusIs p s.p [(.n, low.msb), (.z, low == 0#_)] :=
  ⟨_, rfl, statusIs_setNZ s _⟩

/-- Settles O44: the seven are transfers into A at the accumulator width and into X or Y at the index width. -/
theorem sizedTransfers : Obligations.SizedTransfers := by
  intro s
  simp only [forall_mem_cons_cons, List.forall_mem_singleton]
  exact ⟨⟨⟨rfl, toA_status s.x s⟩, ⟨rfl, toA_status s.y s⟩⟩,
    ⟨⟨rfl, toX_status s.a s⟩, ⟨rfl, toX_status s.sp s⟩, ⟨rfl, toX_status s.y s⟩⟩,
    ⟨rfl, toY_status s.a s⟩, ⟨rfl, toY_status s.x s⟩⟩

/-- Settles O45: TCD, TDC and TSC set N and Z by the word they move, and TCS and TXS only move it, under the lock of
SH (10_state.md R33). -/
theorem wordTransfers : Obligations.WordTransfers := by
  refine fun s => ⟨rfl, rfl, rfl, rfl, rfl, ⟨_, rfl, statusIs_setNZ s s.a⟩, ?_, ?_⟩
  · simp only [forall_mem_cons_cons, List.forall_mem_singleton]
    exact ⟨⟨_, rfl, statusIs_setNZ s s.d⟩, ⟨_, rfl, statusIs_setNZ s s.sp⟩⟩
  · simp only [forall_mem_cons_cons, List.forall_mem_singleton]
    exact ⟨rfl, rfl⟩

/-! ## XCE (R212) -/

/-- XCE with C clear: native mode locks nothing. -/
theorem execXce_of_clear {s : State} (hc : s.flag .c = false) :
    execXce s = .next { s with e := false, p := (s.setFlag .c s.e).p, pc := s.pc + 1 } := by
  simp only [execXce, setFlag_e, hc]
  rfl

/-- XCE with C set: emulation mode locks M, X, XH, YH and SH (10_state.md R33). -/
theorem execXce_of_set {s : State} (hc : s.flag .c = true) :
    execXce s = .next
      { s with e := true, p := (((s.setFlag .c s.e).setFlag .m true).setFlag .x true).p, pc := s.pc + 1,
               x := word16 (loByte s.x) 0x00, y := word16 (loByte s.y) 0x00, sp := word16 (loByte s.sp) 0x01 } := by
  simp only [execXce, setFlag_e, hc]
  rfl

/-- P after C has been written and then M and X set. -/
theorem statusIs_enterEmulation (s : State) (c : Bool) :
    StatusIs (((s.setFlag .c c).setFlag .m true).setFlag .x true).p s.p [(.m, true), (.x, true), (.c, c)] :=
  statusIs_congr (statusIs_put .x true (statusIs_put .m true (statusIs_put .c c (statusIs_refl s.p))))
    (by intro f; cases f <;> rfl)

/-- Settles O46: the new E is the old C, so the two cases of C are the two modes XCE can enter. -/
theorem exchangeCarryEmulation : Obligations.ExchangeCarryEmulation := fun s =>
  ⟨rfl, fun hc => ⟨_, execXce_of_clear hc, statusIs_put .c s.e (statusIs_refl s.p)⟩,
    fun hc => ⟨_, execXce_of_set hc, statusIs_enterEmulation s s.e⟩⟩

end Sys2Proof.Machine
end

section
/-! PROOFS. The statements of 45_table7_other.md: BRL (R221), REP and SEP (R233, R237), XBA (R240), the jumps (R223 to
R227), calls and returns (R228 to R230, R234 to R236, R241), BRK and COP (R220, R222), the block moves (R231, R232) and
STP and WAI (R238, R239). A call and its return compose byte by byte through the stack; a whole block move is an
induction on A. -/

namespace Sys2Proof.Machine

/-! ## BRL, REP, SEP, XBA, STP and WAI (R221, R233, R237 to R240) -/

/-- Settles O31: BRL adds its offset to the offset of the next instruction, modulo 2^16. -/
theorem branchLong : Obligations.BranchLong := by
  refine fun r s => ⟨rfl, ?_⟩
  have htarget : s.pc + 3 + r = BitVec.ofInt 16 (s.pc.toNat + 3 + r.toInt) := add_eq_ofInt s.pc 3 r
  rw [← htarget]
  rfl

/-- What an instruction of two bytes that writes `v` to P leaves (10_state.md R37). -/
theorem writeP_advance_eq (v : Byte) (s : State) :
    (s.writeP v).advance 2 =
      { s with
        p := statusAfter s.e v
        x := indexAfter (statusAfter s.e v) s.x
        y := indexAfter (statusAfter s.e v) s.y
        pc := s.pc + 2 } := by
  rw [writeP_spec]; rfl

/-- Settles O43: REP and SEP write P, by `WriteP`, with the operand's bits cleared or set. -/
theorem statusMasks : Obligations.StatusMasks := by
  intro imm s
  simp only [forall_mem_cons_cons, List.forall_mem_singleton]
  exact ⟨⟨rfl, congrArg _ (writeP_advance_eq (s.p &&& ~~~imm) s)⟩,
    ⟨rfl, congrArg _ (writeP_advance_eq (s.p ||| imm) s)⟩⟩

/-- Settles O47: N and Z are set by the old high half, which is the new low half. -/
theorem swapAccumulatorHalves : Obligations.SwapAccumulatorHalves :=
  fun s => ⟨rfl, _, rfl, statusIs_setNZ s (hiByte s.a)⟩

/-- Settles O54: each advances PC past its one byte and sets the run state. -/
theorem stopAndWait : Obligations.StopAndWait := fun _ => ⟨rfl, rfl, rfl, rfl⟩

/-! ## Jumps (R223 to R227) -/

/-- The offset of an address in its bank, by truncation. -/
theorem setWidth_eq_offsetOf (a : Address) : a.setWidth 16 = offsetOf a := by
  apply BitVec.eq_of_toNat_eq
  rw [offsetOf_toNat, BitVec.toNat_setWidth]

/-- The bank of an address, by a shift. -/
theorem shiftRight_setWidth_eq_bankOf (a : Address) : (a >>> 16).setWidth 8 = bankOf a := by
  have := a.isLt
  apply BitVec.eq_of_toNat_eq
  rw [bankOf_toNat, BitVec.toNat_setWidth, BitVec.toNat_ushiftRight, Nat.shiftRight_eq_div_pow]
  omega

/-- Settles O48: a jump takes its target from the operand, from the word at its pointer or, for JML, from the three
bytes there. -/
theorem jumps : Obligations.Jumps := by
  refine fun a al s => ⟨rfl, rfl, rfl, rfl, rfl, rfl, rfl, rfl, ?long, ?pointer⟩
  case long => rw [setWidth_eq_offsetOf, shiftRight_setWidth_eq_bankOf]; rfl
  case pointer =>
    have hjml : exec (.jml a) s =
        .next { s with pc := offsetOf (s.mem.readLongB 0 a), pb := bankOf (s.mem.readLongB 0 a) } := rfl
    rw [hjml, Memory.readLongB, offsetOf_long24, bankOf_long24]
    rfl

/-! ## Calls (R228 to R230, R241) -/

/-- Outside SL = $00 with E = 1 a push of one word is under the lock per byte (U6, log 8). -/
theorem newPushLock_word {s : State} (op : NewStackOp) (h : ¬(s.e = true ∧ loByte s.sp = 0x00)) :
    newPushLock op 2 s = .perByte := by
  refine newPushLock_perByte op 2 s fun ⟨he, hlow⟩ => h ⟨he, ?_⟩
  exact BitVec.eq_of_toNat_eq (show (loByte s.sp).toNat = 0 by omega)

/-- Outside SL = $00 and $01 with E = 1 a push of three bytes is under the lock per byte (U6, log 8). -/
theorem newPushLock_long {s : State} (op : NewStackOp) (h : ¬(s.e = true ∧ loByte s.sp ≤ 0x01#8)) :
    newPushLock op 3 s = .perByte := by
  refine newPushLock_perByte op 3 s fun ⟨he, hlow⟩ => h ⟨he, ?_⟩
  exact BitVec.le_def.mpr (show (loByte s.sp).toNat ≤ 1 by omega)

/-- JSR a where it is not refused, whole (R229). -/
theorem execJsrAbs_next {a : Word} {s : State} (h : ¬OverwritesOwnBytes s (.jsrAbs a)) :
    execJsrAbs a s = .next
      { s with
        mem := (s.pushAll .perByte (wordBytes (s.pc + 2))).mem
        sp := movedStack s.e s.sp 0xFFFE
        pc := a } :=
  (execJsrAbs_eq a s).trans (if_neg h)

/-- JSL where it is not refused, whole (R228). -/
theorem execJsl_next {al : Address} {s : State} (h : ¬OverwritesOwnBytes s (.jsl al)) :
    execJsl al s = .next
      { s with
        mem := (s.pushAll (newPushLock .jsl 3 s) (jslFrame s)).mem
        sp := movedStack s.e s.sp 0xFFFD
        pc := al.setWidth 16
        pb := (al >>> 16).setWidth 8 } := by
  rw [execJsl_eq, if_neg h, setWidth_eq_offsetOf, shiftRight_setWidth_eq_bankOf]

/-- JSR `(a,x)` where it is not refused, whole (R230): its pushes miss the pointer, so it reads as before them. -/
theorem execJsrAbsXInd_next {a : Word} {s : State} (h : ¬OverwritesOwnBytes s (.jsrAbsXInd a)) :
    execJsrAbsXInd a s = .next
      { s with
        mem := (s.pushAll (newPushLock .jsrXInd 2 s) (wordBytes (s.pc + 2))).mem
        sp := movedStack s.e s.sp 0xFFFE
        pc := s.mem.readWordB s.pb (a + s.x) } := by
  have hread (b : Address) (hb : b ∈ callBytes s (.jsrAbsXInd a)) :
      (s.pushAll (newPushLock .jsrXInd 2 s) (wordBytes (s.pc + 2))).mem.read b = s.mem.read b :=
    read_call_byte h hb (by simp [wordBytes])
  have hlow := hread (addressOf s.pb (a + s.x)) (by simp [callBytes])
  have hhigh := hread (addressOf s.pb (a + s.x + 1)) (by simp [callBytes])
  rw [execJsrAbsXInd_eq, if_neg h, Memory.readWordB, hlow, hhigh]
  rfl

/-- A call that pushes onto a byte it obtains is refused (93_implementation_defined.md U9). -/
theorem exec_call_refused {a : Word} {al : Address} {s : State} {i : Instr}
    (hi : i ∈ [Instr.jsrAbs a, .jsrAbsXInd a, .jsl al]) (h : OverwritesOwnBytes s i) :
    exec i s = .refused .ownBytesOverwritten := by
  simp only [List.mem_cons, List.not_mem_nil, or_false] at hi
  rcases hi with rfl | rfl | rfl
  · exact (execJsrAbs_eq a s).trans (if_pos h)
  · exact (execJsrAbsXInd_eq a s).trans (if_pos h)
  · exact (execJsl_eq al s).trans (if_pos h)

/-- Settles O49: each call, where it is not refused, pushes its frame under its lock and jumps. -/
theorem calls : Obligations.Calls := fun a al s =>
  ⟨rfl, rfl, rfl,
    fun h => ⟨_, execJsrAbs_next h, pushAll_written .perByte (wordBytes (s.pc + 2)) s (by simp [wordBytes])⟩,
    fun h => ⟨newPushLock .jsrXInd 2 s, _, execJsrAbsXInd_next h,
      pushAll_written _ (wordBytes (s.pc + 2)) s (by simp [wordBytes]), newPushLock_word .jsrXInd⟩,
    fun h => ⟨newPushLock .jsl 3 s, _, execJsl_next h,
      pushAll_written _ (jslFrame s) s (by simp [jslFrame, wordBytes]), newPushLock_long .jsl⟩,
    fun _ hi => exec_call_refused hi⟩

/-! ## Returns (R234 to R236) -/

/-- RTS, whole (R236). -/
theorem execRts_eq (s : State) :
    execRts s = .next { s with pc := (pulled s 2 ++ pulled s 1) + 1, sp := movedStack s.e s.sp 2 } := by
  simp only [execRts, pull16_eq, pull16_fst]
  rfl

/-- A move of S under the lock of E does not see whether SH was locked before it. -/
theorem movedStack_lockPage (e : Bool) (sp k : Word) : movedStack e (lockPage e sp) k = movedStack e sp k := by
  cases e <;> simp [movedStack, lockPage]

/-- A pull of one word and a byte and the lock at the instruction's end, whole, under either lock. -/
theorem pull16_pull8_lockStack_eq (s : State) (lock : StackLock) :
    ((s.pull16 lock).2.pull8 lock).2.lockStack = { s with sp := movedStack s.e s.sp 3 } := by
  have hsp : lockPage s.e ((s.pull16 lock).2.pull8 lock).2.sp = movedStack s.e s.sp 3 :=
    calc lockPage s.e ((s.pull16 lock).2.pull8 lock).2.sp
        = movedStack s.e (s.pull16 lock).2.sp 1 := pull8_locked (s.pull16 lock).2 lock
      _ = movedStack s.e (movedStack s.e s.sp 2) 1 := by rw [← movedStack_lockPage, pull16_locked]
      _ = movedStack s.e s.sp 3 := movedStack_movedStack s.e s.sp 2 1
  rw [← hsp]; rfl

/-- RTL, whole (R235). -/
theorem execRtl_eq (s : State) :
    let at' (k : Word) : Byte := s.mem.read (pullAddress (newPullLock .rtl 3 s) s.e s.sp k)
    execRtl s = .next { s with pc := (at' 2 ++ at' 1) + 1, pb := at' 3, sp := movedStack s.e s.sp 3 } := by
  simp only [execRtl, pull16_pull8_lockStack_eq, pull16_fst, pull8_fst, pullAddress_pull16]
  rfl

/-- RTL under the lock per byte, whole (R235). -/
theorem execRtl_perByte {s : State} (hlock : newPullLock .rtl 3 s = .perByte) :
    execRtl s = .next
      { s with pc := (pulled s 2 ++ pulled s 1) + 1, pb := pulled s 3, sp := movedStack s.e s.sp 3 } := by
  rw [execRtl_eq, hlock]; rfl

/-- Outside SL from $FD on with E = 1 a pull of three bytes is under the lock per byte (U6, log 8). -/
theorem newPullLock_long {s : State} (op : NewStackOp) (h : ¬(s.e = true ∧ 0xFD#8 ≤ loByte s.sp)) :
    newPullLock op 3 s = .perByte := by
  refine newPullLock_perByte op 3 s fun ⟨he, hlow⟩ => h ⟨he, ?_⟩
  exact BitVec.le_def.mpr (show 253 ≤ (loByte s.sp).toNat by omega)

/-- Settles O50: RTS pulls under the lock per byte, RTL under its own, which is open only where U6 says. -/
theorem subroutineReturns : Obligations.SubroutineReturns :=
  fun s => ⟨rfl, rfl, execRts_eq s, newPullLock .rtl 3 s, execRtl_eq s, newPullLock_long .rtl⟩

/-- Settles O51: RTI is the return of 60_exceptions.md R261, which in the model is the function with the statement's
name. -/
theorem returnFromInterruptHolds : Obligations.ReturnFromInterrupt :=
  fun s => ⟨rfl, congrArg _ (returnFromInterrupt_eq s)⟩

/-! ## BRK and COP (R220, R222) -/

/-- The frame that BRK and COP push, by E (60_exceptions.md R256). -/
theorem entryFrame_software {kind : InterruptKind} (hk : software kind = true) (ret : Word) (s : State) :
    entryFrame kind ret s =
      if s.e then [hiByte ret, loByte ret, s.p ||| 0x30] else [s.pb, hiByte ret, loByte ret, s.p] := by
  cases he : s.e with
  | false => simp [entryFrame, pushedStatus, wordBytes, he]
  | true => simp only [entryFrame, pushedStatus, wordBytes, he, hk, pushed_software]; rfl

/-- What BRK and COP leave, from their kind, their vector by E and the offset they push. -/
theorem enter_software {kind : InterruptKind} (hk : software kind = true) (ret : Word) (s : State) {vec : Word}
    (hvec : Config.vector kind s.e = vec) :
    let frame := if s.e then [hiByte ret, loByte ret, s.p ||| 0x30] else [s.pb, hiByte ret, loByte ret, s.p]
    ∃ (mem : Memory) (p : Byte), (.next (enter kind ret s) : Result) = .next
        { s with mem := mem, sp := movedStack s.e s.sp (if s.e then 0xFFFD else 0xFFFC), p := p, pb := 0x00,
                 pc := mem.read (addressOf 0 (vec + 1)) ++ mem.read (addressOf 0 vec), run := .running } ∧
      CellsWritten mem s.mem (pushedCells .perByte s.e frame s.sp) ∧
      StatusIs p s.p [(.d, false), (.i, true)] := by
  have hlatch : kind ≠ .nmi := by rintro rfl; cases hk
  intro frame
  have hframe : entryFrame kind ret s = frame := entryFrame_software hk ret s
  rw [enter_eq, if_neg hlatch, hvec, hframe]
  exact ⟨_, _, rfl, hframe ▸ entryFrame_written kind ret s, statusIs_enter s.p⟩

/-- Settles O52: BRK and COP are entries of software kinds, at their vectors by E. -/
theorem softwareInterrupts : Obligations.SoftwareInterrupts := by
  intro sig s ret frame
  simp only [forall_mem_cons_cons, List.forall_mem_singleton]
  exact ⟨⟨rfl, enter_software (kind := .brk) rfl ret s (by cases s.e <;> rfl)⟩,
    ⟨rfl, enter_software (kind := .cop) rfl ret s (by cases s.e <;> rfl)⟩⟩

/-! ## A call and its return (R241) -/

section CallReturn

variable {s t : State} {vs : List Byte}

/-- Where one push from `s` has left the stack of `t`, a byte pulled from `t` is the byte pushed `k`-th, counted from
0, if S moves over the push and the pull by `-k` in all. -/
theorem pulled_pushed (hs : s.Inv) (he : t.e = s.e) {moved : Word} (hsp : t.sp = movedStack s.e s.sp moved)
    (hmem : CellsWritten t.mem s.mem (pushedCells .perByte s.e vs s.sp)) {j : Word} {k : Nat}
    (hk : moved + j = -BitVec.ofNat 16 k) {v : Byte} (hv : vs[k]? = some v) : pulled t j = v := by
  rw [pulled, pullAddress, he, hsp, movedStack_movedStack, hk]
  exact read_pushed hmem hs.lockS k v hv

/-- A move of S and the move back leave S where it was. -/
theorem movedStack_back (hs : s.Inv) {k j : Word} (h : k + j = 0) :
    movedStack s.e (movedStack s.e s.sp k) j = s.sp := by
  rw [movedStack_movedStack, h, movedStack_zero s.e s.sp hs.lockS]

/-- RTS where JSR has pushed, whole (R229, R236). -/
theorem execRts_pushed (hs : s.Inv) (he : t.e = s.e) (hsp : t.sp = movedStack s.e s.sp 0xFFFE)
    (hmem : CellsWritten t.mem s.mem (pushedCells .perByte s.e (wordBytes (s.pc + 2)) s.sp)) :
    execRts t = .next { t with pc := s.pc + 3, sp := s.sp } := by
  have hlow : pulled t 1 = loByte (s.pc + 2) := pulled_pushed hs he hsp hmem (k := 1) rfl rfl
  have hhigh : pulled t 2 = hiByte (s.pc + 2) := pulled_pushed hs he hsp hmem (k := 0) rfl rfl
  have hpc : word16 (loByte (s.pc + 2)) (hiByte (s.pc + 2)) + 1 = s.pc + 3 := by
    rw [word16_halves, BitVec.add_assoc]; rfl
  rw [execRts_eq, hlow, hhigh, ← word16, hpc, he, hsp, movedStack_back hs rfl]

/-- RTL where JSL has pushed, outside the states of U6, whole (R228, R235). -/
theorem execRtl_pushed (hs : s.Inv) (he : t.e = s.e) (hsp : t.sp = movedStack s.e s.sp 0xFFFD)
    (hmem : CellsWritten t.mem s.mem (pushedCells .perByte s.e (jslFrame s) s.sp))
    (hlock : newPullLock .rtl 3 t = .perByte) :
    execRtl t = .next { t with pc := s.pc + 4, pb := s.pb, sp := s.sp } := by
  have hlow : pulled t 1 = loByte (s.pc + 3) := pulled_pushed hs he hsp hmem (k := 2) rfl rfl
  have hhigh : pulled t 2 = hiByte (s.pc + 3) := pulled_pushed hs he hsp hmem (k := 1) rfl rfl
  have hbank : pulled t 3 = s.pb := pulled_pushed hs he hsp hmem (k := 0) rfl rfl
  have hpc : word16 (loByte (s.pc + 3)) (hiByte (s.pc + 3)) + 1 = s.pc + 4 := by
    rw [word16_halves, BitVec.add_assoc]; rfl
  rw [execRtl_perByte hlock, hlow, hhigh, hbank, ← word16, hpc, he, hsp, movedStack_back hs rfl]

/-- Outside SL below 3 with E = 1, JSL pushes under the lock per byte (U6, log 8). -/
theorem newPushLock_jsl (h : ¬(s.e = true ∧ loByte s.sp < 0x03#8)) : newPushLock .jsl 3 s = .perByte :=
  newPushLock_long .jsl fun ⟨he, hlow⟩ => h ⟨he, by bv_omega⟩

/-- Outside SL below 3 with E = 1 before JSL, the RTL after it pulls under the lock per byte (U6, log 8). -/
theorem newPullLock_after_jsl (h : ¬(s.e = true ∧ loByte s.sp < 0x03#8)) (he : t.e = s.e)
    (hsp : t.sp = movedStack s.e s.sp 0xFFFD) : newPullLock .rtl 3 t = .perByte := by
  refine newPullLock_long .rtl fun ⟨hte, hlow⟩ => ?_
  have hse : s.e = true := he ▸ hte
  have hmoved : loByte t.sp = loByte s.sp + 0xFD := by rw [hsp, hse]; exact loByte_word16 _ _
  have hbound : ¬loByte s.sp < 0x03#8 := fun hlt => h ⟨hse, hlt⟩
  rw [hmoved] at hlow
  bv_omega

end CallReturn

/-- Settles O57: a return pulls the bytes its call has pushed, in the opposite order, and S moves back. -/
theorem callThenReturn : Obligations.CallThenReturn := by
  refine fun s hs => ⟨fun a h => ⟨_, execJsrAbs_next h, ?jsr⟩, fun hu6 al h => ⟨_, execJsl_next h, ?jsl⟩⟩
  case jsr =>
    have hmem := pushAll_written .perByte (wordBytes (s.pc + 2)) s (by simp [wordBytes])
    exact Eq.trans (execRts_pushed hs rfl rfl hmem) rfl
  case jsl =>
    have hmem := pushAll_written (newPushLock .jsl 3 s) (jslFrame s) s (by simp [jslFrame, wordBytes])
    rw [newPushLock_jsl hu6] at hmem ⊢
    exact Eq.trans (execRtl_pushed hs rfl rfl hmem (newPullLock_after_jsl hu6 rfl rfl)) rfl

/-! ## Block moves (R231, R232) -/

/-- Settles O53: one execution moves one byte, by a step of 1 or of -1. -/
theorem blockMoveByte : Obligations.BlockMoveByte := by
  intro dst src s w
  simp only [forall_mem_cons_cons, List.forall_mem_singleton]
  exact ⟨⟨rfl, _, moveByte_eq dst src 0x0001 s, cellsWritten_one _ _ _⟩,
    ⟨rfl, _, moveByte_eq dst src 0xFFFF s, cellsWritten_one _ _ _⟩⟩

/-- The low part of a value in 16 bits is the value. -/
theorem lowPart_widen (w : Width) (v : BitVec w.bits) : lowPart w (widen w v) = v := by
  cases w <;> simp [lowPart, widen, Width.bits]

/-- Steps that bring one index register to the same value bring every index register to the same value. -/
theorem steppedIndex_congr {w : Width} {r delta : Word} {j k : Nat}
    (h : steppedIndex w r delta j = steppedIndex w r delta k) (q : Word) :
    steppedIndex w q delta j = steppedIndex w q delta k := by
  have hlow : lowPart w (r + BitVec.ofNat 16 j * delta) = lowPart w (r + BitVec.ofNat 16 k * delta) := by
    simpa only [steppedIndex, lowPart_widen] using congrArg (lowPart w ·) h
  rw [lowPart_add, lowPart_add, BitVec.add_right_inj] at hlow
  rw [steppedIndex, steppedIndex, lowPart_add, lowPart_add, hlow]

/-- `after` is `before` with the bytes copied of `n + 1` executions of a block move from `src:x` to `dst:y`, whose
index registers step by `delta`. -/
def BlockCopied (dst src : Byte) (w : Width) (delta x y : Word) (n : Nat) (before after : Memory) : Prop :=
  (∀ k : Nat, k ≤ n → after.read (addressOf dst (steppedIndex w y delta k)) =
    before.read (addressOf src (steppedIndex w x delta k))) ∧
  ∀ b : Address, (∀ k : Nat, k ≤ n → b ≠ addressOf dst (steppedIndex w y delta k)) → after.read b = before.read b

section BlockMove

variable {dst src : Byte} {delta : Word}

/-- One byte copied. -/
theorem blockCopied_one {w : Width} {x y : Word} (hx : w = .w8 → hiByte x = 0x00) (hy : w = .w8 → hiByte y = 0x00)
    (m : Memory) :
    BlockCopied dst src w delta x y 0 m (m.write (addressOf dst y) (m.read (addressOf src x))) := by
  simp only [BlockCopied, Nat.le_zero, forall_eq, steppedIndex_zero w x delta hx, steppedIndex_zero w y delta hy]
  exact ⟨read_write_same _ _ _, fun b hb => read_write_ne _ _ hb⟩

/-- One byte copied and then `n + 1` more from the next offsets are `n + 2`. A later byte stored over the first one is
the same byte again, since the registers step together; and no byte stored is read later, since the banks differ. -/
theorem BlockCopied.cons (hbanks : dst ≠ src) {w : Width} {x y : Word} (hx : w = .w8 → hiByte x = 0x00)
    (hy : w = .w8 → hiByte y = 0x00) {n : Nat} {m m' : Memory}
    (h : BlockCopied dst src w delta (steppedIndex w x delta 1) (steppedIndex w y delta 1) n
      (m.write (addressOf dst y) (m.read (addressOf src x))) m') :
    BlockCopied dst src w delta x y (n + 1) m m' := by
  obtain ⟨hcopied, hkept⟩ := h
  simp only [steppedIndex_succ] at hcopied hkept
  have hx0 := steppedIndex_zero w x delta hx
  have hy0 := steppedIndex_zero w y delta hy
  have hsource (o : Word) :
      (m.write (addressOf dst y) (m.read (addressOf src x))).read (addressOf src o) = m.read (addressOf src o) :=
    read_write_ne _ _ fun heq => hbanks (addressOf_inj.mp heq).1.symm
  have hlater (k : Nat) (hk : k ≤ n) : m'.read (addressOf dst (steppedIndex w y delta (k + 1))) =
      m.read (addressOf src (steppedIndex w x delta (k + 1))) := (hcopied k hk).trans (hsource _)
  refine ⟨fun k hk => ?_, fun b hb => ?_⟩
  · cases k with
    | succ k => exact hlater k (Nat.le_of_succ_le_succ hk)
    | zero =>
      by_cases hagain : ∃ k, k ≤ n ∧ steppedIndex w y delta 0 = steppedIndex w y delta (k + 1)
      · obtain ⟨k, hk, heq⟩ := hagain
        rw [heq, steppedIndex_congr heq x]
        exact hlater k hk
      · have honce (k : Nat) (hk : k ≤ n) : addressOf dst y ≠ addressOf dst (steppedIndex w y delta (k + 1)) :=
          fun heq => hagain ⟨k, hk, hy0.trans (addressOf_inj.mp heq).2⟩
        rw [hx0, hy0, hkept _ honce, read_write_same]
  · have hne : b ≠ addressOf dst y := hy0 ▸ hb 0 (Nat.zero_le _)
    rw [hkept b fun k hk => hb (k + 1) (Nat.succ_le_succ hk), read_write_ne _ _ hne]

/-- The state after one byte of a block move that is not its last. -/
def State.afterMove (dst src : Byte) (delta : Word) (s : State) : State :=
  { s with
    mem := s.mem.write (addressOf dst s.y) (s.mem.read (addressOf src s.x))
    db := dst
    x := steppedIndex (s.width .x) s.x delta 1
    y := steppedIndex (s.width .x) s.y delta 1
    a := s.a - 1 }

/-- While A is not $0000 a block move stays at its instruction. -/
theorem moveByte_of_ne {s : State} (h : s.a ≠ 0) :
    moveByte dst src delta s = .next (s.afterMove dst src delta) := by
  rw [moveByte_eq, if_neg h]; rfl

/-- An instruction that moves one byte, executed `A + 1` times between two banks: the induction on A. -/
theorem repeatExec_moveByte {i : Instr} (hi : ∀ s, exec i s = moveByte dst src delta s) (hbanks : dst ≠ src)
    {n : Nat} {s : State} (hn : s.a.toNat = n) (hx : s.width .x = .w8 → hiByte s.x = 0x00)
    (hy : s.width .x = .w8 → hiByte s.y = 0x00) :
    ∃ mem, repeatExec i (n + 1) s = some
        { s with mem := mem, db := dst, x := steppedIndex (s.width .x) s.x delta (n + 1),
                 y := steppedIndex (s.width .x) s.y delta (n + 1), a := 0xFFFF, pc := s.pc + 3 } ∧
      BlockCopied dst src (s.width .x) delta s.x s.y n s.mem mem := by
  induction n generalizing s with
  | zero =>
    have ha : s.a = 0 := BitVec.eq_of_toNat_eq hn
    refine ⟨_, ?_, blockCopied_one hx hy s.mem⟩
    rw [repeatExec, hi, moveByte_eq, ha]
    rfl
  | succ n ih =>
    have ha : s.a ≠ 0 := by intro h; simp [h] at hn
    have hexec := (hi s).trans (moveByte_of_ne ha)
    have hwidth (r : Word) (hw : s.width .x = .w8) : hiByte (steppedIndex (s.width .x) r delta 1) = 0x00 := by
      rw [hw]; exact hiByte_steppedIndex r delta 1
    have hcount : (s.a - 1).toNat = n := by bv_omega
    obtain ⟨mem, hrest, hcopied⟩ := ih (s := s.afterMove dst src delta) hcount (hwidth s.x) (hwidth s.y)
    refine ⟨mem, ?_, hcopied.cons hbanks hx hy⟩
    rw [repeatExec, hexec, ← steppedIndex_succ _ s.x _ (n + 1), ← steppedIndex_succ _ s.y _ (n + 1)]
    exact hrest

end BlockMove

/-- Settles O59: MVN and MVP are moves of one byte, repeated until A has become $FFFF. -/
theorem wholeBlockMove : Obligations.WholeBlockMove := by
  intro dst src s hbanks w n hhigh
  have hx (hw : w = .w8) : hiByte s.x = 0x00 := (hhigh hw).1
  have hy (hw : w = .w8) : hiByte s.y = 0x00 := (hhigh hw).2
  simp only [forall_mem_cons_cons, List.forall_mem_singleton]
  exact ⟨repeatExec_moveByte (fun _ => rfl) hbanks rfl hx hy, repeatExec_moveByte (fun _ => rfl) hbanks rfl hx hy⟩

end Sys2Proof.Machine
end

section
/-! PROOFS. The statements of 60_exceptions.md: where a step stops (R252, R265), what the boundary does by the sample
and the run state (R253, R254, R259, R260, R263, R264), and that RTI undoes an entry (R256, R261). The tests of the
boundary are taken one outcome at a time; the instruction at PB:PC is the one whose encoding lies there by the round
trip of the decoder; a return pulls the frame of an entry byte by byte. -/

namespace Sys2Proof.Machine

/-! ## The boundary (R259, R263, R264) -/

section Boundary

variable {inp : Inputs} {s : State}

/-- ABORT decides at the boundary of a running or waiting machine, unless `reset` comes first (R252, R260, R264). -/
theorem boundary_eq_abort_iff :
    boundary inp s = .abort ↔ inp.abort = true ∧ inp.reset = false ∧ s.run ≠ .stopped := by
  rw [boundary]
  split
  · next hreset => simp [hreset]
  · next hreset =>
    split
    · next hrun => simp [hrun]
    · next hrun => split_ifs <;> simp_all
    · next hrun => split_ifs <;> simp_all

/-- Only a running machine executes an instruction. -/
theorem run_eq_running_of_boundary (h : boundary inp s = .execute) : s.run = .running := by
  rw [boundary] at h
  split at h
  · cases h
  · split at h
    · cases h
    · assumption
    · split_ifs at h

/-- A stopped machine is left by `reset` alone (R264). -/
theorem boundary_of_stopped (hreset : inp.reset = false) (hrun : s.run = .stopped) : boundary inp s = .idle := by
  simp [boundary, hreset, hrun]

/-- A running machine with nothing to take executes (R259). -/
theorem boundary_of_running (hreset : inp.reset = false) (hrun : s.run = .running) (habort : inp.abort = false)
    (hnmi : s.nmiPending = false) (hirq : inp.irq = false ∨ s.flag .i = true) : boundary inp s = .execute := by
  rcases hirq with hirq | hi
  · simp [boundary, hreset, hrun, habort, hnmi, hirq]
  · simp [boundary, hreset, hrun, habort, hnmi, hi]

/-- A waiting machine with no input goes on waiting (R263). -/
theorem boundary_of_waiting (hreset : inp.reset = false) (hrun : s.run = .waiting) (habort : inp.abort = false)
    (hnmi : s.nmiPending = false) (hirq : inp.irq = false) : boundary inp s = .idle := by
  simp [boundary, hreset, hrun, habort, hnmi, hirq]

/-- A masked IRQ ends a wait and is not taken (R263). -/
theorem boundary_of_waiting_masked (hreset : inp.reset = false) (hrun : s.run = .waiting) (habort : inp.abort = false)
    (hnmi : s.nmiPending = false) (hirq : inp.irq = true) (hi : s.flag .i = true) : boundary inp s = .resume := by
  simp [boundary, hreset, hrun, habort, hnmi, hirq, hi]

/-- With no edge to latch, only the sample is used up (R254, R264). -/
theorem latch_eq_of_no_edge (h : s.run = .stopped ∨ s.sample.nmi = false) :
    s.latch = { s with inputs := s.inputs.tail } := by
  have hlatch : (s.nmiPending || (s.sample.nmi && decide (s.run ≠ .stopped))) = s.nmiPending := by
    rcases h with h | h <;> simp [h]
  rw [State.latch, hlatch]

/-- With no edge and none latched before, none is latched (R254). -/
theorem latch_nmiPending_of_no_edge (hnmi : s.nmiPending = false) (hedge : s.sample.nmi = false) :
    s.latch.nmiPending = false := by
  rw [latch_nmiPending, hnmi, hedge]; rfl

end Boundary

/-! ## Where the machine stops (R252, R265) -/

/-- A push of a register completes. -/
theorem pushReg_completes (w : Width) (r : Word) (s : State) : ∃ t, pushReg w r s = .next t := by
  cases w <;> exact ⟨_, rfl⟩

/-- A pull of a register completes. -/
theorem pullReg_completes (sel : Selector) (f : (w : Width) → BitVec w.bits → State → State) (s : State) :
    ∃ t, pullReg sel f s = .next t := by
  rw [pullReg]; split <;> exact ⟨_, rfl⟩

/-- An instruction that does not push onto bytes it obtains completes (R265). The calls are by their own laws, the
pushes and pulls of a register by the width, and every other meaning is a next state as it stands. -/
theorem exec_completes {i : Instr} {s : State} (h : ¬OverwritesOwnBytes s i) : ∃ t, exec i s = .next t := by
  cases i with
  | jsrAbs a => exact ⟨_, execJsrAbs_next h⟩
  | jsrAbsXInd a => exact ⟨_, execJsrAbsXInd_next h⟩
  | jsl al => exact ⟨_, execJsl_next h⟩
  | pha | phx | phy => exact pushReg_completes _ _ s
  | pla | plx | ply => exact pullReg_completes _ _ s
  | _ => exact ⟨_, rfl⟩

/-- An instruction that pushes onto bytes it obtains is one of the three calls, which are refused
(93_implementation_defined.md U9). -/
theorem exec_refused {i : Instr} {s : State} (h : OverwritesOwnBytes s i) :
    exec i s = .refused .ownBytesOverwritten := by
  cases i with
  | jsrAbs a => exact exec_call_refused (a := a) (al := 0) (by simp) h
  | jsrAbsXInd a => exact exec_call_refused (a := a) (al := 0) (by simp) h
  | jsl al => exact exec_call_refused (a := 0) (al := al) (by simp) h
  | _ => exact absurd h Bool.false_ne_true

/-- Settles O6: what the boundary does is refused for ABORT alone, and else is a next state or the execution of the
instruction at PB:PC by a running machine. -/
theorem stopsOnlyOnAbortOrOwnBytes : Obligations.StopsOnlyOnAbortOrOwnBytes := by
  refine ⟨fun i s => ⟨exec_completes, exec_refused⟩, fun s => ⟨fun h => ?stops, fun h => ?goesOn⟩⟩
  case stops =>
    have hb : boundary s.sample s.latch = .abort := boundary_eq_abort_iff.mpr h
    rw [step, hb]
  case goesOn =>
    rw [step]
    cases hb : boundary s.sample s.latch with
    | reset | enter | resume | idle => exact .inl ⟨_, rfl⟩
    | abort =>
      obtain ⟨habort, hreset, hrun⟩ := boundary_eq_abort_iff.mp hb
      exact absurd h (by simp [habort, hreset, show s.run ≠ .stopped from hrun])
    | execute =>
      by_cases hown : OverwritesOwnBytes s s.fetchInstr
      · exact .inr ⟨run_eq_running_of_boundary (s := s.latch) hb, hown, exec_refused (s := s.latch) hown⟩
      · exact .inl (exec_completes (s := s.latch) hown)

/-! ## Running, waiting and stopped steps (R259, R263, R264) -/

/-- Settles O56: the boundary of a stopped machine and of a waiting one, where there is no edge to latch. -/
theorem waitingAndStoppedSteps : Obligations.WaitingAndStoppedSteps := by
  refine fun s hreset => ⟨fun hrun => ?stopped, fun hrun habort hedge hnmi =>
    ⟨fun hirq => ?waits, fun hirq hi => ?ends⟩⟩
  case stopped =>
    have hb : boundary s.sample s.latch = .idle := boundary_of_stopped hreset hrun
    rw [step, hb, latch_eq_of_no_edge (.inl hrun)]
  case waits =>
    have hb : boundary s.sample s.latch = .idle :=
      boundary_of_waiting hreset hrun habort (latch_nmiPending_of_no_edge hnmi hedge) hirq
    rw [step, hb, latch_eq_of_no_edge (.inr hedge)]
  case ends =>
    have hb : boundary s.sample s.latch = .resume :=
      boundary_of_waiting_masked hreset hrun habort (latch_nmiPending_of_no_edge hnmi hedge) hirq hi
    rw [step, hb, latch_eq_of_no_edge (.inr hedge)]

/-- The four bytes that a step fetches, in order. -/
def State.fetched (s : State) : List Byte := [s.fetch 0, s.fetch 1, s.fetch 2, s.fetch 3]

/-- What the decoder reads from the bytes fetched is the instruction at PB:PC. -/
theorem fetchInstr_of_decode {s : State} {i : Instr} {rest : List Byte}
    (h : decode s.m8 s.x8 s.fetched = .ok (i, rest)) : s.fetchInstr = i :=
  (decode_cons_eq_ok_iff.mp h).2.1

/-- The fetch starts with the encoding that lies at PB:PC, which has at most four bytes (30_encoding.md R70). -/
theorem take_fetched {s : State} {i : Instr}
    (h : ∀ (k : Nat) (b : Byte), (encode s.m8 s.x8 i)[k]? = some b →
      s.mem.read (addressOf s.pb (s.pc + BitVec.ofNat 16 k)) = b) :
    s.fetched.take (encode s.m8 s.x8 i).length = encode s.m8 s.x8 i := by
  have hlen : (encode s.m8 s.x8 i).length ≤ 4 := Nat.succ_le_succ (Operand.length_bytes_le _ _ _)
  refine List.ext_getElem (by simpa [State.fetched] using hlen) fun k _ hk => ?_
  have hread := h k _ (List.getElem?_eq_getElem hk)
  have hk4 : k < 4 := hk.trans_le hlen
  rw [List.getElem_take, ← hread]
  interval_cases k <;> rfl

/-- The instruction at PB:PC is the one whose encoding lies there (00_scope.md R10, 30_encoding.md R70). -/
theorem fetchInstr_eq_of_encoded {s : State} {i : Instr} (hwf : i.wellFormed s.m8 s.x8 = true)
    (h : ∀ (k : Nat) (b : Byte), (encode s.m8 s.x8 i)[k]? = some b →
      s.mem.read (addressOf s.pb (s.pc + BitVec.ofNat 16 k)) = b) : s.fetchInstr = i := by
  have hdecode := decodeEncodeRoundTrip s.m8 s.x8 i (s.fetched.drop (encode s.m8 s.x8 i).length) hwf
  nth_rw 1 [← take_fetched h] at hdecode
  rw [List.take_append_drop] at hdecode
  exact fetchInstr_of_decode hdecode

/-- Settles O5: the boundary lets the instruction run, and the fetch reads its encoding. -/
theorem stepRunsDecoded : Obligations.StepRunsDecoded := by
  intro s i hrun hreset habort hedge hnmi hirq hwf hbytes
  have hb : boundary s.sample s.latch = .execute :=
    boundary_of_running hreset hrun habort (latch_nmiPending_of_no_edge hnmi hedge) hirq
  have hfetch : s.latch.fetchInstr = i := fetchInstr_eq_of_encoded hwf hbytes
  rw [step, hb, hfetch, latch_eq_of_no_edge (.inr hedge)]

/-! ## NMI and IRQ (R253 to R256, R268) -/

/-- The frame that NMI and IRQ push, by E (R256, R268). -/
theorem entryFrame_hardware {kind : InterruptKind} (hk : software kind = false) (ret : Word) (s : State) :
    entryFrame kind ret s =
      if s.e then [hiByte ret, loByte ret, (s.p ||| 0x20) &&& 0xEF] else [s.pb, hiByte ret, loByte ret, s.p] := by
  cases he : s.e with
  | false => simp [entryFrame, pushedStatus, wordBytes, he]
  | true => simp only [entryFrame, pushedStatus, wordBytes, he, hk, pushed_hardware]; rfl

/-- What NMI and IRQ leave, from their kind and their vector by E, where the latch is clear or the NMI clears it. -/
theorem enter_hardware {kind : InterruptKind} (hk : software kind = false) {s : State}
    (hlatch : kind = .nmi ∨ s.nmiPending = false) {vec : Word} (hvec : Config.vector kind s.e = vec) :
    let frame := if s.e then [hiByte s.pc, loByte s.pc, (s.p ||| 0x20) &&& 0xEF]
      else [s.pb, hiByte s.pc, loByte s.pc, s.p]
    ∃ (mem : Memory) (p : Byte), (.next (enter kind s.pc s) : Result) = .next
        { s with mem := mem, sp := movedStack s.e s.sp (if s.e then 0xFFFD else 0xFFFC), p := p, pb := 0x00,
                 pc := mem.read (addressOf 0 (vec + 1)) ++ mem.read (addressOf 0 vec), run := .running,
                 nmiPending := false } ∧
      CellsWritten mem s.mem (pushedCells .perByte s.e frame s.sp) ∧
      StatusIs p s.p [(.d, false), (.i, true)] := by
  have hcleared : (if kind = .nmi then false else s.nmiPending) = false := by
    rcases hlatch with h | h <;> simp [h]
  intro frame
  have hframe : entryFrame kind s.pc s = frame := entryFrame_hardware hk s.pc s
  rw [enter_eq, hcleared, hvec, hframe]
  exact ⟨_, _, rfl, hframe ▸ entryFrame_written kind s.pc s, statusIs_enter s.p⟩

/-- Settles O55: both are entries of hardware kinds at their vectors, from the state that has latched the edge. -/
theorem hardwareInterrupts : Obligations.HardwareInterrupts := by
  refine fun s hrun hreset habort => ⟨fun hnmi => ?nmi, fun ⟨hpending, hedge, hirq, hi⟩ => ?irq⟩
  case nmi =>
    have hvec : Config.vector .nmi s.e = if s.e then 0xFFFA else 0xFFEA := by cases s.e <;> rfl
    rw [step_nmi hrun hreset habort hnmi]
    exact enter_hardware (s := s.latch) rfl (.inl rfl) hvec
  case irq =>
    have hvec : Config.vector .irq s.e = if s.e then 0xFFFE else 0xFFEE := by cases s.e <;> rfl
    rw [step_irq hrun hreset habort hpending hedge hirq hi]
    exact enter_hardware (s := s.latch) rfl (.inr (latch_nmiPending_of_no_edge hpending hedge)) hvec

/-! ## An entry and its return (R256, R261, R262) -/

section EnterReturn

variable {s : State} {kind : InterruptKind} {ret : Word}

/-! What an entry leaves in the registers that RTI reads or keeps (R256). -/

theorem enter_x (kind : InterruptKind) (ret : Word) (s : State) : (enter kind ret s).x = s.x := by rw [enter_eq]

theorem enter_y (kind : InterruptKind) (ret : Word) (s : State) : (enter kind ret s).y = s.y := by rw [enter_eq]

theorem enter_e (kind : InterruptKind) (ret : Word) (s : State) : (enter kind ret s).e = s.e := by rw [enter_eq]

theorem enter_pb (kind : InterruptKind) (ret : Word) (s : State) : (enter kind ret s).pb = 0x00 := by rw [enter_eq]

theorem enter_sp (kind : InterruptKind) (ret : Word) (s : State) :
    (enter kind ret s).sp = movedStack s.e s.sp (if s.e then 0xFFFD else 0xFFFC) := by rw [enter_eq]

theorem enter_mem (kind : InterruptKind) (ret : Word) (s : State) :
    (enter kind ret s).mem = (s.pushAll .perByte (entryFrame kind ret s)).mem := by rw [enter_eq]

/-- A byte pulled after an entry is the `k`-th byte of its frame, counted from 0, if S moves over the entry and the
pull by `-k` in all. -/
theorem pulled_entryFrame (hs : s.Inv) {frame : List Byte} (hframe : entryFrame kind ret s = frame) {moved : Word}
    (hmoved : (if s.e then 0xFFFD else 0xFFFC) = moved) {j : Word} {k : Nat} (hk : moved + j = -BitVec.ofNat 16 k)
    {v : Byte} (hv : frame[k]? = some v) : pulled (enter kind ret s) j = v := by
  have hmem := entryFrame_written kind ret s
  rw [← enter_mem, hframe] at hmem
  exact pulled_pushed hs (enter_e kind ret s) (hmoved ▸ enter_sp kind ret s) hmem hk hv

/-- The bytes above S after an entry are those of its frame, the last one pushed lowest (R256). -/
theorem pulled_enter (hs : s.Inv) :
    pulled (enter kind ret s) 1 = pushedStatus kind s ∧ pulled (enter kind ret s) 2 = loByte ret ∧
      pulled (enter kind ret s) 3 = hiByte ret ∧ (s.e = false → pulled (enter kind ret s) 4 = s.pb) := by
  cases he : s.e with
  | true =>
    have hframe : entryFrame kind ret s = [hiByte ret, loByte ret, pushedStatus kind s] := by
      rw [entryFrame, he]; rfl
    have hmoved : (if s.e then 0xFFFD else 0xFFFC) = (0xFFFD : Word) := if_pos he
    exact ⟨pulled_entryFrame hs hframe hmoved (k := 2) rfl rfl, pulled_entryFrame hs hframe hmoved (k := 1) rfl rfl,
      pulled_entryFrame hs hframe hmoved (k := 0) rfl rfl, fun h => by cases h⟩
  | false =>
    have hframe : entryFrame kind ret s = [s.pb, hiByte ret, loByte ret, pushedStatus kind s] := by
      rw [entryFrame, he]; rfl
    have hmoved : (if s.e then 0xFFFD else 0xFFFC) = (0xFFFC : Word) := if_neg (by simp [he])
    exact ⟨pulled_entryFrame hs hframe hmoved (k := 3) rfl rfl, pulled_entryFrame hs hframe hmoved (k := 2) rfl rfl,
      pulled_entryFrame hs hframe hmoved (k := 1) rfl rfl, fun _ => pulled_entryFrame hs hframe hmoved (k := 0) rfl rfl⟩

/-- `WriteP` of the status byte that an entry pushes gives P back: with E = 1 bits 5 and 4 of P are locked at 1
(10_state.md R33, R37). -/
theorem statusAfter_pushedStatus (hs : s.Inv) (kind : InterruptKind) :
    statusAfter s.e (pushedStatus kind s) = s.p := by
  cases he : s.e with
  | false => simp only [statusAfter, pushedStatus, he]; rfl
  | true =>
    have hput : statusAfter true (pushedStatus kind s) =
        putBit (putBit (putBit (putBit s.p Flag.m.bit true) Flag.x.bit (software kind)) Flag.m.bit true)
          Flag.x.bit true := by
      rw [statusAfter, pushedStatus, he]
      exact (pushed_software _).symm
    rw [hput]
    refine status_ext fun f => ?_
    simp only [putBit_flag]
    split_ifs with hx hm
    · rw [hx]; exact (hs.lockX he).symm
    · rw [hm]; exact (hs.lockM he).symm
    · rfl

/-- An index register keeps its value under `WriteP` of the P in force (10_state.md R34). -/
theorem indexAfter_self {r : Word} (h : s.flag .x = true → hiByte r = 0x00) : indexAfter s.p r = r := by
  rw [indexAfter]
  split
  · next hx => exact word16_of_hi (h hx)
  · rfl

/-- RTI where an entry has left the machine, whole: what the entry pushed is back in its registers, and PB is kept at
$00 with E = 1 (R256, R261, R262). -/
theorem returnFromInterrupt_enter (hs : s.Inv) (kind : InterruptKind) (ret : Word) :
    returnFromInterrupt (enter kind ret s) =
      { s with
        mem := (enter kind ret s).mem
        pc := ret
        pb := if s.e then 0x00 else s.pb
        run := .running
        nmiPending := if kind = .nmi then false else s.nmiPending } := by
  obtain ⟨hstatus, hlow, hhigh, hbank⟩ := pulled_enter (kind := kind) (ret := ret) hs
  have hpb : (if s.e then (0x00 : Byte) else pulled (enter kind ret s) 4) = if s.e then 0x00 else s.pb := by
    split
    · rfl
    · next he => exact hbank (Bool.eq_false_of_not_eq_true he)
  have hsp : movedStack s.e (enter kind ret s).sp (if s.e then 3 else 4) = s.sp := by
    rw [enter_sp]; exact movedStack_back hs (by cases s.e <;> rfl)
  rw [returnFromInterrupt_eq, hstatus, hlow, hhigh, enter_e, enter_x, enter_y, enter_pb, hpb, hsp,
    statusAfter_pushedStatus hs, indexAfter_self hs.xHigh, indexAfter_self hs.yHigh, ← word16, word16_halves,
    enter_eq]

end EnterReturn

/-- The interrupt that a running or waiting machine takes at its boundary, NMI before IRQ (R260), after which no NMI is
pending (R256). -/
theorem step_interrupt {s : State} (hrun : s.run ≠ .stopped) (hreset : s.sample.reset = false)
    (habort : s.sample.abort = false)
    (h : s.nmiPending = true ∨ s.sample.nmi = true ∨ (s.sample.irq = true ∧ s.flag .i = false)) :
    ∃ kind, step s = .next (enter kind s.pc s.latch) ∧
      (if kind = .nmi then false else s.latch.nmiPending) = false := by
  by_cases hnmi : s.nmiPending = true ∨ s.sample.nmi = true
  · exact ⟨.nmi, step_nmi hrun hreset habort hnmi, rfl⟩
  · obtain ⟨hpending, hedge⟩ := not_or.mp hnmi
    rw [Bool.not_eq_true] at hpending hedge
    obtain ⟨hirq, hi⟩ := (h.resolve_left (by simp [hpending])).resolve_left (by simp [hedge])
    exact ⟨.irq, step_irq hrun hreset habort hpending hedge hirq hi, latch_nmiPending_of_no_edge hpending hedge⟩

/-- Settles O58: BRK and COP return past their signature byte, NMI and IRQ to the interrupted instruction. -/
theorem interruptThenReturn : Obligations.InterruptThenReturn := by
  refine fun s hs => ⟨fun sig => ?software, fun hrun hreset habort h => ?hardware⟩
  case software =>
    simp only [forall_mem_cons_cons, List.forall_mem_singleton]
    exact ⟨⟨_, rfl, congrArg _ (returnFromInterrupt_enter hs .brk (s.pc + 2))⟩,
      ⟨_, rfl, congrArg _ (returnFromInterrupt_enter hs .cop (s.pc + 2))⟩⟩
  case hardware =>
    obtain ⟨kind, hstep, hcleared⟩ := step_interrupt hrun hreset habort h
    have hreturn := returnFromInterrupt_enter hs.latch kind s.pc
    rw [hcleared] at hreturn
    exact ⟨_, hstep, congrArg _ hreturn⟩

end Sys2Proof.Machine
end

section
/-! PROOFS. The statements of 70_reset_and_hazards.md, Reset() on an asserted `reset` (R280), and of the reserved
opcode 42 (30_encoding.md R82). `reset` is the first test of the boundary; latching the sample changes none of what
Reset() reads. -/

namespace Sys2Proof.Machine

/-! ## Reset() (70_reset_and_hazards.md R280) -/

/-- `reset` comes before every other test, in every run state (R260, R263, R264). -/
theorem boundary_of_reset {inp : Inputs} (s : State) (hreset : inp.reset = true) : boundary inp s = .reset :=
  if_pos hreset

/-- An asserted `reset` makes the step Reset(), from the state that has latched the sample (R280). -/
theorem step_reset {s : State} (hreset : s.sample.reset = true) : step s = .next (resetSequence s.latch) := by
  rw [step, boundary_of_reset s.latch hreset]

/-- Whatever is drawn for N, V, Z and C, Reset() sets M, X and I and clears D (R280). -/
theorem resetStatus_bits (drawn : Byte) :
    ((drawn &&& 0xC3) ||| 0x34).getLsbD 5 = true ∧ ((drawn &&& 0xC3) ||| 0x34).getLsbD 4 = true ∧
      ((drawn &&& 0xC3) ||| 0x34).getLsbD 3 = false ∧ ((drawn &&& 0xC3) ||| 0x34).getLsbD 2 = true := by
  simp

/-- The reset vector is the word at 00:FFFC (R280). -/
theorem readWordB_vecReset (m : Memory) :
    m.readWordB 0 Config.vecReset = word16 (m.read 0x00FFFC) (m.read 0x00FFFD) := rfl

/-- Settles O8: the step is Reset() after the latch, with the unspecified values as drawn at this count of draws. -/
theorem resetTransition : Obligations.ResetTransition := by
  intro s hreset
  obtain ⟨hm, hx, hd, hi⟩ := resetStatus_bits (Config.resetP s.draws)
  refine ⟨Config.resetA s.draws, Config.resetXL s.draws, Config.resetYL s.draws, Config.resetSL s.draws, _,
    s.draws + 1, hm, hx, hd, hi, ?_⟩
  rw [step_reset hreset, resetSequence, readWordB_vecReset]
  rfl

/-! ## Opcode 42 (30_encoding.md R82) -/

/-- Under the model's policy nop2 WDM is the advance of PC past its two bytes (log 7). -/
theorem execWdm_eq_advance (sig : Byte) (s : State) : execWdm sig s = .next (s.advance 2) := by
  rw [execWdm, Config.wdmPolicy]

/-- Settles O35: the policy makes WDM an advance, whatever its signature byte. -/
theorem wdmAdvances : Obligations.WdmAdvances :=
  fun sig s => ⟨rfl, execWdm_eq_advance sig s⟩

end Sys2Proof.Machine
end
